-- ==== Sys2Proof/Word.lean ====
section
/-! DEFINITION. The word types of the ports: bytes, 32-bit words and 64-bit operands (rules R14, R61, R68, R86). -/

namespace Sys2Proof

/-- A byte, as a word is carried (rule R68). -/
abbrev Byte := BitVec 8

/-- A port word: an unsigned 32-bit integer (rules R14 and R61). -/
abbrev Word := BitVec 32

/-- The bits of one 64-bit operand (rule R86). -/
abbrev Quad := BitVec 64

end Sys2Proof
end

