-- ==== Sys2Proof/Syntax.lean ====
section
/-! DEFINITION. The syntax of the port words: one constructor per row of the opcode table (`30_encoding.md`). -/

namespace Sys2Proof

/-- Rule R110: the two noise modes. -/
inductive NoiseMode where
  | long
  | short
deriving DecidableEq, Repr, Inhabited

/-- Rule R92: the RESULT field of INIT_DONE. `unsent` is the value `11`, which is never sent
(DEDUCED, assumption log 16). -/
inductive InitResult where
  | ok
  | failed
  | stale
  | unsent
deriving DecidableEq, Repr

/-- The words that travel on the three ports, one constructor per row of the opcode table (rules R82, R83, R87, R92).
A numeric operand is held as the 64 bits that carry it, since every pattern decodes (rule R89); a channel index, an
effective-frame operand, a frame count and a generation are unsigned integers (rules R85, R86, R88). -/
inductive Instr where
  /-- CREATE_CHANNELS (rule R182). -/
  | createChannels
  /-- RESET (rule R184). -/
  | reset
  /-- SET_MASTER_VOLUME (rule R185): the operand `v`. -/
  | setMasterVolume (v : Quad)
  /-- DISPATCH SQUARE_NOTE (rule R194): channel, `AT`, `hz`, `duty`, `volume`. -/
  | squareNote (ch eff : Nat) (hz duty volume : Quad)
  /-- DISPATCH TRIANGLE_NOTE (rule R196): channel, `AT`, `hz`. -/
  | triangleNote (ch eff : Nat) (hz : Quad)
  /-- DISPATCH NOISE_NOTE (rule R197): channel, mode, `AT`, `hz`, `volume`. -/
  | noiseNote (ch : Nat) (mode : NoiseMode) (eff : Nat) (hz volume : Quad)
  /-- RENDER_BLOCK (rule R205): the frame count. -/
  | renderBlock (frames : Nat)
  /-- INIT_DONE (rules R92, R191): RESULT, the READY mask (bit `i - 1` for slot `i`), the generation. -/
  | initDone (result : InitResult) (ready : BitVec 4) (g : Nat)
deriving DecidableEq, Repr

end Sys2Proof
end

