-- ==== Sys2Proof/WellFormed.lean ====
section
/-! DEFINITION. Which instructions are well-formed: every field fits the bits the encoding gives it, and an INIT_DONE
is one that some completion sends. -/

namespace Sys2Proof

/-- Rule R85: `CH` is an unsigned integer 0 to 7. The indices no slot has are well-formed; routing drops them. -/
def channelOk (ch : Nat) : Bool := decide (ch < 8)

/-- Rule R86: a frame operand is an unsigned 64-bit integer. -/
def frameOperandOk (n : Nat) : Bool := decide (n < 2 ^ 64)

/-- Rule R88: a frame count is 0 to 65535. -/
def frameCountOk (n : Nat) : Bool := decide (n < 65536)

/-- Rules R92, R188, R191, R192: OK goes with all four slots READY, FAILED with at least one slot missing, STALE with
none, and RESULT `11` is never sent. -/
def resultOk : InitResult → BitVec 4 → Bool
  | .ok, ready => decide (ready = 15#4)
  | .failed, ready => decide (ready ≠ 15#4)
  | .stale, ready => decide (ready = 0#4)
  | .unsent, _ => false

/-- An instruction whose every field has a value the spec's encoding admits. -/
def Instr.wellFormed : Instr → Bool
  | .createChannels => true
  | .reset => true
  | .setMasterVolume _ => true
  | .squareNote ch eff _ _ _ => channelOk ch && frameOperandOk eff
  | .triangleNote ch eff _ => channelOk ch && frameOperandOk eff
  | .noiseNote ch _ eff _ _ => channelOk ch && frameOperandOk eff
  | .renderBlock frames => frameCountOk frames
  | .initDone result ready g => resultOk result ready && frameOperandOk g

end Sys2Proof
end

