-- ==== Sys2Proof/Decode.lean ====
section
/-! DEFINITION. Header fields, the decoders of the three ports (total on every word and every byte), the encoder, and
`decodeTableWord` (`30_encoding.md`). -/

namespace Sys2Proof

/-! ### Words and bytes -/

/-- Rule R14: `bits64(lo, hi)`, the 64-bit value `hi * 2^32 + lo`. -/
def bits64 (lo hi : Word) : Quad := hi ++ lo

/-- Rule R86: the low word of an operand, sent first. -/
def lowWord (q : Quad) : Word := q.extractLsb' 0 32

/-- Rule R86: the high word of an operand, sent second. -/
def highWord (q : Quad) : Word := q.extractLsb' 32 32

/-- Rule R86: the two words of an operand in the order they travel. -/
def operandWords (q : Quad) : List Word := [lowWord q, highWord q]

/-- Rule R68: a word from its bytes, least significant first. -/
def wordOfBytes (b0 b1 b2 b3 : Byte) : Word := b3 ++ b2 ++ b1 ++ b0

/-- Rule R68: the bytes of a word, least significant first. -/
def bytesOfWord (w : Word) : List Byte :=
  [w.extractLsb' 0 8, w.extractLsb' 8 8, w.extractLsb' 16 8, w.extractLsb' 24 8]

/-- The whole words a byte stream carries (rules R68 and R69). The one to three bytes of an unfinished word are not
a word yet. -/
def wordsOfBytes : List Byte → List Word
  | b0 :: b1 :: b2 :: b3 :: rest => wordOfBytes b0 b1 b2 b3 :: wordsOfBytes rest
  | _ => []

/-- The bytes that carry a list of words. -/
def bytesOfWords : List Word → List Byte
  | [] => []
  | w :: ws => bytesOfWord w ++ bytesOfWords ws

/-! ### Header fields (rules R81 and R92) -/

/-- `OP = W[31:28]`. -/
def opField (w : Word) : BitVec 4 := w.extractLsb' 28 4
/-- `VAR = W[27:26]`. -/
def varField (w : Word) : BitVec 2 := w.extractLsb' 26 2
/-- `MODE = W[25]`. -/
def modeField (w : Word) : BitVec 1 := w.extractLsb' 25 1
/-- `CH = W[24:22]`. -/
def chField (w : Word) : BitVec 3 := w.extractLsb' 22 3
/-- `RSV = W[21:16]`. -/
def rsvField (w : Word) : BitVec 6 := w.extractLsb' 16 6
/-- `FRAMES = W[15:0]`. -/
def framesField (w : Word) : BitVec 16 := w.extractLsb' 0 16
/-- `RESULT = W[27:26]` of INIT_DONE. -/
def resultField (w : Word) : BitVec 2 := w.extractLsb' 26 2
/-- `READY = W[19:16]` of INIT_DONE. -/
def readyField (w : Word) : BitVec 4 := w.extractLsb' 16 4
/-- `W[25:20]` of INIT_DONE, which is 0. -/
def responseGap (w : Word) : BitVec 6 := w.extractLsb' 20 6
/-- `W[27:0]`, which is 0 in a command that uses no header field. -/
def belowOp (w : Word) : BitVec 28 := w.extractLsb' 0 28

/-- A header word from its six fields (rule R81). -/
def headerWord (op : BitVec 4) (var : BitVec 2) (mode : BitVec 1) (ch : BitVec 3) (rsv : BitVec 6)
    (frames : BitVec 16) : Word :=
  op ++ var ++ mode ++ ch ++ rsv ++ frames

/-- An INIT_DONE header from its fields (rule R92). -/
def responseWord (result : BitVec 2) (ready : BitVec 4) : Word :=
  9#4 ++ result ++ 0#6 ++ ready ++ 0#16

/-! ### The decoders -/

/-- Why a word is RESERVED (rules R81, R82, R90, R92). -/
inductive ReservedReason where
  /-- `W[21:16]` is not 0. -/
  | rsvNotZero
  /-- The OP has no meaning on any port. -/
  | noSuchOp
  /-- The OP belongs to another port (rule R82). -/
  | otherPort
  /-- A header field that this command does not use is not 0. -/
  | unusedFieldNotZero
  /-- VAR is `11` (rule R83). -/
  | noSuchVariant
deriving DecidableEq, Repr

/-- Why a list of words is no instruction. -/
inductive DecodeError where
  /-- There is no word. -/
  | noWord
  /-- The header is RESERVED. -/
  | reserved (why : ReservedReason)
  /-- The header is a command of `length` words and not all of them are there (rule R91). -/
  | incomplete (length : Nat)
deriving DecidableEq, Repr

/-- What a command-port header says (rule R90). -/
inductive Header where
  | createChannels
  | reset
  | setMasterVolume
  | squareNote (ch : BitVec 3)
  | triangleNote (ch : BitVec 3)
  | noiseNote (ch : BitVec 3) (mode : NoiseMode)
deriving DecidableEq, Repr

/-- Rule R84: the mode a MODE bit stands for. -/
def modeOfBit (b : BitVec 1) : NoiseMode := if b = 0#1 then .long else .short

/-- Rule R84: the MODE bit of a mode. -/
def bitOfMode : NoiseMode → BitVec 1
  | .long => 0#1
  | .short => 1#1

/-- The DISPATCH part of rule R90: the header with OP `0x4`. -/
def decodeDispatchHeader (w : Word) : Except ReservedReason Header :=
  if framesField w ≠ 0#16 then .error .unusedFieldNotZero
  else if varField w = 0#2 then
    if modeField w = 0#1 then .ok (.squareNote (chField w)) else .error .unusedFieldNotZero
  else if varField w = 1#2 then
    if modeField w = 0#1 then .ok (.triangleNote (chField w)) else .error .unusedFieldNotZero
  else if varField w = 2#2 then .ok (.noiseNote (chField w) (modeOfBit (modeField w)))
  else .error .noSuchVariant

/-- Rule R90: the command-port decoder on a header word, in the order the rule gives. -/
def decodeHeader (w : Word) : Except ReservedReason Header :=
  if rsvField w ≠ 0#6 then .error .rsvNotZero
  else if opField w = 1#4 then
    if belowOp w = 0#28 then .ok .createChannels else .error .unusedFieldNotZero
  else if opField w = 2#4 then
    if belowOp w = 0#28 then .ok .reset else .error .unusedFieldNotZero
  else if opField w = 3#4 then
    if belowOp w = 0#28 then .ok .setMasterVolume else .error .unusedFieldNotZero
  else if opField w = 4#4 then decodeDispatchHeader w
  else if opField w = 8#4 ∨ opField w = 9#4 then .error .otherPort
  else .error .noSuchOp

/-- Rule R91: the length in words of the command a header begins, header included. -/
def Header.length : Header → Nat
  | .createChannels => 1
  | .reset => 1
  | .setMasterVolume => 3
  | .squareNote _ => 9
  | .triangleNote _ => 5
  | .noiseNote _ _ => 7

/-- The command a header and its operand words make, with the words that follow it (rules R86, R87, R91). -/
def decodeOperands : Header → List Word → Except DecodeError (Instr × List Word)
  | .createChannels, ws => .ok (.createChannels, ws)
  | .reset, ws => .ok (.reset, ws)
  | .setMasterVolume, vl :: vh :: ws => .ok (.setMasterVolume (bits64 vl vh), ws)
  | .squareNote ch, al :: ah :: hl :: hh :: dl :: dh :: vl :: vh :: ws =>
      .ok (.squareNote ch.toNat (bits64 al ah).toNat (bits64 hl hh) (bits64 dl dh) (bits64 vl vh), ws)
  | .triangleNote ch, al :: ah :: hl :: hh :: ws =>
      .ok (.triangleNote ch.toNat (bits64 al ah).toNat (bits64 hl hh), ws)
  | .noiseNote ch mode, al :: ah :: hl :: hh :: vl :: vh :: ws =>
      .ok (.noiseNote ch.toNat mode (bits64 al ah).toNat (bits64 hl hh) (bits64 vl vh), ws)
  | h, _ => .error (.incomplete h.length)

/-- The command at the head of a list of command-port words, and the words after it (rules R80, R90, R91). -/
def decodeCommand : List Word → Except DecodeError (Instr × List Word)
  | [] => .error .noWord
  | w :: ws =>
    match decodeHeader w with
    | .error why => .error (.reserved why)
    | .ok h => decodeOperands h ws

/-- Rule R90: the render-port decoder. -/
def decodeRender (w : Word) : Except ReservedReason Instr :=
  if w.extractLsb' 16 16 = 0x8000#16 then .ok (.renderBlock (framesField w).toNat)
  else if opField w = 8#4 then .error .unusedFieldNotZero
  else if opField w = 1#4 ∨ opField w = 2#4 ∨ opField w = 3#4 ∨ opField w = 4#4 ∨ opField w = 9#4 then
    .error .otherPort
  else .error .noSuchOp

/-- Rule R92: the result a RESULT field stands for. -/
def resultOfBits (b : BitVec 2) : InitResult :=
  if b = 0#2 then .ok else if b = 1#2 then .failed else if b = 2#2 then .stale else .unsent

/-- Rule R92: the RESULT field of a result. -/
def bitsOfResult : InitResult → BitVec 2
  | .ok => 0#2
  | .failed => 1#2
  | .stale => 2#2
  | .unsent => 3#2

/-- Rule R92: the response at the head of a list of response-port words, as the host reads it. -/
def decodeResponse : List Word → Except DecodeError (Instr × List Word)
  | [] => .error .noWord
  | w :: ws =>
    if opField w ≠ 9#4 then
      .error (.reserved (if opField w = 1#4 ∨ opField w = 2#4 ∨ opField w = 3#4 ∨ opField w = 4#4 ∨ opField w = 8#4
        then .otherPort else .noSuchOp))
    else if responseGap w ≠ 0#6 ∨ framesField w ≠ 0#16 then .error (.reserved .unusedFieldNotZero)
    else match ws with
      | gl :: gh :: rest =>
        .ok (.initDone (resultOfBits (resultField w)) (readyField w) (bits64 gl gh).toNat, rest)
      | _ => .error (.incomplete 3)

/-! ### The encoder -/

/-- The header of a DISPATCH (rules R81 and R82). -/
def dispatchHeader (var : BitVec 2) (mode : BitVec 1) (ch : Nat) : Word :=
  headerWord 4#4 var mode (BitVec.ofNat 3 ch) 0#6 0#16

/-- The words of an instruction, written from `30_encoding.md` rules R81 to R88 and R92. -/
def encode : Instr → List Word
  | .createChannels => [headerWord 1#4 0#2 0#1 0#3 0#6 0#16]
  | .reset => [headerWord 2#4 0#2 0#1 0#3 0#6 0#16]
  | .setMasterVolume v => headerWord 3#4 0#2 0#1 0#3 0#6 0#16 :: operandWords v
  | .squareNote ch eff hz duty volume =>
      dispatchHeader 0#2 0#1 ch ::
        (operandWords (BitVec.ofNat 64 eff) ++ operandWords hz ++ operandWords duty ++ operandWords volume)
  | .triangleNote ch eff hz =>
      dispatchHeader 1#2 0#1 ch :: (operandWords (BitVec.ofNat 64 eff) ++ operandWords hz)
  | .noiseNote ch mode eff hz volume =>
      dispatchHeader 2#2 (bitOfMode mode) ch ::
        (operandWords (BitVec.ofNat 64 eff) ++ operandWords hz ++ operandWords volume)
  | .renderBlock frames => [headerWord 8#4 0#2 0#1 0#3 0#6 (BitVec.ofNat 16 frames)]
  | .initDone result ready g => responseWord (bitsOfResult result) ready :: operandWords (BitVec.ofNat 64 g)

/-! ### Ports -/

/-- The three ports (rule R60). -/
inductive Port where
  | command
  | render
  | response
deriving DecidableEq, Repr

/-- The port an instruction travels on (the opcode table's `port`). -/
def Instr.port : Instr → Port
  | .createChannels => .command
  | .reset => .command
  | .setMasterVolume _ => .command
  | .squareNote _ _ _ _ _ => .command
  | .triangleNote _ _ _ => .command
  | .noiseNote _ _ _ _ _ => .command
  | .renderBlock _ => .render
  | .initDone _ _ _ => .response

/-- The instruction at the head of a list of words of one port, and the words after it. -/
def decodePort : Port → List Word → Except DecodeError (Instr × List Word)
  | .command, ws => decodeCommand ws
  | .render, w :: ws =>
    match decodeRender w with
    | .ok i => .ok (i, ws)
    | .error why => .error (.reserved why)
  | .render, [] => .error .noWord
  | .response, ws => decodeResponse ws

/-- The same on the bytes that carry the words (rule R68). -/
def decodeBytes (p : Port) (bs : List Byte) : Except DecodeError (Instr × List Word) :=
  decodePort p (wordsOfBytes bs)

/-- The port whose words a header belongs to: OP `0x8` is the render port's, OP `0x9` the response port's (rule R82). -/
def portOfHeader (w : Word) : Port :=
  if opField w = 8#4 then .render else if opField w = 9#4 then .response else .command

/-! ### The opcode table's words -/

/-- Word `k` of an instruction whose bits are `w`, of which the table gives `nbits`; the bits above are 0. -/
def tableWord (nbits w k : Nat) : Word :=
  BitVec.ofNat 32 ((w >>> (32 * k)) % 2 ^ min 32 (nbits - 32 * k))

/-- The words of such an instruction, as many as the longest instruction has (rule R91: 9). -/
def tableWords (nbits w : Nat) : List Word := (List.range 9).map (tableWord nbits w)

/-- The instruction the decoder of the header's port reads from an instruction whose bits are `w`, numbered as the
opcode table numbers them and laid out as the ports carry words (rule R68). -/
def decodeTableWord (nbits w : Nat) : Option Instr :=
  match decodeBytes (portOfHeader (tableWord nbits w 0)) (bytesOfWords (tableWords nbits w)) with
  | .ok (i, _) => some i
  | .error _ => none

end Sys2Proof
end

