-- ==== Sys2Proof/Config.lean ====
section
/-! DEFINITION. The implementation parameters of `00_scope.md` section 2 and the model's free values: what an
implementation fixes, and what the spec leaves without a value. -/

namespace Sys2Proof

/-- Rule R8: the two admitted instances of `NUMERICS`. `exact` is exact rational arithmetic; `binary64` rounds each
operation once, to nearest, ties to even, to a binary64 number. -/
inductive Numerics where
  | exact
  | binary64
deriving DecidableEq, Repr, Inhabited

/-- The parameters a model of this block takes (rules R7, R8, R10, R11). Every one is fixed for the block's lifetime. -/
structure Params where
  /-- `NUMERICS` (rule R8). -/
  numerics : Numerics
  /-- `SR`, in samples per second (rule R7): positive and a value of `NUMERICS`, see `Params.wf`. -/
  sampleRate : Rat
  /-- `AUTOMATION_CAPACITY` (rule R10): `none` is unbounded. -/
  capacity : Option Nat
  /-- `TRIANGLE_VOLUME` (rule R11). -/
  triangleVolume : Rat
deriving DecidableEq, Repr

/-- OPEN (rule R8): which instance of `NUMERICS` the implementation computes in. -/
opaque Config.numerics : Numerics

/-- OPEN (rule R7): the sample rate where `NUMERICS` is `exact`, as a numerator less 1 and a denominator less 1, so that
it is any positive rational. -/
opaque Config.sampleRateParts : Nat × Nat

/-- OPEN (rule R7): the sample rate where `NUMERICS` is `binary64`, as a significand less 1 and an exponent plus 1074, so
that it is any positive finite binary64 number and nothing else (rule R15). -/
opaque Config.sampleRateParts64 : Fin 9007199254740991 × Fin 2046

/-- The sample rate after power-on: a positive value of `NUMERICS` (rules R7 and R15). -/
def Config.sampleRate : Rat :=
  match Config.numerics with
  | .exact => mkRat (Config.sampleRateParts.1 + 1) (Config.sampleRateParts.2 + 1)
  | .binary64 => mkRat ((Config.sampleRateParts64.1 + 1) * 2 ^ (Config.sampleRateParts64.2 : Nat) : Nat) (2 ^ 1074)

/-- OPEN (rule R10): the automation capacity less 1, or `none` for unbounded. -/
opaque Config.capacityLessOne : Option Nat

/-- The parameters of the machine after power-on. The triangle volume is the value rule R11 gives this hardware; the
other three are OPEN (DESIGN CHOICE, safe: assumption log 1). -/
def Config.params : Params where
  numerics := Config.numerics
  sampleRate := Config.sampleRate
  capacity := Config.capacityLessOne.map (· + 1)
  triangleVolume := 0

/-- Free value (DESIGN CHOICE, assumption log 6): what an oscillator's phase becomes where `f / SR` is too large for a binary64 number,
of the old phase and the frequency. Rule R131 says the phase stays in `[0, 1)` and states no value there; `phaseStep`
brings the magnitude of this number into `[0, 1)`, so that it can be every such value. -/
opaque Config.freePhase : Rat → Rat → Rat

/-- Free value (DESIGN CHOICE, assumption log 7): the 64 bits that carry a generation number of 2^64 or more in an INIT_DONE.
`GEN` is unbounded (rule R24) and the operand has 64 bits (rule R92). -/
opaque Config.freeGeneration : Nat → Quad

/-- Free value (DESIGN CHOICE, assumption log 17): whether the zero sample of a frame travels as negative zero. Rule R138
lets no claim tell the two zeros apart, and `93_implementation_defined.md` gives the sign as any value. -/
opaque Config.freeZeroSign : Nat → Bool

end Sys2Proof
end

