-- ==== Sys2Proof/Machine/State.lean ====
section
/-! DEFINITION. The state of the block, its ports and the agents' next actions, as plain data (`10_state.md`,
`20_memory.md`), with the reasons a run can end and the state after power-on. -/

namespace Sys2Proof.Machine

/-- Rule R28: what a slot's oscillator is. -/
inductive Kind where
  | pulse
  | triangle
  | noise
deriving DecidableEq, Repr

/-- Rule R27: the status of a slot. -/
inductive Status where
  | uninitialized
  | ready
deriving DecidableEq, Repr

/-- Rule R33: a pending automation entry: a value, its effective frame and its arrival number. -/
structure Entry (α : Type) where
  value : α
  e : Nat
  seq : Nat
deriving DecidableEq, Repr

/-- Rule R33: an automated parameter: the value in force and the pending entries in arrival order. -/
structure Param (α : Type) where
  cur : α
  pend : List (Entry α)
deriving DecidableEq, Repr

/-- Rule R30: a `Ready` pulse slot. -/
structure Pulse where
  phase : Rat
  freq : Param Rat
  duty : Param Rat
  volume : Param Rat
deriving DecidableEq, Repr

/-- Rule R31: a `Ready` triangle slot. -/
structure Triangle where
  phase : Rat
  freq : Param Rat
deriving DecidableEq, Repr

/-- Rule R32: a `Ready` noise slot. -/
structure Noise where
  phase : Rat
  freq : Param Rat
  volume : Param Rat
  mode : Param NoiseMode
  lfsr : BitVec 15
  seqMode : NoiseMode
  level : Bool
deriving DecidableEq, Repr

/-- Rules R27 to R29: the four slots. An `Uninitialized` slot holds no oscillator state: it is `none`. -/
structure Slots where
  slot1 : Option Pulse
  slot2 : Option Pulse
  slot3 : Option Triangle
  slot4 : Option Noise
deriving DecidableEq, Repr

/-- Rule R187: whether a slot loaded. -/
inductive LoadResult where
  | loaded
  | failed
deriving DecidableEq, Repr

/-- Rule R187: a draw of the initialiser, one result for each slot. -/
structure Draw where
  ok1 : LoadResult
  ok2 : LoadResult
  ok3 : LoadResult
  ok4 : LoadResult
deriving DecidableEq, Repr

/-- One action of an agent at the block's boundary (rules R18, R61 to R65). The block's own transitions are `apply`,
`complete` and `render` (rule R64); the other four only put words on a port or take them off it. -/
inductive Move where
  /-- The host writes one word into `CMDQ` (rule R61). -/
  | hostWrite (w : Word)
  /-- The block applies the command at the head of `CMDQ` (rule R180). -/
  | apply
  /-- The initialiser completes a generation with a draw (rule R188). -/
  | complete (g : Nat) (ok : Draw)
  /-- The sink puts a request word on the render port (rule R63). -/
  | sinkRequest (w : Word)
  /-- The block serves the outstanding render request (rule R205). -/
  | render
  /-- The sink takes the oldest block off the render port (rule R63; that taking is an action of its own is DESIGN
  CHOICE, assumption log 18). -/
  | sinkTake
  /-- The host reads one word from `RESPQ` (rule R62). -/
  | hostRead
deriving DecidableEq, Repr

/-- Why the machine stops with a fault. There is no reason: the block has no trap and no fault (rules R230 and R239),
so no meaning raises one. Safe: nothing is claimed of a fault. -/
inductive Fault where
deriving DecidableEq, Repr

/-- Why a word is given no meaning. -/
inductive Refusal where
  /-- An instruction whose meaning is not written yet. Raised by `exec`'s arm alone; no arm raises it. Safe. -/
  | notModelled (mnemonic : String)
  /-- E_RANGE (rules R186 and R236): a numeric operand is outside its range, NaN or infinite. Raised by
  SET_MASTER_VOLUME and every DISPATCH, before any effect. Safe: the spec gives the case no meaning (DEDUCED, assumption log 4). -/
  | operandRange
  /-- E_OVERFLOW (rules R166 and R236): an automation entry would go into a full list. Raised by every DISPATCH that
  routing accepts, before any write. Safe: the spec gives the case no meaning (DEDUCED, assumption log 4). -/
  | automationOverflow
  /-- An INIT_DONE that no completion sends in this state (rules R92, R187 to R192): its generation is not pending, or
  its RESULT and READY are not those of a completion of it. Raised by INIT_DONE alone, and never by `step`. Safe (DESIGN CHOICE,
  assumption log 8). -/
  | responseNotSent
deriving DecidableEq, Repr

/-- The machine: the block state `S` of rule R21, the ports' queues of rules R61 to R63, what the agents do next, and
the parameters of `00_scope.md` section 2. -/
structure State where
  /-- `FRAME` (rule R22). -/
  frame : Nat
  /-- `MASTER` (rule R23). -/
  master : Rat
  /-- `GEN` (rule R24). -/
  gen : Nat
  /-- `PENDING` (rule R25): a set, held as a strictly rising list. -/
  pending : List Nat
  /-- `SEQ` (rule R26). -/
  seq : Nat
  /-- `slot[1]` to `slot[4]` (rules R27 to R32). -/
  slots : Slots
  /-- `CMDQ`, oldest word first (rule R61). -/
  cmdq : List Word
  /-- `RESPQ`, oldest word first (rule R62). -/
  respq : List Word
  /-- The render port's outstanding request word (rule R63). -/
  request : Option Word
  /-- The blocks returned on the render port and not yet taken, oldest first (rules R63 and R205). That they wait there,
  in this order and without limit, is DESIGN CHOICE, assumption log 18. -/
  rendered : List (List Rat)
  /-- What the agents do next, in order (rules R18 and R65): the environment's choice, any list at all. The model's own
  field (DESIGN CHOICE, assumption log 2). -/
  moves : List Move
  /-- The parameters, fixed for the block's lifetime (rules R7 to R11). -/
  cfg : Params
deriving DecidableEq, Repr

/-- Rules R27 and R40: every slot `Uninitialized`. -/
def Slots.absent : Slots := ⟨none, none, none, none⟩

/-- Rules R40 and R260: the state after power-on, with generation 1 issued. That no agent has acted yet, so that
`request`, `rendered` and `moves` are empty, is the model's (DESIGN CHOICE, assumption log 2). -/
def State.reset : State where
  frame := 0
  master := 1
  gen := 1
  pending := [1]
  seq := 0
  slots := Slots.absent
  cmdq := []
  respq := []
  request := none
  rendered := []
  moves := []
  cfg := Config.params

end Sys2Proof.Machine
end

