-- ==== Sys2Proof/Machine/Numerics.lean ====
section
/-! DEFINITION. The two instances of `NUMERICS` over the rationals (rules R8, R15, R132) and the binary64 format
(rules R14, R86). A finite binary64 number is the rational it denotes; the two zeros are one (rule R138). -/

namespace Sys2Proof.Machine

/-- `2 ^ e` for any integer `e`. -/
def pow2 (e : Int) : Rat := if 0 ≤ e then ((2 ^ e.toNat : Nat) : Rat) else mkRat 1 (2 ^ (-e).toNat)

/-- The binary exponent of a nonzero rational: the `k` with `2^k ≤ |x| < 2^(k+1)`. -/
def ilog2 (x : Rat) : Int :=
  let k : Int := (Nat.log2 x.num.natAbs : Int) - (Nat.log2 x.den : Int)
  if |x| < pow2 k then k - 1 else k

/-- The exponent of the unit in the last place of the binary64 numbers near `x`: 53 significant bits, and no unit
below `2^-1074`. -/
def ulpExponent (x : Rat) : Int := max (ilog2 x - 52) (-1074)

/-- The nearest integer, ties to even. -/
def roundToEven (y : Rat) : Int :=
  let f := y.floor
  let r := y - f
  if r < 1 / 2 then f else if 1 / 2 < r then f + 1 else if f % 2 = 0 then f else f + 1

/-- Rounding to the nearest binary64 number, ties to even, with no upper bound on the exponent (rule R8; DEDUCED,
assumption log 3). -/
def round64 (x : Rat) : Rat := roundToEven (x / pow2 (ulpExponent x)) * pow2 (ulpExponent x)

end Sys2Proof.Machine

namespace Sys2Proof

open Sys2Proof.Machine

/-- Rule R8: what each instance does to an exact result. -/
def Numerics.round : Numerics → Rat → Rat
  | .exact, x => x
  | .binary64, x => round64 x

/-- `+` of `NUMERICS`, rounded once (rule R132). -/
def Numerics.add (k : Numerics) (x y : Rat) : Rat := k.round (x + y)

/-- `-` of `NUMERICS`, rounded once. -/
def Numerics.sub (k : Numerics) (x y : Rat) : Rat := k.round (x - y)

/-- `*` of `NUMERICS`, rounded once. -/
def Numerics.mul (k : Numerics) (x y : Rat) : Rat := k.round (x * y)

/-- `/` of `NUMERICS`, rounded once. -/
def Numerics.div (k : Numerics) (x y : Rat) : Rat := k.round (x / y)

end Sys2Proof

namespace Sys2Proof.Machine

/-- Rule R15: `mod1(x) = x - floor(x)`, exact in both instances (rule R131). -/
def mod1 (x : Rat) : Rat := x - x.floor

/-- The sign bit of a binary64 pattern. -/
def signBit (b : Quad) : Bool := b.getLsbD 63

/-- The biased exponent of a binary64 pattern. -/
def exponentBits (b : Quad) : Nat := (b.extractLsb' 52 11).toNat

/-- The fraction of a binary64 pattern. -/
def fractionBits (b : Quad) : Nat := (b.extractLsb' 0 52).toNat

/-- The magnitude of a finite binary64 pattern with biased exponent `e` and fraction `f`. -/
def magnitude64 (e f : Nat) : Rat :=
  if e = 0 then (if f = 0 then 0 else mkRat f (2 ^ 1074))
  else if 1075 ≤ e then (((2 ^ 52 + f) * 2 ^ (e - 1075) : Nat) : Rat)
  else mkRat ((2 ^ 52 + f : Nat) : Int) (2 ^ (1075 - e))

/-- Rules R14 and R86: `f64(b)` as the rational it denotes; `none` for a NaN or an infinity. -/
def f64 (b : Quad) : Option Rat :=
  if exponentBits b = 2047 then none
  else
    let m := magnitude64 (exponentBits b) (fractionBits b)
    some (if signBit b then -m else m)

/-- The binary64 pattern of `x`, where `x` is a finite binary64 number (rule R93); `none` where it is not one. Of the
two patterns of zero it is that of `+0` (DESIGN CHOICE, assumption log 17). The words of a zero sample do not rest on
this: see `samplePattern`. -/
def toF64 (x : Rat) : Option Quad :=
  if round64 x ≠ x ∨ pow2 1024 ≤ |x| then none
  else
    let m := (|x| / pow2 (ulpExponent x)).floor.toNat
    let e := (ulpExponent x + 1075).toNat
    let body := if m < 2 ^ 52 then m else e * 2 ^ 52 + (m - 2 ^ 52)
    some (BitVec.ofNat 64 ((if x < 0 then 2 ^ 63 else 0) + body))

/-- Rules R93 and R138: the pattern in which the sample `x` of frame `n` travels, where it is a binary64 number. The
sign of a zero sample is a free value (DESIGN CHOICE, assumption log 17). -/
def samplePattern (n : Nat) (x : Rat) : Option Quad :=
  if x = 0 then some (if Config.freeZeroSign n then 0x8000000000000000#64 else 0#64) else toF64 x

/-- Rule R93: the two words that carry the sample `x` of frame `n`, low first, where the sample is a binary64 number
(DEDUCED, assumption log 15). -/
def sampleWords (n : Nat) (x : Rat) : Option (List Word) := (samplePattern n x).map operandWords

/-- Rule R93: the words that carry a block whose first sample is that of frame `n`, in frame order. -/
def blockWords : Nat → List Rat → Option (List Word)
  | _, [] => some []
  | n, x :: xs =>
    match sampleWords n x, blockWords (n + 1) xs with
    | some ws, some rest => some (ws ++ rest)
    | _, _ => none

/-- Rule R12: what leaves the render port for a sample. `OUTPUT_FORMAT` is `NUMERICS` itself on this hardware: no
extra rounding and no clamp. -/
def outputSample (x : Rat) : Rat := x

end Sys2Proof.Machine
end

