-- ==== Sys2Proof/Machine/Operands.lean ====
section
/-! DEFINITION. Every operand form: numeric operands with their ranges (rules R86, R89, R186), the READY mask and the
draw it stands for (rules R92, R187), and the words of a response (rules R92, R191). -/

namespace Sys2Proof.Machine

/-- Rule R186: an operand `volume`, `duty` or `v`: its value where it lies in [0, 1], `none` where it does not or is
a NaN or an infinity. -/
def unitOperand (b : Quad) : Option Rat :=
  match f64 b with
  | some x => if 0 ≤ x ∧ x ≤ 1 then some x else none
  | none => none

/-- Rule R186: an operand `hz`: its value where it is finite and above 0. -/
def hzOperand (b : Quad) : Option Rat :=
  match f64 b with
  | some x => if 0 < x then some x else none
  | none => none

/-- Rule R87 (c): the values of a SQUARE_NOTE, `none` where one of them is out of range. -/
def squareOperands (hz duty volume : Quad) : Option (Rat × Rat × Rat) :=
  match hzOperand hz, unitOperand duty, unitOperand volume with
  | some h, some d, some v => some (h, d, v)
  | _, _, _ => none

/-- Rule R87 (e): the values of a NOISE_NOTE, its mode taken from the header. -/
def noiseOperands (mode : NoiseMode) (hz volume : Quad) : Option (Rat × Rat × NoiseMode) :=
  match hzOperand hz, unitOperand volume with
  | some h, some v => some (h, v, mode)
  | _, _ => none

/-- The READY bit of a slot. -/
def LoadResult.bit : LoadResult → BitVec 1
  | .loaded => 1#1
  | .failed => 0#1

/-- What a READY bit says of its slot. -/
def LoadResult.ofBit (b : BitVec 1) : LoadResult := if b = 1#1 then .loaded else .failed

/-- Rule R92: the READY mask of a draw, bit `i - 1` for slot `i`. -/
def Draw.mask (ok : Draw) : BitVec 4 := ok.ok4.bit ++ ok.ok3.bit ++ ok.ok2.bit ++ ok.ok1.bit

/-- The draw whose loaded slots a READY mask lists. -/
def Draw.ofMask (m : BitVec 4) : Draw :=
  ⟨.ofBit (m.extractLsb' 0 1), .ofBit (m.extractLsb' 1 1), .ofBit (m.extractLsb' 2 1), .ofBit (m.extractLsb' 3 1)⟩

/-- Every slot loaded. -/
def Draw.allLoaded : Draw := ⟨.loaded, .loaded, .loaded, .loaded⟩

/-- Rule R188: RESULT of a completion of the current generation. -/
def Draw.result (ok : Draw) : InitResult := if ok = Draw.allLoaded then .ok else .failed

/-- The 64 bits that carry a generation number (rules R86 and R92). From 2^64 on the spec states none: a free value. -/
def generationOperand (g : Nat) : Quad := if g < 2 ^ 64 then BitVec.ofNat 64 g else Config.freeGeneration g

/-- Rules R92 and R191: the three words of an INIT_DONE: the header, then the generation low and high. -/
def responseWords (result : InitResult) (ready : BitVec 4) (g : Nat) : List Word :=
  responseWord (bitsOfResult result) ready :: operandWords (generationOperand g)

end Sys2Proof.Machine
end

