-- ==== Sys2Proof/Machine/Automation.lean ====
section
/-! DEFINITION. ParameterAutomation: AUTO_SET, AUTO_AT and AUTO_RETIRE (`42_automation.md`). -/

namespace Sys2Proof.Machine

/-- Rule R161: the effective frame of a value dispatched with operand `AT` when the frame counter is `frame`. -/
def effectiveFrame (eff frame : Nat) : Nat := max eff frame

/-- Rule R163: `x` is not after `y` in the order of `(e, seq)`. -/
def Entry.notAfter {α : Type} (x y : Entry α) : Bool := decide (x.e < y.e) || (decide (x.e = y.e) && decide (x.seq ≤ y.seq))

/-- The entry with the largest `(e, seq)` of a list. -/
def latestEntry {α : Type} : List (Entry α) → Option (Entry α)
  | [] => none
  | x :: xs =>
    match latestEntry xs with
    | none => some x
    | some y => if x.notAfter y then some y else some x

/-- Rule R164, AUTO_AT: the value in force at frame `n` (for rule R167's own wording see assumption log 12). -/
def Param.inForce {α : Type} (p : Param α) (n : Nat) : α :=
  match latestEntry (p.pend.filter fun x => decide (x.e ≤ n)) with
  | none => p.cur
  | some x => x.value

/-- Rule R165, AUTO_RETIRE: fold the entries that have come into force at frame `n` into the current value. -/
def Param.retire {α : Type} (p : Param α) (n : Nat) : Param α :=
  ⟨p.inForce n, p.pend.filter fun x => decide (n < x.e)⟩

/-- Rule R166: the parameter's list is full (DEDUCED, assumption log 11). -/
def Param.full {α : Type} (capacity : Option Nat) (p : Param α) : Bool :=
  match capacity with
  | none => false
  | some k => decide (k ≤ p.pend.length)

/-- Rule R162, AUTO_SET: schedule one value, where the list is not full. -/
def Param.schedule {α : Type} (p : Param α) (value : α) (e seq : Nat) : Param α :=
  ⟨p.cur, p.pend ++ [⟨value, e, seq⟩]⟩

/-- A parameter with no pending entry (rules R37 to R39). -/
def Param.constant {α : Type} (value : α) : Param α := ⟨value, []⟩

/-- Rule R168: the parameter array of a block of `count` frames that starts at frame `n`. -/
def Param.array {α : Type} (p : Param α) (n count : Nat) : List α := (List.range count).map fun k => p.inForce (n + k)

end Sys2Proof.Machine
end

