-- ==== Sys2Proof/Machine/NoiseSequence.lean ====
section
/-! DEFINITION. NoiseSequence, the 15-bit shift register: NS_INIT and NS_NEXT (`40_noise_sequence.md`). -/

namespace Sys2Proof.Machine

/-- Rule R110: the tap bit of a mode. -/
def tapBit : NoiseMode → Nat
  | .long => 1
  | .short => 6

/-- Rule R113: the feedback bit of a register with tap `t`. -/
def feedbackBit (t : Nat) (r : BitVec 15) : Bool := (r.getLsbD 0) ^^ (r.getLsbD t)

/-- Rules R113 and R119: the step map of the register with tap `t`. -/
def shiftRegister (t : Nat) (r : BitVec 15) : BitVec 15 :=
  (r >>> 1) ||| (BitVec.setWidth 15 (BitVec.ofBool (feedbackBit t r)) <<< 14)

/-- Rule R114: the degenerate-register guard. -/
def reseed (r : BitVec 15) : BitVec 15 := if r = 0#15 then 1#15 else r

/-- Rule R113: the register after one NS_NEXT in a mode. -/
def nextRegister (mode : NoiseMode) (r : BitVec 15) : BitVec 15 := shiftRegister (tapBit mode) (reseed r)

/-- Rules R113 and R115: the bit NS_NEXT returns, from the register after the shift. -/
def registerBit (r : BitVec 15) : Bool := !r.getLsbD 0

/-- Rule R112, NS_INIT: a new sequence for a mode. -/
def nsInit (mode : NoiseMode) (o : Noise) : Noise := { o with lfsr := 1#15, seqMode := mode }

/-- Rule R113, NS_NEXT: one step; the returned bit and the slot. -/
def nsNext (o : Noise) : Bool × Noise :=
  let r := nextRegister o.seqMode o.lfsr
  (registerBit r, { o with lfsr := r })

/-- The register after `k` calls of NS_NEXT in one mode (rules R117 and R118). -/
def registerAfter (mode : NoiseMode) : Nat → BitVec 15 → BitVec 15
  | 0, r => r
  | k + 1, r => registerAfter mode k (nextRegister mode r)

/-- How many of the first `k` calls of NS_NEXT from register `r` return `true` (rules R117 and R118). -/
def highCount (mode : NoiseMode) : Nat → BitVec 15 → Nat
  | 0, _ => 0
  | k + 1, r => (if registerBit (nextRegister mode r) then 1 else 0) + highCount mode k (nextRegister mode r)

end Sys2Proof.Machine
end

