-- ==== Sys2Proof/Machine/Oscillators.lean ====
section
/-! DEFINITION. The per-sample operations PULSE_SAMPLE, TRI_SAMPLE and NOISE_SAMPLE (`41_oscillators.md`). Each takes
the parameters of the machine, the frame and the slot, and answers the sample and the slot after it. -/

namespace Sys2Proof.Machine

/-- `f / SR` has no finite binary64 value, so that the phase step has no stated result (assumption log 6). -/
def phaseOverflows (c : Params) (f : Rat) : Bool :=
  match c.numerics with
  | .exact => false
  | .binary64 => decide (pow2 1024 ≤ round64 (f / c.sampleRate))

/-- Rules R130 to R132: `mod1(p + f / SR)`, the quotient and the sum rounded in that order. -/
def phaseStep (c : Params) (p f : Rat) : Rat :=
  if phaseOverflows c f then mod1 (c.numerics.round |Config.freePhase p f|)
  else mod1 (c.numerics.add p (c.numerics.div f c.sampleRate))

/-- Rule R133: the sample of a pulse at phase `p` with duty `d` and volume `v`. -/
def pulseLevel (k : Numerics) (p d v : Rat) : Rat := k.mul (if p < d then 1 else -1) v

/-- Rule R133, PULSE_SAMPLE. -/
def pulseSample (c : Params) (n : Nat) (o : Pulse) : Rat × Pulse :=
  (pulseLevel c.numerics o.phase (o.duty.inForce n) (o.volume.inForce n),
    { o with phase := phaseStep c o.phase (o.freq.inForce n) })

/-- Rule R136: the sample of a triangle at phase `p` with volume `v`. -/
def triangleLevel (k : Numerics) (p v : Rat) : Rat :=
  let base := if p ≤ 1 / 2 then p else k.sub 1 p
  k.mul (k.sub (k.mul base 4) 1) v

/-- Rule R136, TRI_SAMPLE. -/
def triangleSample (c : Params) (n : Nat) (o : Triangle) : Rat × Triangle :=
  (triangleLevel c.numerics o.phase c.triangleVolume, { o with phase := phaseStep c o.phase (o.freq.inForce n) })

/-- Rules R139 and R140: a noise slot whose mode in force differs from its sequence's mode gets a new sequence. -/
def noiseRebuild (n : Nat) (o : Noise) : Noise :=
  if o.mode.inForce n = o.seqMode then o else nsInit (o.mode.inForce n) o

/-- Rules R139 and R141: on a wrap from phase `o.phase` to `newPhase`, one NS_NEXT sets the level. -/
def noiseWrap (newPhase : Rat) (o : Noise) : Noise :=
  if newPhase < o.phase then { (nsNext o).2 with level := (nsNext o).1 } else o

/-- Rule R139, NOISE_SAMPLE. -/
def noiseSample (c : Params) (n : Nat) (o : Noise) : Rat × Noise :=
  let newPhase := phaseStep c o.phase (o.freq.inForce n)
  let o' := noiseWrap newPhase (noiseRebuild n o)
  (if o'.level then o.volume.inForce n else 0, { o' with phase := newPhase })

/-- Rule R206: a pulse slot's part of one frame: retire, then sample. -/
def pulseFrame (c : Params) (n : Nat) (o : Pulse) : Rat × Pulse :=
  pulseSample c n { o with freq := o.freq.retire n, duty := o.duty.retire n, volume := o.volume.retire n }

/-- Rule R206: a triangle slot's part of one frame. -/
def triangleFrame (c : Params) (n : Nat) (o : Triangle) : Rat × Triangle :=
  triangleSample c n { o with freq := o.freq.retire n }

/-- Rule R206: a noise slot's part of one frame. -/
def noiseFrame (c : Params) (n : Nat) (o : Noise) : Rat × Noise :=
  noiseSample c n { o with freq := o.freq.retire n, volume := o.volume.retire n, mode := o.mode.retire n }

/-- Rule R143: `count` samples of one slot from frame `n` on, in increasing order, and the slot after them. -/
def renderSlot {σ : Type} (sample : Nat → σ → Rat × σ) : Nat → Nat → σ → List Rat × σ
  | 0, _, o => ([], o)
  | count + 1, n, o =>
    ((sample n o).1 :: (renderSlot sample count (n + 1) (sample n o).2).1,
      (renderSlot sample count (n + 1) (sample n o).2).2)

end Sys2Proof.Machine
end

