-- ==== Sys2Proof/Machine/Ops.lean ====
section
/-! DEFINITION. The named operations over the block's state and its ports that the instructions share: slots and
their defaults, generations, routing and DISPATCH_COMMON, the response port, mixing and rendering.

TAKING AN EXCEPTION: there is no such operation. The block has no trap, interrupt, vector, mode or saved register, and
nothing returns from a trap (rules R230, R237, R239). Each error condition has the effect its own rule gives
(`Machine/Flags.lean` names the conditions). MEMORY: there is none (rule R60); the ports' queues are the only storage. -/

namespace Sys2Proof.Machine

/-! ### Slots (rules R27 to R29, R37 to R39) -/

/-- Rule R28: the kind of the slot with an index, where there is such a slot. -/
def slotKind (i : Nat) : Option Kind :=
  if i = 1 ∨ i = 2 then some .pulse else if i = 3 then some .triangle else if i = 4 then some .noise else none

/-- Rule R27: the status of a slot that holds `x`. -/
def statusOf {σ : Type} : Option σ → Status
  | none => .uninitialized
  | some _ => .ready

/-- Rule R27: the status of the slot with an index, where there is such a slot. -/
def Slots.status (sl : Slots) (i : Nat) : Option Status :=
  if i = 1 then some (statusOf sl.slot1)
  else if i = 2 then some (statusOf sl.slot2)
  else if i = 3 then some (statusOf sl.slot3)
  else if i = 4 then some (statusOf sl.slot4)
  else none

/-- Rule R37: a pulse slot as it is created. -/
def defaultPulse : Pulse := ⟨0, .constant 440, .constant (1 / 2), .constant 0⟩

/-- Rule R38: a triangle slot as it is created. -/
def defaultTriangle : Triangle := ⟨0, .constant 440⟩

/-- Rule R39: a noise slot as it is created. -/
def defaultNoise : Noise := ⟨0, .constant 440, .constant 1, .constant .long, 1#15, .long, false⟩

/-- Rule R190: a slot after a completion of the current generation. -/
def wireSlot {σ : Type} (fresh : σ) : LoadResult → Option σ
  | .loaded => some fresh
  | .failed => none

/-- Rules R188 and R190: the four slots after a completion of the current generation with a draw. -/
def wireSlots (ok : Draw) : Slots :=
  ⟨wireSlot defaultPulse ok.ok1, wireSlot defaultPulse ok.ok2, wireSlot defaultTriangle ok.ok3,
    wireSlot defaultNoise ok.ok4⟩

/-! ### Generations (rules R181, R189) -/

/-- Rule R25: a generation put into `PENDING`, which is kept strictly rising. -/
def insertGeneration (g : Nat) : List Nat → List Nat
  | [] => [g]
  | x :: xs => if g < x then g :: x :: xs else if g = x then x :: xs else x :: insertGeneration g xs

/-- Rule R189: a generation taken out of `PENDING`. -/
def eraseGeneration (g : Nat) (pending : List Nat) : List Nat := pending.filter fun x => decide (x ≠ g)

/-- Rule R181, ISSUE. -/
def State.issue (s : State) : State :=
  { s with gen := s.gen + 1, pending := insertGeneration (s.gen + 1) s.pending }

/-- Rule R184: every slot `Uninitialized`, its oscillator state discarded. -/
def State.emptySlots (s : State) : State := { s with slots := Slots.absent }

/-! ### The response port (rules R62, R191) -/

/-- Rule R17, `respond`: words appended to `RESPQ`. -/
def State.respond (s : State) (ws : List Word) : State := { s with respq := s.respq ++ ws }

/-- Rules R188, R191, R192: the RESULT and READY a completion of `g` with draw `ok` reports. -/
def State.reportOf (s : State) (g : Nat) (ok : Draw) : InitResult × BitVec 4 :=
  if g = s.gen then (ok.result, ok.mask) else (.stale, 0#4)

/-- Rule R188, COMPLETE: the initialiser's transition on a pending generation. -/
def State.complete (s : State) (g : Nat) (ok : Draw) : State :=
  let s' := { s with
    pending := eraseGeneration g s.pending
    slots := if g = s.gen then wireSlots ok else s.slots }
  s'.respond (responseWords (s.reportOf g ok).1 (s.reportOf g ok).2 g)

/-! ### Routing and DISPATCH_COMMON (rules R193 to R197) -/

/-- Rule R193: the pulse slot a SQUARE_NOTE to `ch` reaches, if it is `Ready`. -/
def Slots.pulseAt (sl : Slots) (ch : Nat) : Option Pulse :=
  if ch = 1 then sl.slot1 else if ch = 2 then sl.slot2 else none

/-- Rule R193: the triangle slot a TRIANGLE_NOTE to `ch` reaches, if it is `Ready`. -/
def Slots.triangleAt (sl : Slots) (ch : Nat) : Option Triangle := if ch = 3 then sl.slot3 else none

/-- Rule R193: the noise slot a NOISE_NOTE to `ch` reaches, if it is `Ready`. -/
def Slots.noiseAt (sl : Slots) (ch : Nat) : Option Noise := if ch = 4 then sl.slot4 else none

/-- Slot `ch`, 1 or 2, with a new pulse state. -/
def Slots.setPulse (sl : Slots) (ch : Nat) (o : Pulse) : Slots :=
  if ch = 1 then { sl with slot1 := some o } else if ch = 2 then { sl with slot2 := some o } else sl

/-- Slot 3 with a new triangle state. -/
def Slots.setTriangle (sl : Slots) (o : Triangle) : Slots := { sl with slot3 := some o }

/-- Slot 4 with a new noise state. -/
def Slots.setNoise (sl : Slots) (o : Noise) : Slots := { sl with slot4 := some o }

/-- Rule R194: a parameter of the slot a SQUARE_NOTE writes is full. -/
def Pulse.anyFull (capacity : Option Nat) (o : Pulse) : Bool :=
  o.freq.full capacity || o.duty.full capacity || o.volume.full capacity

/-- Rule R194: the three AUTO_SETs of a SQUARE_NOTE. -/
def Pulse.scheduleNote (o : Pulse) (v : Rat × Rat × Rat) (e seq : Nat) : Pulse :=
  { o with
    freq := o.freq.schedule v.1 e seq
    duty := o.duty.schedule v.2.1 e seq
    volume := o.volume.schedule v.2.2 e seq }

/-- Rule R196: the AUTO_SET of a TRIANGLE_NOTE. -/
def Triangle.scheduleNote (o : Triangle) (hz : Rat) (e seq : Nat) : Triangle :=
  { o with freq := o.freq.schedule hz e seq }

/-- Rule R197: a parameter of the slot a NOISE_NOTE writes is full. -/
def Noise.anyFull (capacity : Option Nat) (o : Noise) : Bool :=
  o.freq.full capacity || o.volume.full capacity || o.mode.full capacity

/-- Rule R197: the three AUTO_SETs of a NOISE_NOTE. -/
def Noise.scheduleNote (o : Noise) (v : Rat × Rat × NoiseMode) (e seq : Nat) : Noise :=
  { o with
    freq := o.freq.schedule v.1 e seq
    volume := o.volume.schedule v.2.1 e seq
    mode := o.mode.schedule v.2.2 e seq }

/-- Rule R26: a DISPATCH is applied: `SEQ` counts it, dropped or not. -/
def State.countDispatch (s : State) : State := { s with seq := s.seq + 1 }

/-- Rule R193, DISPATCH_COMMON, with the rest of the variant's rule: `operands` are the values in range (`none` is
E_RANGE), `target` the slot that routing reaches (`none` is E_ROUTE), `full` the capacity check (E_OVERFLOW), and
`write` puts the scheduled slot back. The checks come in the order of rule R238, before every write. -/
def dispatch {α σ : Type} (operands : Option α) (target : Option σ) (full : σ → Bool)
    (write : Slots → α → σ → Nat → Nat → Slots) (eff : Nat) (s : State) : Host.Outcome State Fault Refusal :=
  match operands with
  | none => .refused .operandRange
  | some v =>
    match target with
    | none => .next s.countDispatch
    | some o =>
      if full o then .refused .automationOverflow
      else .next { s.countDispatch with slots := write s.slots v o (effectiveFrame eff s.frame) s.seq }

/-! ### Mixing and rendering (rules R205 to R208) -/

/-- Rule R206: one slot's part of one frame: a slot that is not `Ready` contributes 0. -/
def slotFrame {σ : Type} (sample : σ → Rat × σ) : Option σ → Rat × Option σ
  | none => (0, none)
  | some o => ((sample o).1, some (sample o).2)

/-- Rule R206: the slots after frame `n`. -/
def slotsAfterFrame (c : Params) (n : Nat) (sl : Slots) : Slots :=
  ⟨(slotFrame (pulseFrame c n) sl.slot1).2, (slotFrame (pulseFrame c n) sl.slot2).2,
    (slotFrame (triangleFrame c n) sl.slot3).2, (slotFrame (noiseFrame c n) sl.slot4).2⟩

/-- Rule R206: the sum of the four slots at frame `n`, in slot order from 0. -/
def slotSum (c : Params) (n : Nat) (sl : Slots) : Rat :=
  c.numerics.add
    (c.numerics.add
      (c.numerics.add (c.numerics.add 0 (slotFrame (pulseFrame c n) sl.slot1).1)
        (slotFrame (pulseFrame c n) sl.slot2).1)
      (slotFrame (triangleFrame c n) sl.slot3).1)
    (slotFrame (noiseFrame c n) sl.slot4).1

/-- Rule R206: the sample of frame `n`: `MASTER` times the sum. -/
def mixSample (c : Params) (master : Rat) (n : Nat) (sl : Slots) : Rat :=
  outputSample (c.numerics.mul master (slotSum c n sl))

/-- Rule R205: the samples of `count` frames from frame `n` on. -/
def blockSamples (c : Params) (master : Rat) : Nat → Nat → Slots → List Rat
  | 0, _, _ => []
  | count + 1, n, sl => mixSample c master n sl :: blockSamples c master count (n + 1) (slotsAfterFrame c n sl)

/-- Rule R205: the slots after `count` frames from frame `n` on. -/
def slotsAfterBlock (c : Params) : Nat → Nat → Slots → Slots
  | 0, _, sl => sl
  | count + 1, n, sl => slotsAfterBlock c count (n + 1) (slotsAfterFrame c n sl)

/-- Rule R17, `emit`: a block returned on the render port. That it waits there behind the blocks not yet taken is DESIGN
CHOICE, assumption log 18. -/
def State.emit (s : State) (block : List Rat) : State := { s with rendered := s.rendered ++ [block] }

/-- Rules R205 and R207: render a whole block of `count` frames. -/
def State.renderBlock (s : State) (count : Nat) : State :=
  { s.emit (blockSamples s.cfg s.master count s.frame s.slots) with
    slots := slotsAfterBlock s.cfg count s.frame s.slots
    frame := s.frame + count }

end Sys2Proof.Machine
end

