-- ==== Sys2Proof/Machine/Lifecycle.lean ====
section
/-! DEFINITION. CREATE_CHANNELS, RESET and INIT_DONE (`43_mixer.md` rules R181 to R192). -/

namespace Sys2Proof.Machine

/-- Rule R182, CREATE_CHANNELS. -/
def execCreateChannels (s : State) : Host.Outcome State Fault Refusal := .next s.issue

/-- Rule R184, RESET. -/
def execReset (s : State) : Host.Outcome State Fault Refusal := .next s.emptySlots.issue

/-- Rules R188 and R191, INIT_DONE: the completion that sends this response. The response names its completion: the
generation, and in READY the draw (the draw of a stale completion is ignored, rule R192). A response that no completion
sends in this state is refused (assumption log 8). -/
def execInitDone (result : InitResult) (ready : BitVec 4) (g : Nat) (s : State) :
    Host.Outcome State Fault Refusal :=
  if g ∈ s.pending ∧ s.reportOf g (Draw.ofMask ready) = (result, ready) then .next (s.complete g (Draw.ofMask ready))
  else .refused .responseNotSent

end Sys2Proof.Machine
end

