-- ==== Sys2Proof/Machine/Master.lean ====
section
/-! DEFINITION. SET_MASTER_VOLUME (`43_mixer.md` rules R185 and R202). -/

namespace Sys2Proof.Machine

/-- Rule R185, SET_MASTER_VOLUME. -/
def execSetMasterVolume (v : Quad) (s : State) : Host.Outcome State Fault Refusal :=
  match unitOperand v with
  | none => .refused .operandRange
  | some x => .next { s with master := x }

end Sys2Proof.Machine
end

