-- ==== Sys2Proof/Machine/Notes.lean ====
section
/-! DEFINITION. The three DISPATCH variants (`43_mixer.md` rules R193 to R199). -/

namespace Sys2Proof.Machine

/-- Rule R194, DISPATCH SQUARE_NOTE. -/
def execSquareNote (ch eff : Nat) (hz duty volume : Quad) (s : State) : Host.Outcome State Fault Refusal :=
  dispatch (squareOperands hz duty volume) (s.slots.pulseAt ch) (Pulse.anyFull s.cfg.capacity)
    (fun sl v o e q => sl.setPulse ch (o.scheduleNote v e q)) eff s

/-- Rule R196, DISPATCH TRIANGLE_NOTE. -/
def execTriangleNote (ch eff : Nat) (hz : Quad) (s : State) : Host.Outcome State Fault Refusal :=
  dispatch (hzOperand hz) (s.slots.triangleAt ch) (fun o => o.freq.full s.cfg.capacity)
    (fun sl v o e q => sl.setTriangle (o.scheduleNote v e q)) eff s

/-- Rule R197, DISPATCH NOISE_NOTE. -/
def execNoiseNote (ch : Nat) (mode : NoiseMode) (eff : Nat) (hz volume : Quad) (s : State) :
    Host.Outcome State Fault Refusal :=
  dispatch (noiseOperands mode hz volume) (s.slots.noiseAt ch) (Noise.anyFull s.cfg.capacity)
    (fun sl v o e q => sl.setNoise (o.scheduleNote v e q)) eff s

end Sys2Proof.Machine
end

