-- ==== Sys2Proof/Machine/Render.lean ====
section
/-! DEFINITION. RENDER_BLOCK (`43_mixer.md` rules R205 to R208). -/

namespace Sys2Proof.Machine

/-- Rule R205, RENDER_BLOCK. -/
def execRenderBlock (frames : Nat) (s : State) : Host.Outcome State Fault Refusal := .next (s.renderBlock frames)

end Sys2Proof.Machine
end

