-- ==== Sys2Proof/Machine/Dispatch.lean ====
section
/-! DEFINITION. What each instruction does: one arm per constructor, each one call of its meaning. -/

namespace Sys2Proof.Machine

def exec (i : Instr) (s : State) : Host.Outcome State Fault Refusal :=
  match i with
  | .createChannels => Sys2Proof.Machine.execCreateChannels s
  | .reset => Sys2Proof.Machine.execReset s
  | .setMasterVolume v => Sys2Proof.Machine.execSetMasterVolume v s
  | .squareNote ch eff hz duty volume => Sys2Proof.Machine.execSquareNote ch eff hz duty volume s
  | .triangleNote ch eff hz => Sys2Proof.Machine.execTriangleNote ch eff hz s
  | .noiseNote ch mode eff hz volume => Sys2Proof.Machine.execNoiseNote ch mode eff hz volume s
  | .renderBlock frames => Sys2Proof.Machine.execRenderBlock frames s
  | .initDone result ready g => Sys2Proof.Machine.execInitDone result ready g s

end Sys2Proof.Machine
end

