-- ==== Sys2Proof/Machine/Transitions.lean ====
section
/-! DEFINITION. The transitions and port actions (rules R61 to R66, R180, R188, R205), each on a state whose move is
already taken off `moves`. A transition that is not enabled leaves the state as it is: the block does nothing and loses
no state (rules R245 and R246; DESIGN CHOICE, safe: assumption log 5). -/

namespace Sys2Proof.Machine

/-- Rule R180, APPLY: the head command of `CMDQ` is decoded, removed whole and performed. A RESERVED word is removed
alone (rule R94). While the command is incomplete, or there is none, the command port holds (rule R246). -/
def applyHead (s : State) : Host.Outcome State Fault Refusal :=
  match decodeCommand s.cmdq with
  | .ok (i, rest) => exec i { s with cmdq := rest }
  | .error (.reserved _) => .next { s with cmdq := s.cmdq.tail }
  | .error .noWord => .next s
  | .error (.incomplete _) => .next s

/-- The INIT_DONE that a completion of `g` with draw `ok` sends (rule R188). -/
def State.initDoneOf (s : State) (g : Nat) (ok : Draw) : Instr :=
  .initDone (s.reportOf g ok).1 (s.reportOf g ok).2 g

/-- Rules R187 and R188: the initialiser completes a generation, where that generation is pending. -/
def completeGeneration (g : Nat) (ok : Draw) (s : State) : Host.Outcome State Fault Refusal :=
  if g ∈ s.pending then exec (s.initDoneOf g ok) s else .next s

/-- Rule R205: the outstanding render request is served. A RESERVED word is discarded and answered with no block
(rules R95 and R231); that it then leaves the port is DESIGN CHOICE, assumption log 10. -/
def serveRequest (s : State) : Host.Outcome State Fault Refusal :=
  match s.request with
  | none => .next s
  | some w =>
    match decodeRender w with
    | .ok i => exec i { s with request := none }
    | .error _ => .next { s with request := none }

/-- Rule R61: the host writes a word. -/
def State.hostWrite (s : State) (w : Word) : State := { s with cmdq := s.cmdq ++ [w] }

/-- Rule R62: the host reads a word, which consumes it (rule R70). -/
def State.hostRead (s : State) : State := { s with respq := s.respq.tail }

/-- Rule R63: the sink sends a request word; it has at most one outstanding, and a second one is not taken (assumption log
5). A request is outstanding until its block is returned, taken or not (DESIGN CHOICE, assumption log 18). -/
def State.sinkRequest (s : State) (w : Word) : State :=
  match s.request with
  | none => { s with request := some w }
  | some _ => s

/-- Rule R63: the sink takes the oldest block that waits, whole (DESIGN CHOICE, assumption log 18). -/
def State.sinkTake (s : State) : State := { s with rendered := s.rendered.tail }

/-- One agent's action. -/
def performMove (m : Move) (s : State) : Host.Outcome State Fault Refusal :=
  match m with
  | .hostWrite w => .next (s.hostWrite w)
  | .apply => applyHead s
  | .complete g ok => completeGeneration g ok s
  | .sinkRequest w => .next (s.sinkRequest w)
  | .render => serveRequest s
  | .sinkTake => .next s.sinkTake
  | .hostRead => .next s.hostRead

/-- Where the words of an instruction are put so that the next step runs it (DESIGN CHOICE, assumption log 9): a command at the head of `CMDQ`, a render
word on the render port, and for a response the completion that sends it, with the generation it names. -/
def State.placeWords (s : State) (ws : List Word) : State :=
  let w := ws.headD 0#32
  match portOfHeader w with
  | .command =>
    let length := match decodeHeader w with
      | .ok h => h.length
      | .error _ => 1
    { s with cmdq := ws.take length ++ s.cmdq, moves := .apply :: s.moves }
  | .render => { s with request := some w, moves := .render :: s.moves }
  | .response =>
    match decodeResponse ws with
    | .ok (.initDone result ready g, _) =>
      { s with
        gen := if result = .stale then max s.gen (g + 1) else g
        pending := insertGeneration g s.pending
        moves := .complete g (Draw.ofMask ready) :: s.moves }
    | _ => s

end Sys2Proof.Machine
end

