-- ==== Sys2Proof/Machine/Step.lean ====
section
/-! DEFINITION. One step of the machine: the next action of the agents' list, or nothing where no agent acts. -/

namespace Sys2Proof.Machine

/-- Rules R18, R64, R65: the block acts only when an agent does; the list's order is the order of the transitions. -/
def step (s : State) : Host.Outcome State Fault Refusal :=
  match s.moves with
  | [] => .next s
  | m :: rest => performMove m { s with moves := rest }

/-- The instruction whose bits are `w` placed where the next step runs it (assumption log 9). -/
def State.withFetchWord (s : State) (nbits w : Nat) : State := s.placeWords (tableWords nbits w)

end Sys2Proof.Machine
end

