-- ==== Sys2Proof/Machine/Assembler.lean ====
section
/-! DEFINITION. The spec's textual syntax (rules R96 and R97): one command per line, its canonical forms, its
pseudo-forms, and the words each stands for. The lexical grammar is DESIGN CHOICE (assumption log 13). -/

namespace Sys2Proof.Machine

/-- Rule R96: a line of assembly. A DISPATCH form holds `none` where it is written without `@ <at>`. -/
inductive AsmLine where
  | createChannels
  | reset
  | master (v : Rat)
  | square (ch : Nat) (hz duty volume : Rat) (eff : Option Nat)
  | triangle (ch : Nat) (hz : Rat) (eff : Option Nat)
  | noise (ch : Nat) (hz volume : Rat) (mode : NoiseMode) (eff : Option Nat)
  | render (frames : Nat)
  | rawWord (w : Word)
deriving DecidableEq, Repr

/-- Rule R96: the binary64 pattern a number denotes. A decimal that is no binary64 number denotes the nearest one, ties
to even, and one that then exceeds the largest has none: rule R96 does not say which value such a decimal denotes (rule
R8 rounds arithmetic only), so this is DESIGN CHOICE, assumption log 13; that a zero
written with `-` denotes `+0` too is log 17's. -/
def numberOperand (x : Rat) : Option Quad := toF64 (round64 x)

/-- Rules R96 and R97 (a): the instruction a line stands for; an absent `AT` is 0. -/
def AsmLine.instruction : AsmLine → Option Instr
  | .createChannels => some .createChannels
  | .reset => some .reset
  | .master v => (numberOperand v).map .setMasterVolume
  | .square ch hz duty volume eff =>
    match numberOperand hz, numberOperand duty, numberOperand volume with
    | some h, some d, some v => some (.squareNote ch (eff.getD 0) h d v)
    | _, _, _ => none
  | .triangle ch hz eff => (numberOperand hz).map (.triangleNote ch (eff.getD 0))
  | .noise ch hz volume mode eff =>
    match numberOperand hz, numberOperand volume with
    | some h, some v => some (.noiseNote ch mode (eff.getD 0) h v)
    | _, _ => none
  | .render frames => some (.renderBlock frames)
  | .rawWord _ => none

/-- Rule R96: the words of a line; `none` where a field does not fit its bits or a number has no binary64 value. -/
def AsmLine.words (l : AsmLine) : Option (List Word) :=
  match l with
  | .rawWord w => some [w]
  | _ =>
    match l.instruction with
    | some i => if i.wellFormed then some (encode i) else none
    | none => none

/-- Rule R97 (b): the document's call spellings. -/
inductive AsmCall where
  | dispatchSquare (ch : Nat) (hz duty volume : Rat)
  | dispatchTriangle (ch : Nat) (hz : Rat)
  | dispatchNoise (ch : Nat) (hz volume : Rat) (mode : NoiseMode)
  | setMasterVolume (v : Rat)
  | resetCall
  | createChannelsCall
  | renderBlock (n : Nat)
deriving DecidableEq, Repr

/-- Rule R97 (b): the canonical form of a call spelling. -/
def AsmCall.expand : AsmCall → AsmLine
  | .dispatchSquare ch hz duty volume => .square ch hz duty volume (some 0)
  | .dispatchTriangle ch hz => .triangle ch hz (some 0)
  | .dispatchNoise ch hz volume mode => .noise ch hz volume mode (some 0)
  | .setMasterVolume v => .master v
  | .resetCall => .reset
  | .createChannelsCall => .createChannels
  | .renderBlock n => .render n

/-! ### From text to lines -/

/-- A character that separates tokens: a space, a tab, a comma, a colon, a parenthesis or a brace. -/
def isSeparator (c : Char) : Bool :=
  c = ' ' || c = '\t' || c = ',' || c = ':' || c = '(' || c = ')' || c.toNat = 123 || c.toNat = 125

/-- The tokens of a text, with the token being read; `@` is a token of its own, and `;` ends the text. -/
def tokenize : List Char → List Char → List (List Char)
  | [], [] => []
  | [], t => [t.reverse]
  | c :: cs, t =>
    let done := if t = [] then [] else [t.reverse]
    if c = ';' then done
    else if isSeparator c then done ++ tokenize cs []
    else if c = '@' then done ++ [c] :: tokenize cs []
    else tokenize cs (c :: t)

/-- The value of a digit below 16. -/
def digitValue (c : Char) : Option Nat :=
  let n := c.toNat
  if 48 ≤ n ∧ n ≤ 57 then some (n - 48)
  else if 97 ≤ n ∧ n ≤ 102 then some (n - 87)
  else if 65 ≤ n ∧ n ≤ 70 then some (n - 55)
  else none

/-- The value of a run of digits in a base, after `acc`. -/
def digitsValue (base : Nat) : Nat → List Char → Option Nat
  | acc, [] => some acc
  | acc, c :: cs =>
    match digitValue c with
    | some d => if d < base then digitsValue base (acc * base + d) cs else none
    | none => none

/-- A decimal integer. -/
def parseNat (t : List Char) : Option Nat := if t = [] then none else digitsValue 10 0 t

/-- Rule R96: a decimal number, with an optional fraction part and sign. -/
def parseNumber (t : List Char) : Option Rat :=
  let body := if t.head? = some '-' then t.tail else t
  let whole := body.takeWhile (· ≠ '.')
  let rest := body.drop (whole.length + 1)
  match parseNat whole, digitsValue 10 0 rest with
  | some w, some f =>
    let x : Rat := mkRat (w * 10 ^ rest.length + f : Nat) (10 ^ rest.length)
    some (if t.head? = some '-' then -x else x)
  | _, _ => none

/-- A hexadecimal word, with or without its `0x`. -/
def parseHex (t : List Char) : Option Word :=
  let body := if t.take 2 = ['0', 'x'] then t.drop 2 else t
  if body = [] ∨ 8 < body.length then none else (digitsValue 16 0 body).map (BitVec.ofNat 32)

/-- Rule R96: a noise mode. -/
def parseMode (t : String) : Option NoiseMode :=
  if t = "long" ∨ t = "Long" then some .long else if t = "short" ∨ t = "Short" then some .short else none

/-- Rule R96: the `@ <at>` that may end a DISPATCH form. -/
def parseAt : List (List Char) → Option (Option Nat)
  | [] => some none
  | [a, n] => if a = ['@'] then (parseNat n).map some else none
  | _ => none

/-- The line a call of `dispatch` stands for (rule R97 (b)), from the tokens after the channel. -/
def parseDispatch (ch : Nat) : List (List Char) → Option AsmLine
  | [v, h, hz] =>
    if String.ofList v = "TriangleNote" ∧ String.ofList h = "hz" then
      (parseNumber hz).map fun x => (AsmCall.dispatchTriangle ch x).expand
    else none
  | [v, h, hz, k2, x2, k3, x3] =>
    if String.ofList v = "SquareNote" ∧ String.ofList h = "hz" ∧ String.ofList k2 = "duty" ∧
        String.ofList k3 = "volume" then
      match parseNumber hz, parseNumber x2, parseNumber x3 with
      | some f, some d, some u => some (AsmCall.dispatchSquare ch f d u).expand
      | _, _, _ => none
    else if String.ofList v = "NoiseNote" ∧ String.ofList h = "hz" ∧ String.ofList k2 = "volume" ∧
        String.ofList k3 = "mode" then
      match parseNumber hz, parseNumber x2, parseMode (String.ofList x3) with
      | some f, some u, some m => some (AsmCall.dispatchNoise ch f u m).expand
      | _, _, _ => none
    else none
  | _ => none

/-- The line a list of tokens stands for, where it is one of the forms of rules R96 and R97. -/
def parseTokens : List (List Char) → Option AsmLine
  | [] => none
  | m :: args =>
    let name := String.ofList m
    if name = "create_channels" then (if args = [] then some .createChannels else none)
    else if name = "createChannels" then (if args = [] then some AsmCall.createChannelsCall.expand else none)
    else if name = "reset" then (if args = [] then some .reset else none)
    else if name = "master" ∨ name = "setMasterVolume" then
      (match args with
       | [v] => (parseNumber v).map .master
       | _ => none)
    else if name = "render" ∨ name = "renderBlock" then
      (match args with
       | [n] => (parseNat n).map .render
       | _ => none)
    else if name = ".word" then
      (match args with
       | [w] => (parseHex w).map .rawWord
       | _ => none)
    else if name = "square" then
      (match args with
       | ch :: hz :: d :: v :: rest =>
         match parseNat ch, parseNumber hz, parseNumber d, parseNumber v, parseAt rest with
         | some c, some f, some x, some u, some e => some (.square c f x u e)
         | _, _, _, _, _ => none
       | _ => none)
    else if name = "triangle" then
      (match args with
       | ch :: hz :: rest =>
         match parseNat ch, parseNumber hz, parseAt rest with
         | some c, some f, some e => some (.triangle c f e)
         | _, _, _ => none
       | _ => none)
    else if name = "noise" then
      (match args with
       | ch :: hz :: v :: m :: rest =>
         match parseNat ch, parseNumber hz, parseNumber v, parseMode (String.ofList m), parseAt rest with
         | some c, some f, some u, some k, some e => some (.noise c f u k e)
         | _, _, _, _, _ => none
       | _ => none)
    else if name = "dispatch" then
      (match args with
       | ch :: rest =>
         match parseNat ch with
         | some c => parseDispatch c rest
         | none => none
       | _ => none)
    else none

/-- Rules R96 and R97: the words one line of text stands for. -/
def assembleLine (text : List Char) : Option (List Word) :=
  match parseTokens (tokenize text []) with
  | some l => l.words
  | none => none

end Sys2Proof.Machine
end

