-- ==== Sys2Proof/Machine/Flags.lean ====
section
/-! DEFINITION. The block has no condition codes and no status flags (rule R35). What it has in their place are the
error conditions of rule R231, given here with the order in which one instruction meets them (rule R238). None of them
is state: each has the effect its own rule gives. -/

namespace Sys2Proof.Machine

/-- Rule R231: the error conditions. -/
inductive ErrorCondition where
  | eRoute
  | eInitFailed
  | eStale
  | eDegenerate
  | eReserved
  | eRange
  | eOverflow
deriving DecidableEq, Repr

/-- Rule R231: the RESULT that reports a condition to the host; `none` where nothing does. -/
def ErrorCondition.reportedAs : ErrorCondition → Option InitResult
  | .eRoute => none
  | .eInitFailed => some .failed
  | .eStale => some .stale
  | .eDegenerate => none
  | .eReserved => none
  | .eRange => none
  | .eOverflow => none

/-- Rules R231 and R236: the conditions that give a command no meaning. -/
def ErrorCondition.refusal : ErrorCondition → Option Refusal
  | .eRange => some .operandRange
  | .eOverflow => some .automationOverflow
  | .eRoute => none
  | .eInitFailed => none
  | .eStale => none
  | .eDegenerate => none
  | .eReserved => none

/-- Rule R238: the first condition a DISPATCH meets: E_RANGE, then E_ROUTE, then E_OVERFLOW. -/
def dispatchCondition {α σ : Type} (operands : Option α) (target : Option σ) (full : σ → Bool) :
    Option ErrorCondition :=
  match operands, target with
  | none, _ => some .eRange
  | some _, none => some .eRoute
  | some _, some o => if full o then some .eOverflow else none

/-- Rule R231: the condition a completion meets, by the RESULT it reports. -/
def completionCondition : InitResult → Option ErrorCondition
  | .ok => none
  | .failed => some .eInitFailed
  | .stale => some .eStale
  | .unsent => none

/-- Rules R231 and R238: the error condition an instruction meets in a state, the first if it meets several. -/
def conditionOf (i : Instr) (s : State) : Option ErrorCondition :=
  match i with
  | .createChannels => none
  | .reset => none
  | .setMasterVolume v => if (unitOperand v).isSome then none else some .eRange
  | .squareNote ch _ hz duty volume =>
      dispatchCondition (squareOperands hz duty volume) (s.slots.pulseAt ch) (Pulse.anyFull s.cfg.capacity)
  | .triangleNote ch _ hz =>
      dispatchCondition (hzOperand hz) (s.slots.triangleAt ch) (fun o => o.freq.full s.cfg.capacity)
  | .noiseNote ch mode _ hz volume =>
      dispatchCondition (noiseOperands mode hz volume) (s.slots.noiseAt ch) (Noise.anyFull s.cfg.capacity)
  | .renderBlock _ => none
  | .initDone result _ _ => completionCondition result

/-- Rule R231: E_DEGENERATE, met by NS_NEXT on the zero register, which no reachable state holds (rule R119). -/
def degenerateCondition (o : Noise) : Option ErrorCondition := if o.lfsr = 0#15 then some .eDegenerate else none

/-- Rule R231: E_RESERVED, met by a header word that the command port's decoder calls RESERVED. -/
def headerCondition (w : Word) : Option ErrorCondition :=
  match decodeHeader w with
  | .ok _ => none
  | .error _ => some .eReserved

end Sys2Proof.Machine
end

