-- ==== Sys2Proof/Safety.lean ====
section
/-! DEFINITION. What a good state is (rule R34 with what the parameters must be), what it is for every stored value to
be a `NUMERICS` value, and what a safe run is. -/

namespace Sys2Proof.Machine

/-- `x` is a value of the number domain (rules R8 and R15): every rational is one of `exact`, the finite binary64 numbers
of `binary64`. -/
abbrev isNumber (k : Numerics) (x : Rat) : Prop := k.round x = x ∧ (k = .binary64 → |x| < pow2 1024)

end Sys2Proof.Machine

namespace Sys2Proof

open Sys2Proof.Machine

/-- Rule R15: the non-integer parameters are `NUMERICS` values. -/
abbrev Params.Numeric (c : Params) : Prop := isNumber c.numerics c.sampleRate ∧ isNumber c.numerics c.triangleVolume

/-- What rules R7, R10, R11 and R15 require of the parameters: a positive sample rate, a capacity of 1 or more where
there is one, a triangle volume that is a volume (DEDUCED, assumption log 14), and both numbers in `NUMERICS`. -/
abbrev Params.wf (c : Params) : Prop :=
  0 < c.sampleRate ∧ (∀ k ∈ c.capacity, 1 ≤ k) ∧ 0 ≤ c.triangleVolume ∧ c.triangleVolume ≤ 1 ∧ c.Numeric

end Sys2Proof

namespace Sys2Proof.Machine

/-- Rule R34 (a): a phase is in [0, 1). -/
abbrev phaseOk (p : Rat) : Prop := 0 ≤ p ∧ p < 1

/-- Rule R34 (c): a volume or duty is in [0, 1]. -/
abbrev unitOk (x : Rat) : Prop := 0 ≤ x ∧ x ≤ 1

/-- Rule R34 (d): a frequency is above 0. -/
abbrev freqOk (f : Rat) : Prop := 0 < f

/-- An automated parameter in a good state: its values are good, every pending entry lies at `frame` or later (rule
R34 (f)) and arrived before number `seq`, arrivals stand in order (rule R163), and the list keeps within capacity
(rule R166). -/
def Param.Good {α : Type} (valueOk : α → Prop) (c : Params) (frame seq : Nat) (p : Param α) : Prop :=
  valueOk p.cur ∧ (∀ x ∈ p.pend, valueOk x.value ∧ frame ≤ x.e ∧ x.seq < seq) ∧
    p.pend.Pairwise (fun x y => x.seq < y.seq) ∧ ∀ k ∈ c.capacity, p.pend.length ≤ k

/-- A pulse slot in a good state. -/
def Pulse.Good (c : Params) (frame seq : Nat) (o : Pulse) : Prop :=
  phaseOk o.phase ∧ o.freq.Good freqOk c frame seq ∧ o.duty.Good unitOk c frame seq ∧
    o.volume.Good unitOk c frame seq

/-- A triangle slot in a good state. -/
def Triangle.Good (c : Params) (frame seq : Nat) (o : Triangle) : Prop :=
  phaseOk o.phase ∧ o.freq.Good freqOk c frame seq

/-- A noise slot in a good state: its register is never 0 (rule R34 (b)). -/
def Noise.Good (c : Params) (frame seq : Nat) (o : Noise) : Prop :=
  phaseOk o.phase ∧ o.lfsr ≠ 0#15 ∧ o.freq.Good freqOk c frame seq ∧ o.volume.Good unitOk c frame seq ∧
    o.mode.Good (fun _ => True) c frame seq

/-- The four slots in a good state. -/
def Slots.Good (c : Params) (frame seq : Nat) (sl : Slots) : Prop :=
  (∀ o ∈ sl.slot1, o.Good c frame seq) ∧ (∀ o ∈ sl.slot2, o.Good c frame seq) ∧
    (∀ o ∈ sl.slot3, o.Good c frame seq) ∧ (∀ o ∈ sl.slot4, o.Good c frame seq)

/-- Rule R34, with the requirements of rules R7, R10, R11, R15 on the parameters and the canonical form of `PENDING`. -/
def State.Inv (s : State) : Prop :=
  s.cfg.wf ∧ unitOk s.master ∧ (∀ g ∈ s.pending, g ≤ s.gen) ∧ s.pending.Pairwise (· < ·) ∧
    s.slots.Good s.cfg s.frame s.seq

/-- Every value of a numeric parameter is a `NUMERICS` value. -/
def Param.Numeric (k : Numerics) (p : Param Rat) : Prop := isNumber k p.cur ∧ ∀ x ∈ p.pend, isNumber k x.value

/-- Every number a slot holds is a `NUMERICS` value (rules R30 to R32). -/
def Slots.Numeric (k : Numerics) (sl : Slots) : Prop :=
  (∀ o ∈ sl.slot1, isNumber k o.phase ∧ o.freq.Numeric k ∧ o.duty.Numeric k ∧ o.volume.Numeric k) ∧
    (∀ o ∈ sl.slot2, isNumber k o.phase ∧ o.freq.Numeric k ∧ o.duty.Numeric k ∧ o.volume.Numeric k) ∧
    (∀ o ∈ sl.slot3, isNumber k o.phase ∧ o.freq.Numeric k) ∧
    (∀ o ∈ sl.slot4, isNumber k o.phase ∧ o.freq.Numeric k ∧ o.volume.Numeric k)

/-- Rules R8, R15 and R93: every non-integer value the block holds is a `NUMERICS` value: its parameters, `MASTER`, the
numbers of its slots and the samples on the render port. -/
def State.Numeric (s : State) : Prop :=
  s.cfg.Numeric ∧ isNumber s.cfg.numerics s.master ∧ s.slots.Numeric s.cfg.numerics ∧
    ∀ block ∈ s.rendered, ∀ x ∈ block, isNumber s.cfg.numerics x

/-- A safe outcome: a next state, and not a case to which the spec gives no meaning (rule R236). -/
def isNext {σ φ ρ : Type} : Host.Outcome σ φ ρ → Prop
  | .next _ => True
  | .fault _ => False
  | .refused _ => False

/-- A safe run of `k` steps: no step of it is refused, so that its claims are claims about the block (rule R236). -/
def SafeRun (k : Nat) (s : State) : Prop := isNext (Sys2Proof.core.run k s)

end Sys2Proof.Machine
end

