-- ==== Sys2Proof/Certificates/Slice0/Obligations.lean ====
section
/-! DEFINITION. The statements for the provers, from the numbered rules of the spec. -/

open Sys2Proof Sys2Proof.Machine

/-! ### Power-on and the invariants of rule R34 -/

/-- Rule R40, with rule R260: the state after power-on, and the slots' values when a completion of generation 1 makes them
`Ready`. The
value of `cfg` is the OPEN parameters' (assumption log 1), and that no agent has acted yet is the model's (log 2);
neither is claimed here. -/
def Obligations.ResetIsThePowerOnState : Prop :=
  State.reset.frame = 0 ∧ State.reset.master = 1 ∧ State.reset.gen = 1 ∧ State.reset.pending = [1] ∧
    State.reset.seq = 0 ∧ (∀ i ∈ [1, 2, 3, 4], State.reset.slots.status i = some .uninitialized) ∧
    State.reset.cmdq = [] ∧ State.reset.respq = [] ∧
    (State.reset.complete 1 Draw.allLoaded).slots =
      ⟨some ⟨0, ⟨440, []⟩, ⟨1 / 2, []⟩, ⟨0, []⟩⟩, some ⟨0, ⟨440, []⟩, ⟨1 / 2, []⟩, ⟨0, []⟩⟩, some ⟨0, ⟨440, []⟩⟩,
        some ⟨0, ⟨440, []⟩, ⟨1, []⟩, ⟨NoiseMode.long, []⟩, 1#15, NoiseMode.long, false⟩⟩

/-- Rule R34 with the requirements of rules R7, R10, R11 and R15: the state after power-on meets the invariant, and every
non-integer value of it is a `NUMERICS` value, the OPEN sample rate too. -/
def Obligations.PowerOnStateIsGood : Prop := State.reset.Inv ∧ State.reset.Numeric

/-- Rule R34: every step from a state that meets the invariant gives a state that meets it. The invariant also holds
the canonical form of `PENDING` and the arrival order of entries, which are the model's way to hold rules R25 and R33. -/
def Obligations.StepKeepsTheInvariant : Prop :=
  ∀ s t : State, s.Inv → step s = .next t → t.Inv

/-- Rules R8, R15, R30 to R33 and R93: in either instance of `NUMERICS`, every non-integer value the block holds, the
samples on the render port too, stays a value of the number domain: under `binary64` a finite binary64 number. The
invariant of rule R34 is a premise: outside it a phase may be negative. -/
def Obligations.StepKeepsNumericsValues : Prop :=
  ∀ s t : State, s.Inv → s.Numeric → step s = .next t → t.Numeric

/-! ### Encoding -/

/-- Rules R68 and R80 to R92: decoding the words of a well-formed instruction, whatever words follow, gives the
instruction back and leaves those words; and so does decoding the bytes that carry them, least significant first. -/
def Obligations.DecodeOfEncodeIsTheInstruction : Prop :=
  ∀ (i : Instr) (rest : List Word), i.wellFormed = true →
    decodePort i.port (encode i ++ rest) = .ok (i, rest) ∧
      decodeBytes i.port (bytesOfWords (encode i ++ rest)) = .ok (i, rest)

/-- Rules R80 to R92: an accepted list of words is exactly the encoding of what it decodes to, followed by the words
left over: no bit of a word is ignored. -/
def Obligations.EncodeOfDecodeIsTheWords : Prop :=
  ∀ (p : Port) (ws rest : List Word) (i : Instr), decodePort p ws = .ok (i, rest) → i.port = p ∧ encode i ++ rest = ws

/-- Rule R98: the worked encodings (a) to (f), from their text. -/
def Obligations.WorkedEncodings : Prop :=
  assembleLine "square 1, 440, 0.5, 1.0".toList =
      some [0x40400000#32, 0, 0, 0, 0x407B8000#32, 0, 0x3FE00000#32, 0, 0x3FF00000#32] ∧
    assembleLine "noise 4, 2000, 1.0, short @ 16".toList =
      some [0x4B000000#32, 0x00000010#32, 0, 0, 0x409F4000#32, 0, 0x3FF00000#32] ∧
    assembleLine "triangle 3, 440".toList = some [0x44C00000#32, 0, 0, 0, 0x407B8000#32] ∧
    assembleLine "master 0.5".toList = some [0x30000000#32, 0, 0x3FE00000#32] ∧
    assembleLine "render 4".toList = some [0x80000004#32] ∧
    decodeHeader 0x407B8000#32 = .error .rsvNotZero

/-- The opcode table and rules R90, R91: words written out from the table decode to the instructions they stand for. -/
def Obligations.SpecWordsDecode : Prop :=
  decodeCommand [0x10000000#32] = .ok (.createChannels, []) ∧
    decodeCommand [0x20000000#32] = .ok (.reset, []) ∧
    decodeCommand [0x30000000#32, 0, 0x3FE00000#32] = .ok (.setMasterVolume 0x3FE0000000000000#64, []) ∧
    decodeCommand [0x44C00000#32, 0x40#32, 0, 0, 0x408B8000#32] =
      .ok (.triangleNote 3 64 0x408B800000000000#64, []) ∧
    decodeCommand [0x4B000000#32, 0x14#32, 0, 0, 0x40AF4000#32, 0, 0x3FF00000#32] =
      .ok (.noiseNote 4 .short 20 0x40AF400000000000#64 0x3FF0000000000000#64, []) ∧
    decodeRender 0x8000FFFF#32 = .ok (.renderBlock 65535) ∧
    decodeResponse [0x940B0000#32, 1#32, 0] = .ok (.initDone .failed 11#4 1, [])

/-- Rule R90 and the opcode table's match and mask columns: a header word is accepted on the command port exactly when
it matches one of the table's six command rows. -/
def Obligations.CommandHeaderAcceptedIffTableRow : Prop :=
  ∀ w : Word, (∃ h, decodeHeader w = .ok h) ↔
    (w &&& 0xFFFFFFFF#32 = 0x10000000#32 ∨ w &&& 0xFFFFFFFF#32 = 0x20000000#32 ∨
      w &&& 0xFFFFFFFF#32 = 0x30000000#32 ∨ w &&& 0xFE3FFFFF#32 = 0x40000000#32 ∨
      w &&& 0xFE3FFFFF#32 = 0x44000000#32 ∨ w &&& 0xFC3FFFFF#32 = 0x48000000#32)

/-- Rules R14 and R86: `f64` is one to one on the finite patterns but for the two zeros, and `toF64` is its inverse. At
zero, which has two patterns, the statement says that `toF64` gives the pattern of `+0`: that case is the model's choice
(assumption log 17). -/
def Obligations.Binary64PatternRoundTrip : Prop :=
  ∀ (b : Quad) (x : Rat), f64 b = some x → b ≠ 0x8000000000000000#64 → toF64 x = some b

/-! ### A step runs the decoded instruction -/

/-- Rules R180, R94 and R246: APPLY removes the head command's words and performs it; it removes a RESERVED word alone;
it holds while the command is incomplete or absent. -/
def Obligations.StepAppliesTheHeadCommand : Prop :=
  ∀ (s : State) (ms : List Move), s.moves = .apply :: ms →
    (∀ i rest, decodeCommand s.cmdq = .ok (i, rest) → step s = exec i { s with moves := ms, cmdq := rest }) ∧
    (∀ w ws why, s.cmdq = w :: ws → decodeHeader w = .error why → step s = .next { s with moves := ms, cmdq := ws }) ∧
    (∀ n, decodeCommand s.cmdq = .error (.incomplete n) → step s = .next { s with moves := ms }) ∧
    (s.cmdq = [] → step s = .next { s with moves := ms })

/-- Rules R63, R90, R95: serving the render port's request runs the RENDER_BLOCK it holds; a RESERVED word is answered
with no block and changes no state of the block. That the word is then gone from the port is the model's reading
(assumption log 10). -/
def Obligations.StepServesTheRenderRequest : Prop :=
  ∀ (s : State) (ms : List Move) (w : Word), s.moves = .render :: ms → s.request = some w →
    (∀ i, decodeRender w = .ok i → step s = exec i { s with moves := ms, request := none }) ∧
    (∀ why, decodeRender w = .error why → step s = .next { s with moves := ms, request := none })

/-- Rules R64, R187, R188: a completion of a pending generation runs the INIT_DONE it sends: that INIT_DONE is executed as
the completion that sends it is the model's choice (assumption log 8). A generation that is not pending is not completed:
that its action then leaves the state as it is and is gone is the model's choice (assumption log 5). -/
def Obligations.StepCompletesAPendingGeneration : Prop :=
  ∀ (s : State) (ms : List Move) (g : Nat) (ok : Draw), s.moves = .complete g ok :: ms →
    (g ∈ s.pending → step s = exec (s.initDoneOf g ok) { s with moves := ms }) ∧
    (g ∉ s.pending → step s = .next { s with moves := ms })

/-- The model's `withFetchWord` (assumption log 9): the words of a well-formed instruction, placed where the next step
fetches, are run by it, in the state the placing leaves. -/
def Obligations.StepRunsPlacedWords : Prop :=
  ∀ (i : Instr) (s : State), i.wellFormed = true →
    (i.port = .command → step (s.placeWords (encode i)) = exec i s) ∧
    (i.port = .render → step (s.placeWords (encode i)) = exec i { s with request := none }) ∧
    (i.port = .response → ∃ g p, step (s.placeWords (encode i)) = exec i { s with gen := g, pending := p } ∧
      ∃ t, exec i { s with gen := g, pending := p } = .next t)

/-- Rules R61 to R63 and R70: the host's and the sink's actions put words on a port or take them off it, and change
nothing else. That the sink takes a waiting block whole, the oldest first, and may have sent its next request before, is
the model's choice (assumption log 18); that a second request is not taken, and that a read or take of an empty port does
nothing, is too (log 5). -/
def Obligations.PortActionsChangeOnlyTheirPort : Prop :=
  ∀ (s : State) (ms : List Move) (w : Word),
    (s.moves = .hostWrite w :: ms → step s = .next { s with moves := ms, cmdq := s.cmdq ++ [w] }) ∧
    (s.moves = .hostRead :: ms → step s = .next { s with moves := ms, respq := s.respq.tail }) ∧
    (s.moves = .sinkTake :: ms → step s = .next { s with moves := ms, rendered := s.rendered.tail }) ∧
    (s.moves = .sinkRequest w :: ms → step s = .next { s with moves := ms, request := some (s.request.getD w) })

/-! ### Lifecycle commands and completions -/

/-- Rules R181 and R182: CREATE_CHANNELS issues a generation and leaves everything else as it was. -/
def Obligations.CreateChannelsIssuesAGeneration : Prop :=
  ∀ s : State, ∃ p, exec .createChannels s = .next { s with gen := s.gen + 1, pending := p } ∧
    ∀ g, g ∈ p ↔ g ∈ s.pending ∨ g = s.gen + 1

/-- Rule R184: RESET makes every slot `Uninitialized` and issues a generation; `MASTER`, `FRAME`, `SEQ` and everything
else are unchanged. -/
def Obligations.ResetEmptiesSlotsAndIssues : Prop :=
  ∀ s : State, ∃ p, exec .reset s = .next { s with slots := ⟨none, none, none, none⟩, gen := s.gen + 1, pending := p } ∧
    ∀ g, g ∈ p ↔ g ∈ s.pending ∨ g = s.gen + 1

/-- Rules R188, R190, R191, R37 to R39: INIT_DONE for the current generation wires all four slots in one step, each a
fresh default instance or `Uninitialized`, takes the generation out of `PENDING`, and appends its three words to
`RESPQ`; nothing else changes. The effect is COMPLETE's; that executing INIT_DONE is that completion is the model's choice
(assumption log 8). Generations of 2^64 and more, whose words are a free value (assumption log 7), are left out. -/
def Obligations.CurrentCompletionWiresAllSlots : Prop :=
  ∀ (s : State) (result : InitResult) (ready : BitVec 4), s.gen ∈ s.pending → s.gen < 2 ^ 64 →
    (ready = 15#4 ∧ result = .ok ∨ ready ≠ 15#4 ∧ result = .failed) →
    ∃ t, exec (.initDone result ready s.gen) s = .next t ∧
      t = { s with
        pending := t.pending
        slots :=
          ⟨if ready.getLsbD 0 then some ⟨0, ⟨440, []⟩, ⟨1 / 2, []⟩, ⟨0, []⟩⟩ else none,
            if ready.getLsbD 1 then some ⟨0, ⟨440, []⟩, ⟨1 / 2, []⟩, ⟨0, []⟩⟩ else none,
            if ready.getLsbD 2 then some ⟨0, ⟨440, []⟩⟩ else none,
            if ready.getLsbD 3 then
              some ⟨0, ⟨440, []⟩, ⟨1, []⟩, ⟨NoiseMode.long, []⟩, 1#15, NoiseMode.long, false⟩
            else none⟩
        respq := s.respq ++ encode (.initDone result ready s.gen) } ∧
      ∀ g, g ∈ t.pending ↔ g ∈ s.pending ∧ g ≠ s.gen

/-- Rule R192: a completion of a generation that is not the current one sends STALE with no slot whatever its draw, and
that takes the generation out of `PENDING` and changes nothing else. The effect is rule R192's; that executing INIT_DONE
is the completion that sends it is the model's choice (assumption log 8). Generations of 2^64 and more, whose words are a
free value (assumption log 7), are left out. -/
def Obligations.StaleCompletionChangesNoSlot : Prop :=
  ∀ (s : State) (g : Nat), g ∈ s.pending → g < s.gen → g < 2 ^ 64 →
    (∀ ok, s.initDoneOf g ok = .initDone .stale 0#4 g) ∧
    ∃ t, exec (.initDone .stale 0#4 g) s = .next t ∧
      t = { s with pending := t.pending, respq := s.respq ++ encode (.initDone .stale 0#4 g) } ∧
      ∀ x, x ∈ t.pending ↔ x ∈ s.pending ∧ x ≠ g

/-- The model's refusal of a response no completion sends (assumption log 8), and only of that: INIT_DONE answers a
next state exactly when some completion of its generation sends it. -/
def Obligations.InitDoneRunsIffSomeCompletionSendsIt : Prop :=
  ∀ (s : State) (result : InitResult) (ready : BitVec 4) (g : Nat),
    ((∃ t, exec (.initDone result ready g) s = .next t) ↔
      g ∈ s.pending ∧ ∃ ok, s.initDoneOf g ok = .initDone result ready g) ∧
    ((∃ r, exec (.initDone result ready g) s = .refused r) → exec (.initDone result ready g) s = .refused .responseNotSent)

/-- Rule R201: after CREATE_CHANNELS or RESET, whatever completions follow in whatever order, once the generation it
issued has completed with every slot loaded, the four slots are the fresh ones of that generation. -/
def Obligations.FinalGenerationWins : Prop :=
  ∀ (s0 s : State) (cs : List (Nat × Draw)), exec .createChannels s0 = .next s ∨ exec .reset s0 = .next s →
    (∀ x ∈ cs, x.1 = s.gen → x.2 = Draw.allLoaded) → (∃ x ∈ cs, x.1 = s.gen) →
    ∃ t, Sys2Proof.core.run cs.length { s with moves := cs.map fun x => .complete x.1 x.2 } = .next t ∧
      t.gen = s.gen ∧ s.gen ∉ t.pending ∧
      t.slots =
        ⟨some ⟨0, ⟨440, []⟩, ⟨1 / 2, []⟩, ⟨0, []⟩⟩, some ⟨0, ⟨440, []⟩, ⟨1 / 2, []⟩, ⟨0, []⟩⟩, some ⟨0, ⟨440, []⟩⟩,
          some ⟨0, ⟨440, []⟩, ⟨1, []⟩, ⟨NoiseMode.long, []⟩, 1#15, NoiseMode.long, false⟩⟩

/-- Rule R62: only a completion writes `RESPQ`, and what it appends is one INIT_DONE of three words; only the host
takes words off it. -/
def Obligations.OnlyInitDoneIsSentToTheHost : Prop :=
  ∀ s t : State, step s = .next t →
    t.respq = s.respq ∨ (∃ ms, s.moves = .hostRead :: ms ∧ t.respq = s.respq.tail) ∨
      ∃ ms g ok w lo hi, s.moves = .complete g ok :: ms ∧ g ∈ s.pending ∧ t.respq = s.respq ++ [w, lo, hi] ∧
        decodeResponse [w, lo, hi] = .ok (.initDone (s.reportOf g ok).1 (s.reportOf g ok).2 (bits64 lo hi).toNat, [])

/-! ### Master volume and operand ranges -/

/-- Rule R185: SET_MASTER_VOLUME with an operand in [0, 1] writes `MASTER` and nothing else. -/
def Obligations.SetMasterVolumeWritesMaster : Prop :=
  ∀ (s : State) (v : Quad) (x : Rat), f64 v = some x → 0 ≤ x → x ≤ 1 →
    exec (.setMasterVolume v) s = .next { s with master := x }

/-- Rule R186: a numeric operand that is a NaN, infinite or outside its range refuses its command, before any other
effect and even where routing would drop it. -/
def Obligations.OperandOutOfRangeIsRefused : Prop :=
  ∀ (s : State) (ch eff : Nat) (mode : NoiseMode) (hz duty volume : Quad),
    ((¬∃ x, f64 volume = some x ∧ 0 ≤ x ∧ x ≤ 1) →
      exec (.setMasterVolume volume) s = .refused .operandRange ∧
        exec (.squareNote ch eff hz duty volume) s = .refused .operandRange ∧
        exec (.noiseNote ch mode eff hz volume) s = .refused .operandRange) ∧
    ((¬∃ x, f64 duty = some x ∧ 0 ≤ x ∧ x ≤ 1) → exec (.squareNote ch eff hz duty volume) s = .refused .operandRange) ∧
    ((¬∃ x, f64 hz = some x ∧ 0 < x) →
      exec (.squareNote ch eff hz duty volume) s = .refused .operandRange ∧
        exec (.triangleNote ch eff hz) s = .refused .operandRange ∧
        exec (.noiseNote ch mode eff hz volume) s = .refused .operandRange)

/-! ### Dispatch -/

/-- Rules R194 and R161: a SQUARE_NOTE in range, to a `Ready` pulse slot with room, schedules its three values at
frame `max(AT, FRAME)` with the arrival number `SEQ`, counts itself, and changes nothing else. -/
def Obligations.SquareNoteSchedulesItsValues : Prop :=
  ∀ (s : State) (eff : Nat) (hz duty volume : Quad) (f d v : Rat) (o : Pulse),
    f64 hz = some f → 0 < f → f64 duty = some d → 0 ≤ d → d ≤ 1 → f64 volume = some v → 0 ≤ v → v ≤ 1 →
    (∀ k, s.cfg.capacity = some k → o.freq.pend.length < k ∧ o.duty.pend.length < k ∧ o.volume.pend.length < k) →
    let o' : Pulse :=
      ⟨o.phase, ⟨o.freq.cur, o.freq.pend ++ [⟨f, max eff s.frame, s.seq⟩]⟩,
        ⟨o.duty.cur, o.duty.pend ++ [⟨d, max eff s.frame, s.seq⟩]⟩,
        ⟨o.volume.cur, o.volume.pend ++ [⟨v, max eff s.frame, s.seq⟩]⟩⟩
    (s.slots.slot1 = some o → exec (.squareNote 1 eff hz duty volume) s =
      .next { s with seq := s.seq + 1, slots := { s.slots with slot1 := some o' } }) ∧
    (s.slots.slot2 = some o → exec (.squareNote 2 eff hz duty volume) s =
      .next { s with seq := s.seq + 1, slots := { s.slots with slot2 := some o' } })

/-- Rules R196 and R161: a TRIANGLE_NOTE in range, to a `Ready` slot 3 with room, schedules its frequency, counts
itself, and changes nothing else. -/
def Obligations.TriangleNoteSchedulesItsFrequency : Prop :=
  ∀ (s : State) (eff : Nat) (hz : Quad) (f : Rat) (o : Triangle), f64 hz = some f → 0 < f →
    s.slots.slot3 = some o → (∀ k, s.cfg.capacity = some k → o.freq.pend.length < k) →
    exec (.triangleNote 3 eff hz) s =
      .next { s with
        seq := s.seq + 1
        slots := { s.slots with
          slot3 := some ⟨o.phase, ⟨o.freq.cur, o.freq.pend ++ [⟨f, max eff s.frame, s.seq⟩]⟩⟩ } }

/-- Rules R197, R195 and R161: a NOISE_NOTE in range, to a `Ready` slot 4 with room, schedules its three values, counts
itself, and changes nothing else: not the register, the sequence's mode, the level or the phase. -/
def Obligations.NoiseNoteSchedulesItsValues : Prop :=
  ∀ (s : State) (eff : Nat) (mode : NoiseMode) (hz volume : Quad) (f v : Rat) (o : Noise),
    f64 hz = some f → 0 < f → f64 volume = some v → 0 ≤ v → v ≤ 1 → s.slots.slot4 = some o →
    (∀ k, s.cfg.capacity = some k → o.freq.pend.length < k ∧ o.volume.pend.length < k ∧ o.mode.pend.length < k) →
    exec (.noiseNote 4 mode eff hz volume) s =
      .next { s with
        seq := s.seq + 1
        slots := { s.slots with
          slot4 := some { o with
            freq := ⟨o.freq.cur, o.freq.pend ++ [⟨f, max eff s.frame, s.seq⟩]⟩
            volume := ⟨o.volume.cur, o.volume.pend ++ [⟨v, max eff s.frame, s.seq⟩]⟩
            mode := ⟨o.mode.cur, o.mode.pend ++ [⟨mode, max eff s.frame, s.seq⟩]⟩ } } }

/-- Rules R193, R198, R199, R232: a DISPATCH in range whose channel has no slot, whose slot is `Uninitialized`, or
whose variant the slot's kind does not accept, changes nothing but `SEQ`. -/
def Obligations.DispatchOffRouteIsDropped : Prop :=
  ∀ (s : State) (ch eff : Nat) (mode : NoiseMode) (hz duty volume : Quad) (f d v : Rat),
    f64 hz = some f → 0 < f → f64 duty = some d → 0 ≤ d → d ≤ 1 → f64 volume = some v → 0 ≤ v → v ≤ 1 →
    (¬(s.slots.status ch = some .ready ∧ slotKind ch = some .pulse) →
      exec (.squareNote ch eff hz duty volume) s = .next { s with seq := s.seq + 1 }) ∧
    (¬(s.slots.status ch = some .ready ∧ slotKind ch = some .triangle) →
      exec (.triangleNote ch eff hz) s = .next { s with seq := s.seq + 1 }) ∧
    (¬(s.slots.status ch = some .ready ∧ slotKind ch = some .noise) →
      exec (.noiseNote ch mode eff hz volume) s = .next { s with seq := s.seq + 1 })

/-- Rules R231, R236, R238: a port command is refused exactly when the first condition it meets, E_RANGE before
E_ROUTE before E_OVERFLOW, is one that has no meaning, and by that condition's name; else it answers a next state. -/
def Obligations.RefusedIffFirstConditionHasNoMeaning : Prop :=
  ∀ (i : Instr) (s : State), i.port ≠ .response →
    (∀ r, exec i s = .refused r ↔ (conditionOf i s).bind ErrorCondition.refusal = some r) ∧
    ((conditionOf i s).bind ErrorCondition.refusal = none → ∃ t, exec i s = .next t)

/-- Rule R166: a DISPATCH in range and on its route is refused where one of its parameters' lists is full, with no
other outcome. -/
def Obligations.DispatchIntoAFullListIsRefused : Prop :=
  ∀ (s : State) (eff k : Nat) (mode : NoiseMode) (hz duty volume : Quad) (f d v : Rat),
    f64 hz = some f → 0 < f → f64 duty = some d → 0 ≤ d → d ≤ 1 → f64 volume = some v → 0 ≤ v → v ≤ 1 →
    s.cfg.capacity = some k →
    (∀ o, s.slots.slot1 = some o → (o.freq.pend.length = k ∨ o.duty.pend.length = k ∨ o.volume.pend.length = k) →
      exec (.squareNote 1 eff hz duty volume) s = .refused .automationOverflow) ∧
    (∀ o, s.slots.slot2 = some o → (o.freq.pend.length = k ∨ o.duty.pend.length = k ∨ o.volume.pend.length = k) →
      exec (.squareNote 2 eff hz duty volume) s = .refused .automationOverflow) ∧
    (∀ o, s.slots.slot3 = some o → o.freq.pend.length = k →
      exec (.triangleNote 3 eff hz) s = .refused .automationOverflow) ∧
    (∀ o, s.slots.slot4 = some o → (o.freq.pend.length = k ∨ o.volume.pend.length = k ∨ o.mode.pend.length = k) →
      exec (.noiseNote 4 mode eff hz volume) s = .refused .automationOverflow)

/-! ### Automation -/

/-- Rules R163 and R164: the value in force at frame `n` is `cur` where no entry has come into force, and else the value
of an entry that no other entry in force comes after in the order of `(e, seq)`. -/
def Obligations.ValueInForceIsTheLatestEntry : Prop :=
  ∀ (α : Type) (p : Param α) (n : Nat),
    ((∀ x ∈ p.pend, n < x.e) → p.inForce n = p.cur) ∧
    ((∃ x ∈ p.pend, x.e ≤ n) → ∃ x ∈ p.pend, x.e ≤ n ∧ p.inForce n = x.value ∧
      ∀ y ∈ p.pend, y.e ≤ n → y.e < x.e ∨ y.e = x.e ∧ y.seq ≤ x.seq)

/-- Rule R165: AUTO_RETIRE at frame `n` folds in what has come into force, keeps exactly the later entries, and changes
no value at any frame `m ≥ n`. -/
def Obligations.RetiringChangesNoLaterValue : Prop :=
  ∀ (α : Type) (p : Param α) (n m : Nat), n ≤ m →
    (p.retire n).cur = p.inForce n ∧ (∀ x, x ∈ (p.retire n).pend ↔ x ∈ p.pend ∧ n < x.e) ∧
      (p.retire n).inForce m = p.inForce m

/-- Rule R167 by its examples and rule R164 (assumption log 12): of two values scheduled one after the other on a
parameter with no other entry, the one with the later effective frame is in force from that frame, the other one from
its own frame until then, and the later arrival wins a tie. -/
def Obligations.LaterEntrySupersedes : Prop :=
  ∀ (cur a b : Rat) (ea eb sa sb n : Nat), sa < sb →
    let p := ((Param.constant cur).schedule a ea sa).schedule b eb sb
    (n < ea → n < eb → p.inForce n = cur) ∧
    (ea ≤ eb → (ea ≤ n → n < eb → p.inForce n = a) ∧ (eb ≤ n → p.inForce n = b)) ∧
    (eb < ea → (eb ≤ n → n < ea → p.inForce n = b) ∧ (ea ≤ n → p.inForce n = a))

/-- Rules R143 and R169, for all three oscillator kinds: sample `k` of `N` samples rendered from frame `n` on is the sample
of the phase after `k` frames, with every parameter as the slot's own timeline gives it at frame `n + k` before the
rendering; the frequency of that frame moves the phase; a noise slot's mode of that frame is the one it steps in, by rule
R139; and the rendering changes no value from its last frame on. -/
def Obligations.RenderingReadsTheTimeline : Prop :=
  ∀ (c : Params) (n N : Nat),
    (∀ o : Pulse,
      let x := fun k => renderSlot (pulseFrame c) k n o
      (x 0).2 = o ∧ (x N).1.length = N ∧
      (∀ k < N,
        (x N).1[k]? =
          some (pulseLevel c.numerics (x k).2.phase (o.duty.inForce (n + k)) (o.volume.inForce (n + k))) ∧
        (x (k + 1)).2.phase = phaseStep c (x k).2.phase (o.freq.inForce (n + k))) ∧
      ∀ m, n + N ≤ m + 1 → (x N).2.freq.inForce m = o.freq.inForce m ∧
        (x N).2.duty.inForce m = o.duty.inForce m ∧ (x N).2.volume.inForce m = o.volume.inForce m) ∧
    (∀ o : Triangle,
      let x := fun k => renderSlot (triangleFrame c) k n o
      (x 0).2 = o ∧ (x N).1.length = N ∧
      (∀ k < N,
        (x N).1[k]? = some (triangleLevel c.numerics (x k).2.phase c.triangleVolume) ∧
        (x (k + 1)).2.phase = phaseStep c (x k).2.phase (o.freq.inForce (n + k))) ∧
      ∀ m, n + N ≤ m + 1 → (x N).2.freq.inForce m = o.freq.inForce m) ∧
    ∀ o : Noise,
      let x := fun k => renderSlot (noiseFrame c) k n o
      (x 0).2 = o ∧ (x N).1.length = N ∧
      (∀ k < N,
        let z := (x k).2
        let t := (x (k + 1)).2
        let mode := o.mode.inForce (n + k)
        let r := if mode = z.seqMode then z.lfsr else 1#15
        (x N).1[k]? = some (if t.level then o.volume.inForce (n + k) else 0) ∧
        t.phase = phaseStep c z.phase (o.freq.inForce (n + k)) ∧ t.seqMode = mode ∧
        t.lfsr = (if t.phase < z.phase then nextRegister mode r else r) ∧
        t.level = if t.phase < z.phase then !t.lfsr.getLsbD 0 else z.level) ∧
      ∀ m, n + N ≤ m + 1 → (x N).2.freq.inForce m = o.freq.inForce m ∧
        (x N).2.volume.inForce m = o.volume.inForce m ∧ (x N).2.mode.inForce m = o.mode.inForce m

/-! ### The noise sequence -/

/-- Rule R119: for every tap 1 to 14 the step map is one to one and maps 0 to 0; so from the seed 1 the register is
never 0, in either mode. -/
def Obligations.ShiftRegisterIsABijection : Prop :=
  (∀ t, 1 ≤ t → t ≤ 14 → Function.Bijective (shiftRegister t) ∧ shiftRegister t 0#15 = 0#15) ∧
    ∀ mode k, registerAfter mode k 1#15 ≠ 0#15

/-- Rule R117: from 1 in Long mode the register has period exactly 32767 and visits every nonzero value, and NS_NEXT
returns `true` 16383 times in a period. -/
def Obligations.LongModePeriod : Prop :=
  registerAfter .long 32767 1#15 = 1#15 ∧ (∀ k, 0 < k → k < 32767 → registerAfter .long k 1#15 ≠ 1#15) ∧
    (∀ r : BitVec 15, r ≠ 0#15 → ∃ k < 32767, registerAfter .long k 1#15 = r) ∧ highCount .long 32767 1#15 = 16383

/-- Rule R118: from 1 in Short mode the register has period exactly 93, and so has the output bit sequence; NS_NEXT
returns `true` 77 times in a period. -/
def Obligations.ShortModePeriod : Prop :=
  registerAfter .short 93 1#15 = 1#15 ∧ (∀ k, 0 < k → k < 93 → registerAfter .short k 1#15 ≠ 1#15) ∧
    (∀ p, 0 < p → p < 93 → ∃ k, registerBit (registerAfter .short (k + 1 + p) 1#15) ≠
      registerBit (registerAfter .short (k + 1) 1#15)) ∧
    highCount .short 93 1#15 = 77

/-- Rules R112 and R113: NS_NEXT writes the register alone and returns the inverse of bit 0 after the shift; the new
bits 13 to 0 are the old bits 14 to 1, and the new bit 14 is bit 0 XOR the tap's bit; a zero register steps as 1 does
(rule R114). NS_INIT sets the register to 1. -/
def Obligations.NsNextShiftsAndFeedsBack : Prop :=
  ∀ (o : Noise) (mode : NoiseMode), nsInit mode o = { o with lfsr := 1#15, seqMode := mode } ∧
    (o.lfsr = 0#15 → nsNext o = nsNext { o with lfsr := 1#15 }) ∧
    (o.lfsr ≠ 0#15 →
      (nsNext o).2 = { o with lfsr := (nsNext o).2.lfsr } ∧
        (∀ j < 14, (nsNext o).2.lfsr.getLsbD j = o.lfsr.getLsbD (j + 1)) ∧
        (nsNext o).2.lfsr.getLsbD 14 =
          (o.lfsr.getLsbD 0 ^^ o.lfsr.getLsbD (match o.seqMode with | .long => 1 | .short => 6)) ∧
        (nsNext o).1 = !(nsNext o).2.lfsr.getLsbD 0)

/-! ### Oscillators -/

/-- Rule R131: the phase step gives a phase in [0, 1), a `NUMERICS` value in either instance, and under `exact` the
fraction part of `p + f / SR`. -/
def Obligations.PhaseStaysInRange : Prop :=
  ∀ (c : Params) (p f : Rat), 0 ≤ p → p < 1 → 0 < f → 0 < c.sampleRate →
    (0 ≤ phaseStep c p f ∧ phaseStep c p f < 1) ∧ isNumber c.numerics (phaseStep c p f) ∧
      (c.numerics = .exact → phaseStep c p f = p + f / c.sampleRate - (p + f / c.sampleRate).floor)

/-- Rule R133: the pulse sample is the volume with the sign that comparing phase and duty strictly gives, computed from
the phase before the step; the phase is all a sample writes. -/
def Obligations.PulseSampleComparesPhaseWithDuty : Prop :=
  ∀ (c : Params) (n : Nat) (o : Pulse), c.numerics.round (o.volume.inForce n) = o.volume.inForce n →
    pulseSample c n o =
      (if o.phase < o.duty.inForce n then o.volume.inForce n else -o.volume.inForce n,
        { o with phase := phaseStep c o.phase (o.freq.inForce n) })

/-- Rule R135: with `f / SR = 1 / M`, duty 1/2 and volume 1 from phase 0, under `exact`, the phase before sample `k` of
`M` is `k / M`, and the `M` samples hold `+1` exactly `ceil(M / 2)` times and `-1` the other times. -/
def Obligations.PulseDutyFraction : Prop :=
  ∀ (c : Params) (n M : Nat), c.numerics = .exact → 0 < c.sampleRate → 1 ≤ M →
    let o : Pulse := ⟨0, ⟨c.sampleRate / M, []⟩, ⟨1 / 2, []⟩, ⟨1, []⟩⟩
    let xs := (renderSlot (pulseFrame c) M n o).1
    (∀ k < M, (renderSlot (pulseFrame c) k n o).2.phase = k / M) ∧
      xs.length = M ∧ (∀ x ∈ xs, x = 1 ∨ x = -1) ∧ xs.count 1 = (M + 1) / 2

/-- Rules R136 and R137, under `exact`: the triangle's two pieces, its values at the four quarter phases, its range
exactly `[-v, v]`, and its continuity, at the peak and across the wrap, as a bound on how fast it changes. -/
def Obligations.TriangleShape : Prop :=
  ∀ (p q v : Rat), 0 ≤ p → p < 1 → 0 ≤ q → q < 1 → 0 ≤ v →
    (p ≤ 1 / 2 → triangleLevel .exact p v = (4 * p - 1) * v) ∧
    (1 / 2 < p → triangleLevel .exact p v = (3 - 4 * p) * v) ∧
    triangleLevel .exact 0 v = -v ∧ triangleLevel .exact (1 / 4) v = 0 ∧ triangleLevel .exact (1 / 2) v = v ∧
    triangleLevel .exact (3 / 4) v = 0 ∧
    (-v ≤ triangleLevel .exact p v ∧ triangleLevel .exact p v ≤ v) ∧
    |triangleLevel .exact p v - triangleLevel .exact q v| ≤ 4 * |p - q| * v ∧
    |triangleLevel .exact p v - triangleLevel .exact 0 v| ≤ 4 * (1 - p) * v

/-- Rule R136: TRI_SAMPLE writes the phase alone, and with `TRIANGLE_VOLUME = 0` its sample is 0 in either instance
while the phase still advances. -/
def Obligations.TriangleIsSilentOnThisHardware : Prop :=
  ∀ (c : Params) (n : Nat) (o : Triangle), c.triangleVolume = 0 →
    triangleSample c n o = (0, { o with phase := phaseStep c o.phase (o.freq.inForce n) })

/-- Rules R139 and R140: a mode in force that differs from the sequence's mode rebuilds the sequence first; a wrap then
steps it once, in the sample of the wrap; the sample is the volume or 0; nothing else of the slot changes. -/
def Obligations.NoiseSampleRebuildsThenSteps : Prop :=
  ∀ (c : Params) (n : Nat) (o : Noise),
    let q := phaseStep c o.phase (o.freq.inForce n)
    let r := if o.mode.inForce n = o.seqMode then o.lfsr else 1#15
    let t := (noiseSample c n o).2
    (t.phase = q ∧ t.seqMode = o.mode.inForce n ∧ t.freq = o.freq ∧ t.volume = o.volume ∧ t.mode = o.mode) ∧
    (¬q < o.phase → t.lfsr = r ∧ t.level = o.level) ∧
    (q < o.phase → t.lfsr = nextRegister (o.mode.inForce n) r ∧ t.level = !t.lfsr.getLsbD 0) ∧
    (noiseSample c n o).1 = if t.level then o.volume.inForce n else 0

/-- Rule R141, under `exact`: below `SR` every wrap is detected; at an integer `f / SR` the phase does not move, so no
wrap ever is; and at any frequency at most one step is taken in a sample. -/
def Obligations.NoiseWrapDetection : Prop :=
  ∀ (c : Params) (n : Nat) (o : Noise), c.numerics = .exact → 0 < c.sampleRate → 0 ≤ o.phase → o.phase < 1 →
    0 < o.freq.inForce n →
    let x := o.freq.inForce n / c.sampleRate
    let q := phaseStep c o.phase (o.freq.inForce n)
    (x < 1 → (q < o.phase ↔ 1 ≤ o.phase + x)) ∧
    (x = x.floor → q = o.phase) ∧
    (let r := if o.mode.inForce n = o.seqMode then o.lfsr else 1#15;
      (noiseSample c n o).2.lfsr = r ∨ (noiseSample c n o).2.lfsr = nextRegister (o.mode.inForce n) r)

/-- Rule R142: every noise sample is 0 or the volume in force, so it lies in [0, 1] where the volume does. -/
def Obligations.NoiseSampleIsUnipolar : Prop :=
  ∀ (c : Params) (n : Nat) (o : Noise),
    ((noiseSample c n o).1 = 0 ∨ (noiseSample c n o).1 = o.volume.inForce n) ∧
      (0 ≤ o.volume.inForce n → o.volume.inForce n ≤ 1 → 0 ≤ (noiseSample c n o).1 ∧ (noiseSample c n o).1 ≤ 1)

/-! ### Rendering -/

/-- Rules R205, R207, R208, R235: RENDER_BLOCK returns exactly `N` samples; sample `k` is the mix at frame `FRAME + k`
of the slots as `k` frames left them; `FRAME` grows by `N`; nothing else but the slots changes; and for `N = 0` the block
is empty and no state changes. That the block waits on the render port behind the blocks not yet taken is the model's
choice (assumption log 18). -/
def Obligations.RenderBlockReturnsEveryFrame : Prop :=
  ∀ (s : State) (N : Nat), ∃ block sl,
    exec (.renderBlock N) s =
      .next { s with frame := s.frame + N, slots := sl, rendered := s.rendered ++ [block] } ∧
    block.length = N ∧
    (∀ k < N, block[k]? =
      some (mixSample s.cfg s.master (s.frame + k) (slotsAfterBlock s.cfg k s.frame s.slots))) ∧
    sl = slotsAfterBlock s.cfg N s.frame s.slots ∧ (N = 0 → block = [] ∧ sl = s.slots)

/-- Rules R28, R29, R143, R206: rendering the mixer is rendering each `Ready` slot on its own: the slots share no state,
and sample `k` of the block is `MASTER` times the sum, in slot order, of the slots' own `k`-th samples. -/
def Obligations.RenderIsPerSlotRendering : Prop :=
  ∀ (c : Params) (master : Rat) (N n : Nat) (sl : Slots),
    let a := sl.slot1.map (renderSlot (pulseFrame c) N n)
    let b := sl.slot2.map (renderSlot (pulseFrame c) N n)
    let t := sl.slot3.map (renderSlot (triangleFrame c) N n)
    let z := sl.slot4.map (renderSlot (noiseFrame c) N n)
    slotsAfterBlock c N n sl = ⟨a.map (·.2), b.map (·.2), t.map (·.2), z.map (·.2)⟩ ∧
    ∀ k < N, (blockSamples c master N n sl)[k]? =
      some (c.numerics.mul master
        (c.numerics.add
          (c.numerics.add
            (c.numerics.add
              (c.numerics.add 0 ((a.map (·.1[k]?.getD 0)).getD 0))
              ((b.map (·.1[k]?.getD 0)).getD 0))
            ((t.map (·.1[k]?.getD 0)).getD 0))
          ((z.map (·.1[k]?.getD 0)).getD 0)))

/-- Rules R200, R205 (b), R207: with no slot `Ready` a block is `N` zeros, and `FRAME` still advances. That
the block waits behind the blocks not yet taken is the model's choice (assumption log 18). -/
def Obligations.AbsentSlotsRenderSilence : Prop :=
  ∀ (s : State) (N : Nat), (∀ i ∈ [1, 2, 3, 4], s.slots.status i = some .uninitialized) →
    exec (.renderBlock N) s =
      .next { s with frame := s.frame + N, rendered := s.rendered ++ [List.replicate N 0] }

/-- Rule R203: with `MASTER = 0` every rendered block is all zeros, in either instance, whatever the channels hold.
That the block waits behind the blocks not yet taken is the model's choice (assumption log 18). -/
def Obligations.ZeroMasterVolumeSilences : Prop :=
  ∀ (s : State) (N : Nat), s.master = 0 → ∃ t, exec (.renderBlock N) s = .next t ∧
    t.rendered = s.rendered ++ [List.replicate N 0]

/-- Rule R204, under `exact`: no sample's magnitude is above `MASTER` times the sum of the volumes in force. -/
def Obligations.SampleBoundedByVolumes : Prop :=
  ∀ (s : State) (n : Nat), s.Inv → s.cfg.numerics = .exact →
    |mixSample s.cfg s.master n s.slots| ≤
      s.master * (((s.slots.slot1.map fun o => o.volume.inForce n).getD 0) +
        ((s.slots.slot2.map fun o => o.volume.inForce n).getD 0) + s.cfg.triangleVolume +
        ((s.slots.slot4.map fun o => o.volume.inForce n).getD 0))

/-- Rule R204 on this hardware (`TRIANGLE_VOLUME = 0`), in either instance: every sample of a block rendered from a good
state has magnitude at most 3. That the block waits behind the blocks not yet taken is the model's choice
(assumption log 18). -/
def Obligations.BlockSamplesAtMostThree : Prop :=
  ∀ (s : State) (N : Nat), s.Inv → s.cfg.triangleVolume = 0 →
    ∃ t block, exec (.renderBlock N) s = .next t ∧ t.rendered = s.rendered ++ [block] ∧ ∀ x ∈ block, |x| ≤ 3

/-! ### Whole-machine rules -/

/-- Rules R230, R235, R236: the machine never faults, and the only step that does not answer a next state is one that
applies a command with a condition of no meaning; no render, completion or port action is refused. -/
def Obligations.OnlyACommandIsRefused : Prop :=
  ∀ s : State, (∀ f, step s ≠ .fault f) ∧
    ∀ r, step s = .refused r →
      ∃ ms i rest, s.moves = .apply :: ms ∧ decodeCommand s.cmdq = .ok (i, rest) ∧
        (conditionOf i s).bind ErrorCondition.refusal = some r

/-- Rule R22: `FRAME` is 0 at power-on; only a served RENDER_BLOCK writes it, and it adds its frame count. -/
def Obligations.OnlyRenderWritesFrame : Prop :=
  State.reset.frame = 0 ∧ ∀ s t : State, step s = .next t →
    t.frame = s.frame ∨ ∃ ms w N, s.moves = .render :: ms ∧ s.request = some w ∧
      decodeRender w = .ok (.renderBlock N) ∧ t.frame = s.frame + N

/-- Rule R23: only SET_MASTER_VOLUME writes `MASTER`. -/
def Obligations.OnlySetMasterVolumeWritesMaster : Prop :=
  ∀ s t : State, step s = .next t →
    t.master = s.master ∨ ∃ ms v rest, s.moves = .apply :: ms ∧
      decodeCommand s.cmdq = .ok (.setMasterVolume v, rest) ∧ f64 v = some t.master

/-- Rules R24 and R25: `GEN` changes only by an applied CREATE_CHANNELS or RESET, which adds 1 and makes the new
generation pending; a generation leaves `PENDING` by its own completion, whatever its draw, and in no other way; right
after power-on `PENDING` is {1}. -/
def Obligations.GenerationsChangeOnlyByIssueAndCompletion : Prop :=
  (∀ g, g ∈ State.reset.pending ↔ g = 1) ∧ ∀ s t : State, step s = .next t →
    (t.gen = s.gen ∧ (∀ g ∈ t.pending, g ∈ s.pending) ∨
      ∃ ms i rest, s.moves = .apply :: ms ∧ decodeCommand s.cmdq = .ok (i, rest) ∧ (i = .createChannels ∨ i = .reset) ∧
        t.gen = s.gen + 1 ∧ ∀ g, g ∈ t.pending ↔ g ∈ s.pending ∨ g = s.gen + 1) ∧
    (∀ g ∈ s.pending, g ∉ t.pending → ∃ ms ok, s.moves = .complete g ok :: ms) ∧
    ∀ ms g ok, s.moves = .complete g ok :: ms → g ∉ t.pending

/-- Rule R26: `SEQ` counts the DISPATCH commands applied, the dropped ones too, and nothing else. -/
def Obligations.SeqCountsDispatches : Prop :=
  ∀ s t : State, step s = .next t →
    ((∃ ms w ws h i rest, s.moves = .apply :: ms ∧ s.cmdq = w :: ws ∧ decodeHeader w = .ok h ∧
        decodeCommand s.cmdq = .ok (i, rest) ∧ opField w = 4#4) ∧ t.seq = s.seq + 1) ∨
    ((¬∃ ms w ws h i rest, s.moves = .apply :: ms ∧ s.cmdq = w :: ws ∧ decodeHeader w = .ok h ∧
        decodeCommand s.cmdq = .ok (i, rest) ∧ opField w = 4#4) ∧ t.seq = s.seq)

/-- Rule R27: only RESET and a completion of the current generation write a slot's status: RESET to `Uninitialized`, the
completion as its draw says. -/
def Obligations.OnlyResetAndCompletionWriteStatus : Prop :=
  ∀ (s t : State) (j : Nat), step s = .next t → t.slots.status j ≠ s.slots.status j →
    (∃ ms rest, s.moves = .apply :: ms ∧ decodeCommand s.cmdq = .ok (.reset, rest) ∧
      t.slots.status j = some .uninitialized) ∨
    ∃ ms ok, s.moves = .complete s.gen ok :: ms ∧ s.gen ∈ s.pending ∧ t.slots = wireSlots ok

/-- Rules R7, R8, R10, R11: the parameters are fixed for the block's lifetime, and without an action of an agent the
block does nothing (rule R18). -/
def Obligations.ParametersAreFixed : Prop :=
  ∀ s t : State, step s = .next t → t.cfg = s.cfg ∧ (s.moves = [] → t = s)

/-! ### Blocks as words -/

/-- Rule R93: a block of binary64 numbers is carried in two words a sample, in frame order, the low word first, and each
pair is a numeric operand of its sample's value. The sign bit of a zero sample is a free value of the model (assumption log
17), and the statement holds for every value of it. -/
def Obligations.BlockTravelsAsBinary64Words : Prop :=
  ∀ (n : Nat) (xs : List Rat), (∀ x ∈ xs, ∃ b, f64 b = some x) →
    ∃ ws, blockWords n xs = some ws ∧ ws.length = 2 * xs.length ∧
      ∀ k < xs.length, ∃ lo hi, ws[2 * k]? = some lo ∧ ws[2 * k + 1]? = some hi ∧ f64 (bits64 lo hi) = xs[k]?
end

