-- ==== Sys2Proof/Laws/State.lean ====
section
/-! SUPPORT. One lemma per field of State per shared update, true by rfl: what each operation leaves in each field. -/

namespace Sys2Proof.Machine

@[simp] theorem State.issue_frame (s : State) : s.issue.frame = s.frame := rfl
@[simp] theorem State.issue_master (s : State) : s.issue.master = s.master := rfl
@[simp] theorem State.issue_gen (s : State) : s.issue.gen = s.gen + 1 := rfl
@[simp] theorem State.issue_pending (s : State) : s.issue.pending = insertGeneration (s.gen + 1) s.pending := rfl
@[simp] theorem State.issue_seq (s : State) : s.issue.seq = s.seq := rfl
@[simp] theorem State.issue_slots (s : State) : s.issue.slots = s.slots := rfl
@[simp] theorem State.issue_cmdq (s : State) : s.issue.cmdq = s.cmdq := rfl
@[simp] theorem State.issue_respq (s : State) : s.issue.respq = s.respq := rfl
@[simp] theorem State.issue_request (s : State) : s.issue.request = s.request := rfl
@[simp] theorem State.issue_rendered (s : State) : s.issue.rendered = s.rendered := rfl
@[simp] theorem State.issue_moves (s : State) : s.issue.moves = s.moves := rfl
@[simp] theorem State.issue_cfg (s : State) : s.issue.cfg = s.cfg := rfl

@[simp] theorem State.emptySlots_frame (s : State) : s.emptySlots.frame = s.frame := rfl
@[simp] theorem State.emptySlots_master (s : State) : s.emptySlots.master = s.master := rfl
@[simp] theorem State.emptySlots_gen (s : State) : s.emptySlots.gen = s.gen := rfl
@[simp] theorem State.emptySlots_pending (s : State) : s.emptySlots.pending = s.pending := rfl
@[simp] theorem State.emptySlots_seq (s : State) : s.emptySlots.seq = s.seq := rfl
@[simp] theorem State.emptySlots_slots (s : State) : s.emptySlots.slots = Slots.absent := rfl
@[simp] theorem State.emptySlots_cmdq (s : State) : s.emptySlots.cmdq = s.cmdq := rfl
@[simp] theorem State.emptySlots_respq (s : State) : s.emptySlots.respq = s.respq := rfl
@[simp] theorem State.emptySlots_request (s : State) : s.emptySlots.request = s.request := rfl
@[simp] theorem State.emptySlots_rendered (s : State) : s.emptySlots.rendered = s.rendered := rfl
@[simp] theorem State.emptySlots_moves (s : State) : s.emptySlots.moves = s.moves := rfl
@[simp] theorem State.emptySlots_cfg (s : State) : s.emptySlots.cfg = s.cfg := rfl

@[simp] theorem State.respond_frame (s : State) (ws : List Word) : (s.respond ws).frame = s.frame := rfl
@[simp] theorem State.respond_master (s : State) (ws : List Word) : (s.respond ws).master = s.master := rfl
@[simp] theorem State.respond_gen (s : State) (ws : List Word) : (s.respond ws).gen = s.gen := rfl
@[simp] theorem State.respond_pending (s : State) (ws : List Word) : (s.respond ws).pending = s.pending := rfl
@[simp] theorem State.respond_seq (s : State) (ws : List Word) : (s.respond ws).seq = s.seq := rfl
@[simp] theorem State.respond_slots (s : State) (ws : List Word) : (s.respond ws).slots = s.slots := rfl
@[simp] theorem State.respond_cmdq (s : State) (ws : List Word) : (s.respond ws).cmdq = s.cmdq := rfl
@[simp] theorem State.respond_respq (s : State) (ws : List Word) : (s.respond ws).respq = s.respq ++ ws := rfl
@[simp] theorem State.respond_request (s : State) (ws : List Word) : (s.respond ws).request = s.request := rfl
@[simp] theorem State.respond_rendered (s : State) (ws : List Word) : (s.respond ws).rendered = s.rendered := rfl
@[simp] theorem State.respond_moves (s : State) (ws : List Word) : (s.respond ws).moves = s.moves := rfl
@[simp] theorem State.respond_cfg (s : State) (ws : List Word) : (s.respond ws).cfg = s.cfg := rfl

@[simp] theorem State.countDispatch_frame (s : State) : s.countDispatch.frame = s.frame := rfl
@[simp] theorem State.countDispatch_master (s : State) : s.countDispatch.master = s.master := rfl
@[simp] theorem State.countDispatch_gen (s : State) : s.countDispatch.gen = s.gen := rfl
@[simp] theorem State.countDispatch_pending (s : State) : s.countDispatch.pending = s.pending := rfl
@[simp] theorem State.countDispatch_seq (s : State) : s.countDispatch.seq = s.seq + 1 := rfl
@[simp] theorem State.countDispatch_slots (s : State) : s.countDispatch.slots = s.slots := rfl
@[simp] theorem State.countDispatch_cmdq (s : State) : s.countDispatch.cmdq = s.cmdq := rfl
@[simp] theorem State.countDispatch_respq (s : State) : s.countDispatch.respq = s.respq := rfl
@[simp] theorem State.countDispatch_request (s : State) : s.countDispatch.request = s.request := rfl
@[simp] theorem State.countDispatch_rendered (s : State) : s.countDispatch.rendered = s.rendered := rfl
@[simp] theorem State.countDispatch_moves (s : State) : s.countDispatch.moves = s.moves := rfl
@[simp] theorem State.countDispatch_cfg (s : State) : s.countDispatch.cfg = s.cfg := rfl

@[simp] theorem State.complete_frame (s : State) (g : Nat) (ok : Draw) : (s.complete g ok).frame = s.frame := rfl
@[simp] theorem State.complete_master (s : State) (g : Nat) (ok : Draw) : (s.complete g ok).master = s.master := rfl
@[simp] theorem State.complete_gen (s : State) (g : Nat) (ok : Draw) : (s.complete g ok).gen = s.gen := rfl
@[simp] theorem State.complete_pending (s : State) (g : Nat) (ok : Draw) :
    (s.complete g ok).pending = eraseGeneration g s.pending := rfl
@[simp] theorem State.complete_seq (s : State) (g : Nat) (ok : Draw) : (s.complete g ok).seq = s.seq := rfl
@[simp] theorem State.complete_slots (s : State) (g : Nat) (ok : Draw) :
    (s.complete g ok).slots = if g = s.gen then wireSlots ok else s.slots := rfl
@[simp] theorem State.complete_cmdq (s : State) (g : Nat) (ok : Draw) : (s.complete g ok).cmdq = s.cmdq := rfl
@[simp] theorem State.complete_respq (s : State) (g : Nat) (ok : Draw) :
    (s.complete g ok).respq = s.respq ++ responseWords (s.reportOf g ok).1 (s.reportOf g ok).2 g := rfl
@[simp] theorem State.complete_request (s : State) (g : Nat) (ok : Draw) :
    (s.complete g ok).request = s.request := rfl
@[simp] theorem State.complete_rendered (s : State) (g : Nat) (ok : Draw) :
    (s.complete g ok).rendered = s.rendered := rfl
@[simp] theorem State.complete_moves (s : State) (g : Nat) (ok : Draw) : (s.complete g ok).moves = s.moves := rfl
@[simp] theorem State.complete_cfg (s : State) (g : Nat) (ok : Draw) : (s.complete g ok).cfg = s.cfg := rfl

@[simp] theorem State.emit_frame (s : State) (block : List Rat) : (s.emit block).frame = s.frame := rfl
@[simp] theorem State.emit_master (s : State) (block : List Rat) : (s.emit block).master = s.master := rfl
@[simp] theorem State.emit_gen (s : State) (block : List Rat) : (s.emit block).gen = s.gen := rfl
@[simp] theorem State.emit_pending (s : State) (block : List Rat) : (s.emit block).pending = s.pending := rfl
@[simp] theorem State.emit_seq (s : State) (block : List Rat) : (s.emit block).seq = s.seq := rfl
@[simp] theorem State.emit_slots (s : State) (block : List Rat) : (s.emit block).slots = s.slots := rfl
@[simp] theorem State.emit_cmdq (s : State) (block : List Rat) : (s.emit block).cmdq = s.cmdq := rfl
@[simp] theorem State.emit_respq (s : State) (block : List Rat) : (s.emit block).respq = s.respq := rfl
@[simp] theorem State.emit_request (s : State) (block : List Rat) : (s.emit block).request = s.request := rfl
@[simp] theorem State.emit_rendered (s : State) (block : List Rat) :
    (s.emit block).rendered = s.rendered ++ [block] := rfl
@[simp] theorem State.emit_moves (s : State) (block : List Rat) : (s.emit block).moves = s.moves := rfl
@[simp] theorem State.emit_cfg (s : State) (block : List Rat) : (s.emit block).cfg = s.cfg := rfl

@[simp] theorem State.renderBlock_frame (s : State) (count : Nat) :
    (s.renderBlock count).frame = s.frame + count := rfl
@[simp] theorem State.renderBlock_master (s : State) (count : Nat) : (s.renderBlock count).master = s.master := rfl
@[simp] theorem State.renderBlock_gen (s : State) (count : Nat) : (s.renderBlock count).gen = s.gen := rfl
@[simp] theorem State.renderBlock_pending (s : State) (count : Nat) :
    (s.renderBlock count).pending = s.pending := rfl
@[simp] theorem State.renderBlock_seq (s : State) (count : Nat) : (s.renderBlock count).seq = s.seq := rfl
@[simp] theorem State.renderBlock_slots (s : State) (count : Nat) :
    (s.renderBlock count).slots = slotsAfterBlock s.cfg count s.frame s.slots := rfl
@[simp] theorem State.renderBlock_cmdq (s : State) (count : Nat) : (s.renderBlock count).cmdq = s.cmdq := rfl
@[simp] theorem State.renderBlock_respq (s : State) (count : Nat) : (s.renderBlock count).respq = s.respq := rfl
@[simp] theorem State.renderBlock_request (s : State) (count : Nat) :
    (s.renderBlock count).request = s.request := rfl
@[simp] theorem State.renderBlock_rendered (s : State) (count : Nat) :
    (s.renderBlock count).rendered = s.rendered ++ [blockSamples s.cfg s.master count s.frame s.slots] := rfl
@[simp] theorem State.renderBlock_moves (s : State) (count : Nat) : (s.renderBlock count).moves = s.moves := rfl
@[simp] theorem State.renderBlock_cfg (s : State) (count : Nat) : (s.renderBlock count).cfg = s.cfg := rfl

@[simp] theorem State.hostWrite_frame (s : State) (w : Word) : (s.hostWrite w).frame = s.frame := rfl
@[simp] theorem State.hostWrite_master (s : State) (w : Word) : (s.hostWrite w).master = s.master := rfl
@[simp] theorem State.hostWrite_gen (s : State) (w : Word) : (s.hostWrite w).gen = s.gen := rfl
@[simp] theorem State.hostWrite_pending (s : State) (w : Word) : (s.hostWrite w).pending = s.pending := rfl
@[simp] theorem State.hostWrite_seq (s : State) (w : Word) : (s.hostWrite w).seq = s.seq := rfl
@[simp] theorem State.hostWrite_slots (s : State) (w : Word) : (s.hostWrite w).slots = s.slots := rfl
@[simp] theorem State.hostWrite_cmdq (s : State) (w : Word) : (s.hostWrite w).cmdq = s.cmdq ++ [w] := rfl
@[simp] theorem State.hostWrite_respq (s : State) (w : Word) : (s.hostWrite w).respq = s.respq := rfl
@[simp] theorem State.hostWrite_request (s : State) (w : Word) : (s.hostWrite w).request = s.request := rfl
@[simp] theorem State.hostWrite_rendered (s : State) (w : Word) : (s.hostWrite w).rendered = s.rendered := rfl
@[simp] theorem State.hostWrite_moves (s : State) (w : Word) : (s.hostWrite w).moves = s.moves := rfl
@[simp] theorem State.hostWrite_cfg (s : State) (w : Word) : (s.hostWrite w).cfg = s.cfg := rfl

@[simp] theorem State.hostRead_frame (s : State) : s.hostRead.frame = s.frame := rfl
@[simp] theorem State.hostRead_master (s : State) : s.hostRead.master = s.master := rfl
@[simp] theorem State.hostRead_gen (s : State) : s.hostRead.gen = s.gen := rfl
@[simp] theorem State.hostRead_pending (s : State) : s.hostRead.pending = s.pending := rfl
@[simp] theorem State.hostRead_seq (s : State) : s.hostRead.seq = s.seq := rfl
@[simp] theorem State.hostRead_slots (s : State) : s.hostRead.slots = s.slots := rfl
@[simp] theorem State.hostRead_cmdq (s : State) : s.hostRead.cmdq = s.cmdq := rfl
@[simp] theorem State.hostRead_respq (s : State) : s.hostRead.respq = s.respq.tail := rfl
@[simp] theorem State.hostRead_request (s : State) : s.hostRead.request = s.request := rfl
@[simp] theorem State.hostRead_rendered (s : State) : s.hostRead.rendered = s.rendered := rfl
@[simp] theorem State.hostRead_moves (s : State) : s.hostRead.moves = s.moves := rfl
@[simp] theorem State.hostRead_cfg (s : State) : s.hostRead.cfg = s.cfg := rfl

@[simp] theorem State.sinkTake_frame (s : State) : s.sinkTake.frame = s.frame := rfl
@[simp] theorem State.sinkTake_master (s : State) : s.sinkTake.master = s.master := rfl
@[simp] theorem State.sinkTake_gen (s : State) : s.sinkTake.gen = s.gen := rfl
@[simp] theorem State.sinkTake_pending (s : State) : s.sinkTake.pending = s.pending := rfl
@[simp] theorem State.sinkTake_seq (s : State) : s.sinkTake.seq = s.seq := rfl
@[simp] theorem State.sinkTake_slots (s : State) : s.sinkTake.slots = s.slots := rfl
@[simp] theorem State.sinkTake_cmdq (s : State) : s.sinkTake.cmdq = s.cmdq := rfl
@[simp] theorem State.sinkTake_respq (s : State) : s.sinkTake.respq = s.respq := rfl
@[simp] theorem State.sinkTake_request (s : State) : s.sinkTake.request = s.request := rfl
@[simp] theorem State.sinkTake_rendered (s : State) : s.sinkTake.rendered = s.rendered.tail := rfl
@[simp] theorem State.sinkTake_moves (s : State) : s.sinkTake.moves = s.moves := rfl
@[simp] theorem State.sinkTake_cfg (s : State) : s.sinkTake.cfg = s.cfg := rfl

@[simp] theorem State.sinkRequest_frame (s : State) (w : Word) : (s.sinkRequest w).frame = s.frame := by
  unfold State.sinkRequest; split <;> rfl
@[simp] theorem State.sinkRequest_master (s : State) (w : Word) : (s.sinkRequest w).master = s.master := by
  unfold State.sinkRequest; split <;> rfl
@[simp] theorem State.sinkRequest_gen (s : State) (w : Word) : (s.sinkRequest w).gen = s.gen := by
  unfold State.sinkRequest; split <;> rfl
@[simp] theorem State.sinkRequest_pending (s : State) (w : Word) : (s.sinkRequest w).pending = s.pending := by
  unfold State.sinkRequest; split <;> rfl
@[simp] theorem State.sinkRequest_seq (s : State) (w : Word) : (s.sinkRequest w).seq = s.seq := by
  unfold State.sinkRequest; split <;> rfl
@[simp] theorem State.sinkRequest_slots (s : State) (w : Word) : (s.sinkRequest w).slots = s.slots := by
  unfold State.sinkRequest; split <;> rfl
@[simp] theorem State.sinkRequest_cmdq (s : State) (w : Word) : (s.sinkRequest w).cmdq = s.cmdq := by
  unfold State.sinkRequest; split <;> rfl
@[simp] theorem State.sinkRequest_respq (s : State) (w : Word) : (s.sinkRequest w).respq = s.respq := by
  unfold State.sinkRequest; split <;> rfl
@[simp] theorem State.sinkRequest_request (s : State) (w : Word) : (s.sinkRequest w).request = some (s.request.getD w) := by
  unfold State.sinkRequest; split <;> simp_all
@[simp] theorem State.sinkRequest_rendered (s : State) (w : Word) : (s.sinkRequest w).rendered = s.rendered := by
  unfold State.sinkRequest; split <;> rfl
@[simp] theorem State.sinkRequest_moves (s : State) (w : Word) : (s.sinkRequest w).moves = s.moves := by
  unfold State.sinkRequest; split <;> rfl
@[simp] theorem State.sinkRequest_cfg (s : State) (w : Word) : (s.sinkRequest w).cfg = s.cfg := by
  unfold State.sinkRequest; split <;> rfl

/-- The sink's request in one expression: a request already outstanding stands. -/
theorem State.sinkRequest_eq (s : State) (w : Word) :
    s.sinkRequest w = { s with request := some (s.request.getD w) } := by
  cases s with
  | mk frame master gen pending seq slots cmdq respq request rendered moves cfg =>
    cases request <;> rfl

/-! ### Slots -/

@[simp] theorem Slots.setPulse_one (sl : Slots) (o : Pulse) : sl.setPulse 1 o = { sl with slot1 := some o } := rfl
@[simp] theorem Slots.setPulse_two (sl : Slots) (o : Pulse) : sl.setPulse 2 o = { sl with slot2 := some o } := rfl
@[simp] theorem Slots.setTriangle_eq (sl : Slots) (o : Triangle) : sl.setTriangle o = { sl with slot3 := some o } := rfl
@[simp] theorem Slots.setNoise_eq (sl : Slots) (o : Noise) : sl.setNoise o = { sl with slot4 := some o } := rfl
@[simp] theorem Slots.pulseAt_one (sl : Slots) : sl.pulseAt 1 = sl.slot1 := rfl
@[simp] theorem Slots.pulseAt_two (sl : Slots) : sl.pulseAt 2 = sl.slot2 := rfl
@[simp] theorem Slots.triangleAt_three (sl : Slots) : sl.triangleAt 3 = sl.slot3 := rfl
@[simp] theorem Slots.noiseAt_four (sl : Slots) : sl.noiseAt 4 = sl.slot4 := rfl

/-- Routing reaches a pulse slot only at channels 1 and 2, and there the slot itself. -/
theorem Slots.pulseAt_eq_some {sl : Slots} {ch : Nat} {o : Pulse} (h : sl.pulseAt ch = some o) :
    ch = 1 ∧ sl.slot1 = some o ∨ ch = 2 ∧ sl.slot2 = some o := by
  unfold Slots.pulseAt at h
  split_ifs at h with h1 h2
  · exact .inl ⟨h1, h⟩
  · exact .inr ⟨h2, h⟩

theorem Slots.triangleAt_eq_some {sl : Slots} {ch : Nat} {o : Triangle} (h : sl.triangleAt ch = some o) :
    ch = 3 ∧ sl.slot3 = some o := by
  unfold Slots.triangleAt at h
  split_ifs at h with h1
  exact ⟨h1, h⟩

theorem Slots.noiseAt_eq_some {sl : Slots} {ch : Nat} {o : Noise} (h : sl.noiseAt ch = some o) :
    ch = 4 ∧ sl.slot4 = some o := by
  unfold Slots.noiseAt at h
  split_ifs at h with h1
  exact ⟨h1, h⟩

/-! ### Parameters -/

@[simp] theorem Param.schedule_cur {α : Type} (p : Param α) (v : α) (e q : Nat) : (p.schedule v e q).cur = p.cur := rfl
@[simp] theorem Param.schedule_pend {α : Type} (p : Param α) (v : α) (e q : Nat) :
    (p.schedule v e q).pend = p.pend ++ [⟨v, e, q⟩] := rfl
@[simp] theorem Param.retire_cur {α : Type} (p : Param α) (n : Nat) : (p.retire n).cur = p.inForce n := rfl
@[simp] theorem Param.retire_pend {α : Type} (p : Param α) (n : Nat) :
    (p.retire n).pend = p.pend.filter (fun x => decide (n < x.e)) := rfl
@[simp] theorem Param.constant_cur {α : Type} (v : α) : (Param.constant v).cur = v := rfl
@[simp] theorem Param.constant_pend {α : Type} (v : α) : (Param.constant v).pend = [] := rfl

end Sys2Proof.Machine
end

