-- ==== Sys2Proof/Laws/Automation.lean ====
section
/-! SUPPORT. Lemmas about the automation timeline: the latest entry, the value in force, and which parameters are good. -/

namespace Sys2Proof.Machine

theorem Entry.notAfter_iff {α : Type} (x y : Entry α) : x.notAfter y = true ↔ x.e < y.e ∨ x.e = y.e ∧ x.seq ≤ y.seq := by
  simp [Entry.notAfter]

theorem latestEntry_eq_none {α : Type} {l : List (Entry α)} : latestEntry l = none ↔ l = [] := by
  cases l with
  | nil => simp [latestEntry]
  | cons x xs =>
    simp only [latestEntry]
    split <;> simp
    split <;> simp

/-- The latest entry is an entry, and no entry comes after it. -/
theorem latestEntry_spec {α : Type} : ∀ {l : List (Entry α)} {x : Entry α}, latestEntry l = some x →
    x ∈ l ∧ ∀ y ∈ l, y.e < x.e ∨ y.e = x.e ∧ y.seq ≤ x.seq
  | [], x, h => by simp [latestEntry] at h
  | a :: l, x, h => by
    simp only [latestEntry] at h
    split at h
    · rename_i hn
      rw [latestEntry_eq_none] at hn
      cases h
      simp [hn]
    · rename_i y hy
      obtain ⟨hm, hmax⟩ := latestEntry_spec hy
      split at h
      · rename_i hle
        cases h
        rw [Entry.notAfter_iff] at hle
        exact ⟨List.mem_cons_of_mem _ hm, fun z hz => by
          rcases List.mem_cons.mp hz with rfl | hz
          · exact hle
          · exact hmax z hz⟩
      · rename_i hgt
        cases h
        rw [Entry.notAfter_iff] at hgt
        refine ⟨List.mem_cons_self .., fun z hz => ?_⟩
        rcases List.mem_cons.mp hz with rfl | hz
        · exact .inr ⟨rfl, le_refl _⟩
        · have := hmax z hz
          omega

/-- The value in force is `cur` or the value of an entry that has come into force. -/
theorem Param.inForce_cases {α : Type} (p : Param α) (n : Nat) :
    p.inForce n = p.cur ∨ ∃ x ∈ p.pend, x.e ≤ n ∧ p.inForce n = x.value := by
  unfold Param.inForce
  split
  · exact .inl rfl
  · rename_i x hx
    have := (latestEntry_spec hx).1
    simp only [List.mem_filter, decide_eq_true_eq] at this
    exact .inr ⟨x, this.1, this.2, rfl⟩

/-- With no entry in force the value is `cur`. -/
theorem Param.inForce_of_none {α : Type} {p : Param α} {n : Nat} (h : ∀ x ∈ p.pend, n < x.e) : p.inForce n = p.cur := by
  rcases p.inForce_cases n with h' | ⟨x, hx, hle, -⟩
  · exact h'
  · have := h x hx; omega

@[simp] theorem Param.inForce_constant {α : Type} (v : α) (n : Nat) : (Param.constant v).inForce n = v :=
  Param.inForce_of_none (by simp)

/-- What retiring at `n` leaves in force at `n` is what was in force at `n`. -/
@[simp] theorem Param.inForce_retire_self {α : Type} (p : Param α) (n : Nat) : (p.retire n).inForce n = p.inForce n :=
  Param.inForce_of_none (by simp)

/-- Every value a good parameter has in force is good. -/
theorem Param.Good.inForce {α : Type} {ok : α → Prop} {c : Params} {frame seq : Nat} {p : Param α}
    (h : p.Good ok c frame seq) (n : Nat) : ok (p.inForce n) := by
  rcases p.inForce_cases n with h' | ⟨x, hx, -, h'⟩
  · rw [h']; exact h.1
  · rw [h']; exact (h.2.1 x hx).1

/-- AUTO_RETIRE at frame `n` keeps a parameter good and moves the bound of rule R34 (f) past `n`. -/
theorem Param.Good.retire {α : Type} {ok : α → Prop} {c : Params} {frame seq : Nat} {p : Param α}
    (h : p.Good ok c frame seq) (n : Nat) : (p.retire n).Good ok c (n + 1) seq := by
  refine ⟨h.inForce n, ?_, h.2.2.1.filter _, fun k hk => (List.length_filter_le _ _).trans (h.2.2.2 k hk)⟩
  intro x hx
  simp only [Param.retire_pend, List.mem_filter, decide_eq_true_eq] at hx
  exact ⟨(h.2.1 x hx.1).1, hx.2, (h.2.1 x hx.1).2.2⟩

/-- AUTO_SET of a good value at frame `frame` or later, where the list is not full, keeps a parameter good. -/
theorem Param.Good.schedule {α : Type} {ok : α → Prop} {c : Params} {frame seq : Nat} {p : Param α}
    (h : p.Good ok c frame seq) {v : α} (hv : ok v) {e : Nat} (he : frame ≤ e) (hf : p.full c.capacity = false) :
    (p.schedule v e seq).Good ok c frame (seq + 1) := by
  refine ⟨h.1, ?_, ?_, ?_⟩
  · intro x hx
    rcases List.mem_append.mp hx with hx | hx
    · obtain ⟨a, b, d⟩ := h.2.1 x hx
      exact ⟨a, b, by omega⟩
    · obtain rfl := List.mem_singleton.mp hx
      exact ⟨hv, he, by simp⟩
  · refine List.pairwise_append.mpr ⟨h.2.2.1, List.pairwise_singleton _ _, ?_⟩
    intro x hx y hy
    obtain rfl := List.mem_singleton.mp hy
    exact (h.2.1 x hx).2.2
  · intro k hk
    rw [Option.mem_def] at hk
    simp only [Param.full, hk, decide_eq_false_iff_not] at hf
    simp; omega

/-- A parameter stays good as arrivals are counted. -/
theorem Param.Good.mono {α : Type} {ok : α → Prop} {c : Params} {frame seq seq' : Nat} {p : Param α}
    (h : p.Good ok c frame seq) (hs : seq ≤ seq') : p.Good ok c frame seq' :=
  ⟨h.1, fun x hx => ⟨(h.2.1 x hx).1, (h.2.1 x hx).2.1, by have := (h.2.1 x hx).2.2; omega⟩, h.2.2⟩

/-- A parameter with no entry is good where its value is. -/
theorem Param.Good.constant {α : Type} {ok : α → Prop} {c : Params} {frame seq : Nat} {v : α} (h : ok v) :
    (Param.constant v).Good ok c frame seq :=
  ⟨h, by simp, List.Pairwise.nil, by simp⟩

end Sys2Proof.Machine
end

