-- ==== Sys2Proof/Laws/Decode.lean ====
section
/-! SUPPORT. The fields of header words built from fields, words and the bytes that carry them, and operands and their
two words. -/

namespace Sys2Proof

/-! ### Operands and their words -/

@[simp] theorem bits64_words (q : Quad) : bits64 (lowWord q) (highWord q) = q := by
  unfold bits64 lowWord highWord
  apply BitVec.eq_of_getLsbD_eq
  intro i hi
  rw [BitVec.getLsbD_append]
  split_ifs with h
  · simp [h]
  · rw [BitVec.getLsbD_extractLsb']
    have h1 : i - 32 < 32 := by omega
    have h2 : 32 + (i - 32) = i := by omega
    simp [h1, h2]

@[simp] theorem lowWord_bits64 (lo hi : Word) : lowWord (bits64 lo hi) = lo := BitVec.extractLsb'_append_eq_right

@[simp] theorem highWord_bits64 (lo hi : Word) : highWord (bits64 lo hi) = hi := BitVec.extractLsb'_append_eq_left

theorem toNat_ofNat_of_lt {w n : Nat} (h : n < 2 ^ w) : (BitVec.ofNat w n).toNat = n := by
  simp [Nat.mod_eq_of_lt h]

/-! ### Words and their bytes (rule R68) -/

theorem wordOfBytes_bytes (w : Word) :
    wordOfBytes (w.extractLsb' 0 8) (w.extractLsb' 8 8) (w.extractLsb' 16 8) (w.extractLsb' 24 8) = w := by
  unfold wordOfBytes
  apply BitVec.eq_of_getLsbD_eq
  intro i hi
  simp only [BitVec.getLsbD_append, BitVec.getLsbD_extractLsb']
  split_ifs with h1 h2 h3
  · simp [h1]
  · rw [show 8 + (i - 8) = i by omega]; simp [h2]
  · rw [show 16 + (i - 8 - 8) = i by omega]; simp [h3]
  · rw [show 24 + (i - 8 - 8 - 8) = i by omega]; simp [show i - 8 - 8 - 8 < 8 by omega]

/-- The words the bytes of a list of words carry are the words. -/
@[simp] theorem wordsOfBytes_bytesOfWords (ws : List Word) : wordsOfBytes (bytesOfWords ws) = ws := by
  induction ws with
  | nil => rfl
  | cons w ws ih => simp [bytesOfWords, bytesOfWord, wordsOfBytes, wordOfBytes_bytes, ih]

/-! ### The fields of a header (rule R81) -/

section Fields
variable (op : BitVec 4) (var : BitVec 2) (mode : BitVec 1) (ch : BitVec 3) (rsv : BitVec 6) (frames : BitVec 16)

@[simp] theorem framesField_headerWord : framesField (headerWord op var mode ch rsv frames) = frames :=
  BitVec.extractLsb'_append_eq_right

@[simp] theorem rsvField_headerWord : rsvField (headerWord op var mode ch rsv frames) = rsv := by
  unfold rsvField headerWord
  apply BitVec.eq_of_getLsbD_eq
  intro i hi
  simp only [BitVec.getLsbD_extractLsb', BitVec.getLsbD_append]
  interval_cases i <;> simp

@[simp] theorem chField_headerWord : chField (headerWord op var mode ch rsv frames) = ch := by
  unfold chField headerWord
  apply BitVec.eq_of_getLsbD_eq
  intro i hi
  simp only [BitVec.getLsbD_extractLsb', BitVec.getLsbD_append]
  interval_cases i <;> simp

@[simp] theorem modeField_headerWord : modeField (headerWord op var mode ch rsv frames) = mode := by
  unfold modeField headerWord
  apply BitVec.eq_of_getLsbD_eq
  intro i hi
  simp only [BitVec.getLsbD_extractLsb', BitVec.getLsbD_append]
  interval_cases i
  simp

@[simp] theorem varField_headerWord : varField (headerWord op var mode ch rsv frames) = var := by
  unfold varField headerWord
  apply BitVec.eq_of_getLsbD_eq
  intro i hi
  simp only [BitVec.getLsbD_extractLsb', BitVec.getLsbD_append]
  interval_cases i <;> simp

@[simp] theorem opField_headerWord : opField (headerWord op var mode ch rsv frames) = op := by
  unfold opField headerWord
  apply BitVec.eq_of_getLsbD_eq
  intro i hi
  simp only [BitVec.getLsbD_extractLsb', BitVec.getLsbD_append]
  interval_cases i <;> simp

end Fields

/-! ### Modes and results -/

@[simp] theorem modeOfBit_bitOfMode (m : NoiseMode) : modeOfBit (bitOfMode m) = m := by cases m <;> rfl

@[simp] theorem bitOfMode_modeOfBit (b : BitVec 1) : bitOfMode (modeOfBit b) = b := by revert b; decide

@[simp] theorem resultOfBits_bitsOfResult (r : InitResult) : resultOfBits (bitsOfResult r) = r := by cases r <;> rfl

@[simp] theorem bitsOfResult_resultOfBits (b : BitVec 2) : bitsOfResult (resultOfBits b) = b := by revert b; decide

/-! ### The fields of an INIT_DONE header (rule R92) -/

section Response
variable (result : BitVec 2) (ready : BitVec 4)

@[simp] theorem framesField_responseWord : framesField (responseWord result ready) = 0#16 :=
  BitVec.extractLsb'_append_eq_right

@[simp] theorem readyField_responseWord : readyField (responseWord result ready) = ready := by
  revert result ready; decide

@[simp] theorem responseGap_responseWord : responseGap (responseWord result ready) = 0#6 := by
  revert result ready; decide

@[simp] theorem resultField_responseWord : resultField (responseWord result ready) = result := by
  revert result ready; decide

@[simp] theorem opField_responseWord : opField (responseWord result ready) = 9#4 := by
  revert result ready; decide

end Response

/-! ### Headers the decoder accepts -/

/-- A DISPATCH header built from its fields decodes by its variant alone (rules R83, R84, R90). -/
theorem decodeHeader_dispatch (var : BitVec 2) (mode : BitVec 1) (ch : Nat) :
    decodeHeader (dispatchHeader var mode ch) =
      if var = 0#2 then
        if mode = 0#1 then .ok (.squareNote (BitVec.ofNat 3 ch)) else .error .unusedFieldNotZero
      else if var = 1#2 then
        if mode = 0#1 then .ok (.triangleNote (BitVec.ofNat 3 ch)) else .error .unusedFieldNotZero
      else if var = 2#2 then .ok (.noiseNote (BitVec.ofNat 3 ch) (modeOfBit mode))
      else .error .noSuchVariant := by
  simp [decodeHeader, decodeDispatchHeader, dispatchHeader]

/-- Every header the decoder accepts has OP 1 to 4, and OP 4 is DISPATCH (rule R82). -/
theorem decodeHeader_eq_ok {w : Word} {h : Header} (hd : decodeHeader w = .ok h) :
    rsvField w = 0#6 ∧
      (opField w = 1#4 ∧ belowOp w = 0#28 ∧ h = .createChannels ∨ opField w = 2#4 ∧ belowOp w = 0#28 ∧ h = .reset ∨
        opField w = 3#4 ∧ belowOp w = 0#28 ∧ h = .setMasterVolume ∨
        opField w = 4#4 ∧ framesField w = 0#16 ∧
          (varField w = 0#2 ∧ modeField w = 0#1 ∧ h = .squareNote (chField w) ∨
            varField w = 1#2 ∧ modeField w = 0#1 ∧ h = .triangleNote (chField w) ∨
            varField w = 2#2 ∧ h = .noiseNote (chField w) (modeOfBit (modeField w)))) := by
  unfold decodeHeader decodeDispatchHeader at hd
  split_ifs at hd <;> simp_all

end Sys2Proof
end

