-- ==== Sys2Proof/Laws/Numerics.lean ====
section
/-! SUPPORT. Lemmas about `pow2`, rounding to binary64, `mod1` and the phase step. -/

namespace Sys2Proof.Machine

theorem pow2_eq_zpow (e : Int) : pow2 e = (2 : Rat) ^ e := by
  unfold pow2
  split
  · rename_i h
    obtain ⟨n, rfl⟩ := Int.eq_ofNat_of_zero_le h
    simp
  · rename_i h
    obtain ⟨n, hn⟩ := Int.eq_ofNat_of_zero_le (a := -e) (by omega)
    obtain rfl : e = -(n : Int) := by omega
    simp [Rat.mkRat_eq_div]

theorem pow2_pos (e : Int) : 0 < pow2 e := by rw [pow2_eq_zpow]; positivity

theorem pow2_add (a b : Int) : pow2 (a + b) = pow2 a * pow2 b := by
  simp [pow2_eq_zpow, zpow_add₀]

theorem pow2_le {a b : Int} : pow2 a ≤ pow2 b ↔ a ≤ b := by
  rw [pow2_eq_zpow, pow2_eq_zpow]; exact zpow_le_zpow_iff_right₀ (by norm_num)

theorem pow2_lt {a b : Int} : pow2 a < pow2 b ↔ a < b := by
  rw [pow2_eq_zpow, pow2_eq_zpow]; exact zpow_lt_zpow_iff_right₀ (by norm_num)

theorem pow2_natCast (n : Nat) : pow2 n = ((2 ^ n : Nat) : Rat) := by simp [pow2_eq_zpow]

theorem pow2_neg_natCast (n : Nat) : pow2 (-(n : Int)) = 1 / ((2 ^ n : Nat) : Rat) := by simp [pow2_eq_zpow]

theorem floor_eq (x : Rat) : x.floor = ⌊x⌋ := rfl

/-- `ilog2` is the binary exponent. -/
theorem ilog2_spec (x : Rat) (h : x ≠ 0) : pow2 (ilog2 x) ≤ |x| ∧ |x| < pow2 (ilog2 x + 1) := by
  have hn : x.num.natAbs ≠ 0 := by simpa using h
  have hd : x.den ≠ 0 := x.den_nz
  have hx : |x| = (x.num.natAbs : Rat) / x.den := by
    conv_lhs => rw [← Rat.num_div_den x]
    rw [abs_div, Nat.abs_cast, Nat.cast_natAbs, Int.cast_abs]
  have n1 : ((2 ^ Nat.log2 x.num.natAbs : Nat) : Rat) ≤ x.num.natAbs := by exact_mod_cast Nat.log2_self_le hn
  have n2 : (x.num.natAbs : Rat) < (2 ^ (Nat.log2 x.num.natAbs + 1) : Nat) := by exact_mod_cast Nat.lt_log2_self
  have d1 : ((2 ^ Nat.log2 x.den : Nat) : Rat) ≤ x.den := by exact_mod_cast Nat.log2_self_le hd
  have d2 : (x.den : Rat) < (2 ^ (Nat.log2 x.den + 1) : Nat) := by exact_mod_cast Nat.lt_log2_self
  rw [← pow2_natCast] at n1 n2 d1 d2
  have dpos : (0 : Rat) < x.den := by exact_mod_cast x.den_pos
  have up : |x| < pow2 ((Nat.log2 x.num.natAbs : Int) - Nat.log2 x.den + 1) := by
    rw [hx, div_lt_iff₀ dpos]
    calc (x.num.natAbs : Rat) < pow2 ((Nat.log2 x.num.natAbs + 1 : Nat) : Int) := n2
      _ = pow2 ((Nat.log2 x.num.natAbs : Int) - Nat.log2 x.den + 1) * pow2 (Nat.log2 x.den) := by
          rw [← pow2_add]; congr 1; push_cast; ring
      _ ≤ _ := mul_le_mul_of_nonneg_left d1 (pow2_pos _).le
  have lo : pow2 ((Nat.log2 x.num.natAbs : Int) - Nat.log2 x.den - 1) ≤ |x| := by
    rw [hx, le_div_iff₀ dpos]
    calc pow2 ((Nat.log2 x.num.natAbs : Int) - Nat.log2 x.den - 1) * x.den
        ≤ pow2 ((Nat.log2 x.num.natAbs : Int) - Nat.log2 x.den - 1) * pow2 ((Nat.log2 x.den + 1 : Nat) : Int) :=
          mul_le_mul_of_nonneg_left d2.le (pow2_pos _).le
      _ = pow2 (Nat.log2 x.num.natAbs) := by rw [← pow2_add]; congr 1; push_cast; ring
      _ ≤ _ := n1
  simp only [ilog2]
  split
  · rename_i hlt
    exact ⟨lo, by simpa using hlt⟩
  · rename_i hge
    exact ⟨not_lt.mp hge, up⟩

/-- A number below `2^(k+1)` in magnitude has binary exponent at most `k`. -/
theorem ilog2_le {x : Rat} {k : Int} (h : x ≠ 0) (hk : |x| < pow2 (k + 1)) : ilog2 x ≤ k := by
  have := lt_of_le_of_lt (ilog2_spec x h).1 hk
  rw [pow2_lt] at this; omega

theorem le_ilog2 {x : Rat} {k : Int} (h : x ≠ 0) (hk : pow2 k ≤ |x|) : k ≤ ilog2 x := by
  have := lt_of_le_of_lt hk (ilog2_spec x h).2
  rw [pow2_lt] at this; omega

@[simp] theorem roundToEven_intCast (z : Int) : roundToEven (z : Rat) = z := by
  have h : (z : Rat).floor = z := by rw [floor_eq]; exact Int.floor_intCast z
  simp [roundToEven, h]

theorem floor_le_roundToEven (y : Rat) : y.floor ≤ roundToEven y := by
  unfold roundToEven; dsimp only; split_ifs <;> omega

theorem roundToEven_le_floor_add_one (y : Rat) : roundToEven y ≤ y.floor + 1 := by
  unfold roundToEven; dsimp only; split_ifs <;> omega

/-- Rounding to the nearest integer is monotone. -/
theorem roundToEven_mono {x y : Rat} (h : x ≤ y) : roundToEven x ≤ roundToEven y := by
  have hf : x.floor ≤ y.floor := by rw [floor_eq, floor_eq]; exact Int.floor_le_floor h
  rcases hf.lt_or_eq with hlt | heq
  · exact (roundToEven_le_floor_add_one x).trans (by have := floor_le_roundToEven y; omega)
  · unfold roundToEven
    rw [heq]
    dsimp only
    have : x - (y.floor : Rat) ≤ y - y.floor := by linarith
    split_ifs <;> first | omega | (exfalso; linarith)

/-- Rounding to the nearest integer is odd: ties go to the even neighbour on both sides of 0. -/
theorem roundToEven_neg (y : Rat) : roundToEven (-y) = -roundToEven y := by
  have h1 := Rat.floor_le y
  have h2 := Rat.lt_floor_add_one y
  push_cast at h2
  rcases eq_or_lt_of_le h1 with he | hlt
  · rw [← he, ← Int.cast_neg, roundToEven_intCast, roundToEven_intCast]
  · have hfl : (-y).floor = -y.floor - 1 := by
      rw [floor_eq (-y), Int.floor_eq_iff]; push_cast; constructor <;> linarith
    unfold roundToEven
    rw [hfl]
    dsimp only
    push_cast
    split_ifs <;> first | omega | (exfalso; linarith)

theorem roundToEven_of_le {y : Rat} {z : Int} (h : y ≤ z) : roundToEven y ≤ z := by
  simpa using roundToEven_mono h

theorem le_roundToEven {y : Rat} {z : Int} (h : (z : Rat) ≤ y) : z ≤ roundToEven y := by
  simpa using roundToEven_mono h

@[simp] theorem ilog2_neg (x : Rat) : ilog2 (-x) = ilog2 x := by simp [ilog2]

@[simp] theorem ulpExponent_neg (x : Rat) : ulpExponent (-x) = ulpExponent x := by simp [ulpExponent]

@[simp] theorem round64_zero : round64 0 = 0 := by
  have : roundToEven 0 = 0 := roundToEven_intCast 0
  simp [round64, this]

/-- Rounding to binary64 is odd. -/
theorem round64_neg (x : Rat) : round64 (-x) = -round64 x := by
  simp only [round64, ulpExponent_neg, neg_div, roundToEven_neg]; push_cast; ring

/-- `m * 2^e` with at most 53 significant bits, and `e` no less than -1074, is a binary64 number. -/
theorem round64_of_grid {m e : Int} (hm : |m| ≤ 2 ^ 53) (he : -1074 ≤ e) : round64 (m * pow2 e) = m * pow2 e := by
  rcases eq_or_ne m 0 with rfl | hm0
  · simp
  have hx : (m : Rat) * pow2 e ≠ 0 := mul_ne_zero (by exact_mod_cast hm0) (pow2_pos e).ne'
  have key : ∀ {m e : Int}, |m| < 2 ^ 53 → m ≠ 0 → -1074 ≤ e → round64 (m * pow2 e) = m * pow2 e := by
    intro m e hm hm0 he
    have hx : (m : Rat) * pow2 e ≠ 0 := mul_ne_zero (by exact_mod_cast hm0) (pow2_pos e).ne'
    have hlog : ilog2 ((m : Rat) * pow2 e) ≤ e + 52 := by
      apply ilog2_le hx
      rw [abs_mul, abs_of_pos (pow2_pos e), show e + 52 + 1 = 53 + e by ring, pow2_add]
      refine mul_lt_mul_of_pos_right ?_ (pow2_pos e)
      have h53 : pow2 53 = ((2 ^ 53 : Int) : Rat) := by simp [pow2_eq_zpow]; norm_num
      rw [h53, ← Int.cast_abs]; exact_mod_cast hm
    have hu : ulpExponent ((m : Rat) * pow2 e) ≤ e := by unfold ulpExponent; omega
    obtain ⟨k, hk⟩ := Int.eq_ofNat_of_zero_le (a := e - ulpExponent ((m : Rat) * pow2 e)) (by omega)
    have hdiv : (m : Rat) * pow2 e / pow2 (ulpExponent ((m : Rat) * pow2 e)) = ((m * 2 ^ k : Int) : Rat) := by
      rw [div_eq_iff (pow2_pos _).ne']
      have he2 : pow2 e = pow2 k * pow2 (ulpExponent ((m : Rat) * pow2 e)) := by rw [← pow2_add]; congr 1; omega
      rw [pow2_natCast] at he2
      push_cast at he2 ⊢
      rw [mul_assoc, ← he2]
    unfold round64
    rw [hdiv, roundToEven_intCast, ← hdiv, div_mul_cancel₀ _ (pow2_pos _).ne']
  rcases lt_or_eq_of_le hm with hlt | heq
  · exact key hlt hm0 he
  · have hpow : pow2 (e + 1) = 2 * pow2 e := by rw [pow2_add]; simp [pow2_eq_zpow]; ring
    rcases abs_eq (by positivity) |>.mp heq with rfl | rfl
    · have := key (m := 2 ^ 52) (e := e + 1) (by norm_num) (by norm_num) (by omega)
      rw [hpow] at this
      have h2 : (((2 ^ 52 : Int) : Rat)) * (2 * pow2 e) = ((2 ^ 53 : Int) : Rat) * pow2 e := by norm_num; ring
      rwa [h2] at this
    · have := key (m := -2 ^ 52) (e := e + 1) (by norm_num) (by norm_num) (by omega)
      rw [hpow] at this
      have h2 : (((-2 ^ 52 : Int) : Rat)) * (2 * pow2 e) = ((-2 ^ 53 : Int) : Rat) * pow2 e := by norm_num; ring
      rwa [h2] at this

/-- Every rounded value has at most 53 significant bits on a grid no finer than `2^-1074`. -/
theorem round64_grid (x : Rat) : ∃ m e : Int, |m| ≤ 2 ^ 53 ∧ -1074 ≤ e ∧ round64 x = m * pow2 e := by
  refine ⟨roundToEven (x / pow2 (ulpExponent x)), ulpExponent x, ?_, by unfold ulpExponent; omega, rfl⟩
  rcases eq_or_ne x 0 with rfl | hx
  · have : roundToEven 0 = 0 := roundToEven_intCast 0
    simp [this]
  have h1 : |x / pow2 (ulpExponent x)| ≤ ((2 ^ 53 : Int) : Rat) := by
    rw [abs_div, abs_of_pos (pow2_pos _), div_le_iff₀ (pow2_pos _)]
    have h53 : ((2 ^ 53 : Int) : Rat) = pow2 53 := by simp [pow2_eq_zpow]; norm_num
    rw [h53, ← pow2_add]
    refine (ilog2_spec x hx).2.le.trans (pow2_le.mpr ?_)
    unfold ulpExponent; omega
  rw [abs_le] at h1 ⊢
  exact ⟨le_roundToEven (by rw [Int.cast_neg]; exact h1.1), roundToEven_of_le h1.2⟩

/-- Rounding to binary64 is idempotent. -/
theorem round64_round64 (x : Rat) : round64 (round64 x) = round64 x := by
  obtain ⟨m, e, hm, he, h⟩ := round64_grid x
  rw [h, round64_of_grid hm he]

theorem ulpExponent_mono {x y : Rat} (hx : x ≠ 0) (h : |x| ≤ |y|) : ulpExponent x ≤ ulpExponent y := by
  have hy : y ≠ 0 := by
    rintro rfl
    simp at h; exact hx h
  have := le_ilog2 hy ((ilog2_spec x hx).1.trans h)
  unfold ulpExponent; omega

/-- Rounding keeps a value at or below a binary64 number at or below it. -/
theorem round64_le_of_le {x b : Rat} (hb : round64 b = b) (h : x ≤ b) : round64 x ≤ b := by
  rcases eq_or_ne b 0 with rfl | hb0
  · have hz : ((0 : Int) : Rat) = 0 := by simp
    have : roundToEven (x / pow2 (ulpExponent x)) ≤ 0 :=
      roundToEven_of_le (by rw [hz]; exact div_nonpos_of_nonpos_of_nonneg h (pow2_pos _).le)
    exact mul_nonpos_of_nonpos_of_nonneg (by exact_mod_cast this) (pow2_pos _).le
  -- on `x`'s own grid, `b` is a multiple wherever that grid is finer, and `x` cannot reach past it elsewhere
  rcases eq_or_ne x 0 with rfl | hx0
  · simpa using h
  obtain ⟨m, e, hm, he, hbe⟩ := round64_grid b
  rw [hb] at hbe
  by_cases hu : ulpExponent x ≤ ulpExponent b
  · -- `b` is on the grid of `x`
    have hbm : b = (roundToEven (b / pow2 (ulpExponent b)) : Rat) * pow2 (ulpExponent b) := hb.symm
    obtain ⟨k, hk⟩ := Int.eq_ofNat_of_zero_le (a := ulpExponent b - ulpExponent x) (by omega)
    have hgrid : b / pow2 (ulpExponent x) = ((roundToEven (b / pow2 (ulpExponent b)) * 2 ^ k : Int) : Rat) := by
      rw [div_eq_iff (pow2_pos _).ne']
      have he2 : pow2 (ulpExponent b) = pow2 k * pow2 (ulpExponent x) := by rw [← pow2_add]; congr 1; omega
      rw [pow2_natCast] at he2
      push_cast at he2 ⊢
      rw [mul_assoc, ← he2, ← hbm]
    have : roundToEven (x / pow2 (ulpExponent x)) ≤ roundToEven (b / pow2 (ulpExponent b)) * 2 ^ k :=
      roundToEven_of_le (by rw [← hgrid]; exact div_le_div_of_nonneg_right h (pow2_pos _).le)
    calc round64 x = (roundToEven (x / pow2 (ulpExponent x)) : Rat) * pow2 (ulpExponent x) := rfl
      _ ≤ ((roundToEven (b / pow2 (ulpExponent b)) * 2 ^ k : Int) : Rat) * pow2 (ulpExponent x) :=
          mul_le_mul_of_nonneg_right (by exact_mod_cast this) (pow2_pos _).le
      _ = b := by rw [← hgrid, div_mul_cancel₀ _ (pow2_pos _).ne']
  · -- `x` is larger in magnitude, so it is negative, and its rounding stays below `-|b|`
    have habs : |b| < |x| := by
      by_contra hc
      exact hu (ulpExponent_mono hx0 (not_lt.mp hc))
    have hneg : x < 0 := by
      by_contra hc
      rw [abs_of_nonneg (not_lt.mp hc)] at habs
      exact absurd (h.trans (le_abs_self b)) (not_le.mpr habs)
    have hux : ulpExponent x = ilog2 x - 52 := by
      have : -1074 ≤ ulpExponent b := by unfold ulpExponent; omega
      unfold ulpExponent at this hu ⊢; omega
    have hle : x / pow2 (ulpExponent x) ≤ ((-2 ^ 52 : Int) : Rat) := by
      rw [div_le_iff₀ (pow2_pos _)]
      have h52 : ((-2 ^ 52 : Int) : Rat) = -pow2 52 := by simp [pow2_eq_zpow]; norm_num
      rw [h52, neg_mul, ← pow2_add, hux, show 52 + (ilog2 x - 52) = ilog2 x by ring]
      have := (ilog2_spec x hx0).1
      rw [abs_of_neg hneg] at this
      linarith
    have hr := roundToEven_of_le hle
    have hbx : |b| ≤ pow2 (ilog2 x) := by
      rcases le_or_gt (|b|) (pow2 (ilog2 x)) with h' | h'
      · exact h'
      · exfalso
        have := le_ilog2 hb0 h'.le
        unfold ulpExponent at hu; omega
    calc round64 x = (roundToEven (x / pow2 (ulpExponent x)) : Rat) * pow2 (ulpExponent x) := rfl
      _ ≤ ((-2 ^ 52 : Int) : Rat) * pow2 (ulpExponent x) :=
          mul_le_mul_of_nonneg_right (by exact_mod_cast hr) (pow2_pos _).le
      _ = -pow2 (ilog2 x) := by
          have h52 : ((-2 ^ 52 : Int) : Rat) = -pow2 52 := by simp [pow2_eq_zpow]; norm_num
          rw [h52, neg_mul, ← pow2_add, hux, show 52 + (ilog2 x - 52) = ilog2 x by ring]
      _ ≤ -|b| := neg_le_neg hbx
      _ ≤ b := neg_abs_le b

/-- Rounding keeps a value at or above a binary64 number at or above it. -/
theorem le_round64_of_le {x b : Rat} (hb : round64 b = b) (h : b ≤ x) : b ≤ round64 x := by
  have := round64_le_of_le (x := -x) (b := -b) (by rw [round64_neg, hb]) (by linarith)
  rw [round64_neg] at this; linarith

/-! ### The two instances at once -/

@[simp] theorem round_zero (k : Numerics) : k.round 0 = 0 := by cases k <;> simp [Numerics.round]

theorem round_neg (k : Numerics) (x : Rat) : k.round (-x) = -k.round x := by
  cases k <;> simp [Numerics.round, round64_neg]

theorem round_round (k : Numerics) (x : Rat) : k.round (k.round x) = k.round x := by
  cases k <;> simp [Numerics.round, round64_round64]

theorem round_le_of_le {k : Numerics} {x b : Rat} (hb : k.round b = b) (h : x ≤ b) : k.round x ≤ b := by
  cases k
  · exact h
  · exact round64_le_of_le hb h

theorem le_round_of_le {k : Numerics} {x b : Rat} (hb : k.round b = b) (h : b ≤ x) : b ≤ k.round x := by
  cases k
  · exact h
  · exact le_round64_of_le hb h

/-- The integers to `2^53` are numbers of both instances. -/
theorem round_intCast (k : Numerics) {z : Int} (h : |z| ≤ 2 ^ 53) : k.round z = z := by
  cases k
  · rfl
  · have := round64_of_grid h (show (-1074 : Int) ≤ 0 by omega)
    rwa [show pow2 0 = 1 by simp [pow2_eq_zpow], mul_one] at this

/-! ### `mod1` and the phase step -/

theorem mod1_nonneg (x : Rat) : 0 ≤ mod1 x := sub_nonneg.mpr (Rat.floor_le x)

theorem mod1_lt_one (x : Rat) : mod1 x < 1 := by
  have := Rat.lt_floor_add_one x
  push_cast at this
  unfold mod1; linarith

theorem mod1_of_lt_one {x : Rat} (h0 : 0 ≤ x) (h1 : x < 1) : mod1 x = x := by
  have : x.floor = 0 := by rw [floor_eq, Int.floor_eq_zero_iff]; exact ⟨h0, h1⟩
  simp [mod1, this]

theorem mod1_of_one_le {x : Rat} (h0 : 1 ≤ x) (h1 : x < 2) : mod1 x = x - 1 := by
  have : x.floor = 1 := by rw [floor_eq, Int.floor_eq_iff]; push_cast; exact ⟨h0, by linarith⟩
  simp [mod1, this]

theorem mod1_add_int (x : Rat) (z : Int) : mod1 (x + z) = mod1 x := by
  have : (x + z).floor = x.floor + z := by rw [floor_eq, floor_eq]; exact Int.floor_add_intCast x z
  simp only [mod1, this]; push_cast; ring

/-- Rule R131: the phase step gives a phase in [0, 1), whatever it steps. -/
theorem phaseStep_mem (c : Params) (p f : Rat) : phaseOk (phaseStep c p f) := by
  unfold phaseStep
  split <;> exact ⟨mod1_nonneg _, mod1_lt_one _⟩

/-- Under `exact` the phase step is the fraction part of `p + f / SR`. -/
theorem phaseStep_exact {c : Params} (h : c.numerics = .exact) (p f : Rat) :
    phaseStep c p f = mod1 (p + f / c.sampleRate) := by
  simp [phaseStep, phaseOverflows, h, Numerics.add, Numerics.div, Numerics.round]

/-! ### The parameters after power-on -/

theorem pow2_1024_gt_one : 1 < pow2 1024 := by
  rw [pow2_eq_zpow]; exact one_lt_zpow₀ (by norm_num) (by norm_num)

/-- A rounded value of magnitude at most 1 is a number of either instance. -/
theorem isNumber_of_round {k : Numerics} {x : Rat} (h : k.round x = x) (h1 : |x| ≤ 1) : isNumber k x :=
  ⟨h, fun _ => lt_of_le_of_lt h1 pow2_1024_gt_one⟩

/-- `m * 2^e` with a significand below `2^53` and an exponent in range is a finite binary64 number. -/
theorem isNumber_binary64_of_grid {m e : Int} (hm : |m| < 2 ^ 53) (he : -1074 ≤ e) (he' : e ≤ 971) :
    isNumber .binary64 (m * pow2 e) := by
  refine ⟨round64_of_grid hm.le he, fun _ => ?_⟩
  rw [abs_mul, abs_of_pos (pow2_pos e), ← Int.cast_abs]
  have h53 : ((2 ^ 53 : Int) : Rat) = pow2 53 := by simp [pow2_eq_zpow]; norm_num
  calc ((|m| : Int) : Rat) * pow2 e < ((2 ^ 53 : Int) : Rat) * pow2 e :=
        mul_lt_mul_of_pos_right (by exact_mod_cast hm) (pow2_pos e)
    _ = pow2 (53 + e) := by rw [h53, ← pow2_add]
    _ ≤ pow2 1024 := pow2_le.mpr (by omega)

/-- The sample rate after power-on is positive. -/
theorem Config.sampleRate_pos : 0 < Config.sampleRate := by
  unfold Config.sampleRate
  split <;> · rw [Rat.mkRat_eq_div]; positivity

/-- The sample rate after power-on is a `NUMERICS` value (rule R15). -/
theorem Config.sampleRate_isNumber : isNumber Config.numerics Config.sampleRate := by
  unfold Config.sampleRate
  cases Config.numerics with
  | exact => exact ⟨rfl, nofun⟩
  | binary64 =>
    dsimp only
    obtain ⟨⟨m, hm⟩, ⟨e, he⟩⟩ := Config.sampleRateParts64
    have h : mkRat (((m + 1) * 2 ^ e : Nat) : Int) (2 ^ 1074) = (((m + 1 : Nat) : Int) : Rat) * pow2 ((e : Int) - 1074) := by
      rw [Rat.mkRat_eq_div, sub_eq_add_neg, pow2_add, pow2_natCast,
        show pow2 (-1074) = 1 / ((2 ^ 1074 : Nat) : Rat) from pow2_neg_natCast 1074]
      generalize ((2 ^ 1074 : Nat) : Rat) = d
      push_cast
      ring
    dsimp only
    rw [h]
    exact isNumber_binary64_of_grid (by rw [abs_of_nonneg (by omega)]; omega) (by omega) (by omega)

theorem Config.params_wf : Config.params.wf := by
  refine ⟨Config.sampleRate_pos, ?_, le_refl _, by norm_num [Config.params], Config.sampleRate_isNumber,
    isNumber_of_round (by simp [Config.params]) (by simp [Config.params])⟩
  · intro k hk
    simp only [Config.params, Option.mem_def, Option.map_eq_some_iff] at hk
    obtain ⟨n, -, rfl⟩ := hk
    omega

end Sys2Proof.Machine
end

