-- ==== Sys2Proof/Laws/Oscillators.lean ====
section
/-! SUPPORT. What one frame does to a slot: its samples, the noise register, and that a good slot stays good. -/

namespace Sys2Proof.Machine

/-! ### The noise register (rules R113 to R119) -/

theorem getLsbD_shiftRegister (t : Nat) (r : BitVec 15) (j : Nat) :
    (shiftRegister t r).getLsbD j = if j = 14 then feedbackBit t r else r.getLsbD (j + 1) := by
  unfold shiftRegister
  simp only [BitVec.getLsbD_or, BitVec.getLsbD_ushiftRight, BitVec.getLsbD_shiftLeft, BitVec.getLsbD_setWidth,
    BitVec.getLsbD_ofBool]
  by_cases h : j = 14
  · subst h
    simp [BitVec.getLsbD_of_ge]
  · by_cases h' : j < 14
    · have : ¬j = 14 := h
      simp [this, show j < 14 from h', Nat.add_comm]
    · have h15 : 15 ≤ j := by omega
      simp [h, h', BitVec.getLsbD_of_ge r (1 + j) (by omega), BitVec.getLsbD_of_ge r (j + 1) (by omega),
        show ¬ j - 14 = 0 by omega]

/-- The step map sends no nonzero register to 0 (rule R119). -/
theorem shiftRegister_ne_zero {t : Nat} (h1 : 1 ≤ t) {r : BitVec 15} (hr : r ≠ 0#15) :
    shiftRegister t r ≠ 0#15 := by
  intro h0
  have hb : ∀ j, (if j = 14 then feedbackBit t r else r.getLsbD (j + 1)) = false := fun j => by
    rw [← getLsbD_shiftRegister, h0]; simp
  have hi : ∀ j, 1 ≤ j → r.getLsbD j = false := fun j hj => by
    by_cases h : j - 1 = 14
    · exact BitVec.getLsbD_of_ge r j (by omega)
    · have := hb (j - 1)
      rwa [if_neg h, Nat.sub_add_cancel hj] at this
  apply hr
  apply BitVec.eq_of_getLsbD_eq
  intro i _
  rcases Nat.eq_zero_or_pos i with rfl | hpos
  · have h0bit := hb 14
    simp only [if_pos, feedbackBit, hi t h1, Bool.xor_false] at h0bit
    simpa using h0bit
  · simpa using hi i hpos

theorem tapBit_pos (m : NoiseMode) : 1 ≤ tapBit m := by cases m <;> decide

theorem reseed_ne_zero (r : BitVec 15) : reseed r ≠ 0#15 := by unfold reseed; split_ifs with h; decide; exact h

/-- The register after NS_NEXT is never 0. -/
theorem nextRegister_ne_zero (m : NoiseMode) (r : BitVec 15) : nextRegister m r ≠ 0#15 :=
  shiftRegister_ne_zero (tapBit_pos m) (reseed_ne_zero r)

/-- Stepping `j + k` times is stepping `j` times and then `k` times. -/
theorem registerAfter_add (m : NoiseMode) (j k : Nat) (r : BitVec 15) :
    registerAfter m (j + k) r = registerAfter m k (registerAfter m j r) := by
  induction j generalizing r with
  | zero => simp [registerAfter]
  | succ j ih => rw [Nat.succ_add]; exact ih _

/-- The high bits of `j + k` steps are those of the first `j` and those of the next `k`. -/
theorem highCount_add (m : NoiseMode) (j k : Nat) (r : BitVec 15) :
    highCount m (j + k) r = highCount m j r + highCount m k (registerAfter m j r) := by
  induction j generalizing r with
  | zero => simp [highCount, registerAfter]
  | succ j ih => rw [Nat.succ_add]; simp only [highCount, registerAfter, ih]; omega

/-! ### The noise slot -/

/-- The register before the wrap test: rebuilt where the mode in force is not the sequence's. -/
@[simp] theorem noiseRebuild_lfsr (n : Nat) (o : Noise) :
    (noiseRebuild n o).lfsr = if o.mode.inForce n = o.seqMode then o.lfsr else 1#15 := by
  unfold noiseRebuild; split <;> rfl
@[simp] theorem noiseRebuild_seqMode (n : Nat) (o : Noise) : (noiseRebuild n o).seqMode = o.mode.inForce n := by
  unfold noiseRebuild; split
  · rename_i h; exact h.symm
  · rfl
@[simp] theorem noiseRebuild_phase (n : Nat) (o : Noise) : (noiseRebuild n o).phase = o.phase := by
  unfold noiseRebuild; split <;> rfl
@[simp] theorem noiseRebuild_freq (n : Nat) (o : Noise) : (noiseRebuild n o).freq = o.freq := by
  unfold noiseRebuild; split <;> rfl
@[simp] theorem noiseRebuild_volume (n : Nat) (o : Noise) : (noiseRebuild n o).volume = o.volume := by
  unfold noiseRebuild; split <;> rfl
@[simp] theorem noiseRebuild_mode (n : Nat) (o : Noise) : (noiseRebuild n o).mode = o.mode := by
  unfold noiseRebuild; split <;> rfl
@[simp] theorem noiseRebuild_level (n : Nat) (o : Noise) : (noiseRebuild n o).level = o.level := by
  unfold noiseRebuild; split <;> rfl

@[simp] theorem noiseWrap_lfsr (q : Rat) (o : Noise) :
    (noiseWrap q o).lfsr = if q < o.phase then nextRegister o.seqMode o.lfsr else o.lfsr := by
  unfold noiseWrap; split <;> rfl
@[simp] theorem noiseWrap_level (q : Rat) (o : Noise) :
    (noiseWrap q o).level = if q < o.phase then registerBit (nextRegister o.seqMode o.lfsr) else o.level := by
  unfold noiseWrap; split <;> rfl
@[simp] theorem noiseWrap_seqMode (q : Rat) (o : Noise) : (noiseWrap q o).seqMode = o.seqMode := by
  unfold noiseWrap; split <;> rfl
@[simp] theorem noiseWrap_freq (q : Rat) (o : Noise) : (noiseWrap q o).freq = o.freq := by
  unfold noiseWrap; split <;> rfl
@[simp] theorem noiseWrap_volume (q : Rat) (o : Noise) : (noiseWrap q o).volume = o.volume := by
  unfold noiseWrap; split <;> rfl
@[simp] theorem noiseWrap_mode (q : Rat) (o : Noise) : (noiseWrap q o).mode = o.mode := by
  unfold noiseWrap; split <;> rfl

/-! ### Rendering one slot (rule R143) -/

/-- Rendering one frame more adds that frame's sample and steps the slot once more. -/
theorem renderSlot_succ {σ : Type} (sample : Nat → σ → Rat × σ) (k n : Nat) (o : σ) :
    renderSlot sample (k + 1) n o =
      ((renderSlot sample k n o).1 ++ [(sample (n + k) (renderSlot sample k n o).2).1],
        (sample (n + k) (renderSlot sample k n o).2).2) := by
  induction k generalizing n o with
  | zero => rfl
  | succ k ih =>
    rw [renderSlot, ih (n + 1)]
    simp [renderSlot, Nat.add_assoc, Nat.add_comm 1 k]

@[simp] theorem renderSlot_length {σ : Type} (sample : Nat → σ → Rat × σ) (N n : Nat) (o : σ) :
    (renderSlot sample N n o).1.length = N := by
  induction N with
  | zero => rfl
  | succ N ih => simp [renderSlot_succ, ih]

/-- Sample `k` is that of the slot as `k` frames left it, at its own frame. -/
theorem renderSlot_getElem? {σ : Type} (sample : Nat → σ → Rat × σ) {N k : Nat} (n : Nat) (o : σ) (h : k < N) :
    (renderSlot sample N n o).1[k]? = some (sample (n + k) (renderSlot sample k n o).2).1 := by
  induction N with
  | zero => omega
  | succ N ih =>
    rw [renderSlot_succ]
    rcases Nat.lt_succ_iff_lt_or_eq.mp h with h | rfl
    · rw [List.getElem?_append_left (by simpa using h), ih h]
    · rw [List.getElem?_append_right (by simp)]
      simp

/-! ### Good slots stay good (rule R34) -/

theorem pulseFrame_good {c : Params} {frame seq n : Nat} {o : Pulse} (h : o.Good c frame seq) :
    (pulseFrame c n o).2.Good c (n + 1) seq :=
  ⟨phaseStep_mem _ _ _, h.2.1.retire n, h.2.2.1.retire n, h.2.2.2.retire n⟩

theorem triangleFrame_good {c : Params} {frame seq n : Nat} {o : Triangle} (h : o.Good c frame seq) :
    (triangleFrame c n o).2.Good c (n + 1) seq :=
  ⟨phaseStep_mem _ _ _, h.2.retire n⟩

theorem noiseFrame_good {c : Params} {frame seq n : Nat} {o : Noise} (h : o.Good c frame seq) :
    (noiseFrame c n o).2.Good c (n + 1) seq := by
  refine ⟨phaseStep_mem _ _ _, ?_, ?_, ?_, ?_⟩
  · simp only [noiseFrame, noiseSample, noiseWrap_lfsr, noiseRebuild_lfsr]
    split_ifs
    · exact nextRegister_ne_zero _ _
    · exact nextRegister_ne_zero _ _
    · exact h.2.1
    · decide
  · simpa only [noiseFrame, noiseSample, noiseWrap_freq, noiseRebuild_freq] using h.2.2.1.retire n
  · simpa only [noiseFrame, noiseSample, noiseWrap_volume, noiseRebuild_volume] using h.2.2.2.1.retire n
  · simpa only [noiseFrame, noiseSample, noiseWrap_mode, noiseRebuild_mode] using h.2.2.2.2.retire n

/-- Fresh slots are good whatever the frame and the arrival count. -/
theorem defaultPulse_good (c : Params) (frame seq : Nat) : defaultPulse.Good c frame seq :=
  ⟨by decide +kernel, .constant (by norm_num [freqOk]), .constant (by norm_num [unitOk]),
    .constant (by norm_num [unitOk])⟩

theorem defaultTriangle_good (c : Params) (frame seq : Nat) : defaultTriangle.Good c frame seq :=
  ⟨by decide +kernel, .constant (by norm_num [freqOk])⟩

theorem defaultNoise_good (c : Params) (frame seq : Nat) : defaultNoise.Good c frame seq :=
  ⟨by decide +kernel, by decide, .constant (by norm_num [freqOk]), .constant (by norm_num [unitOk]), .constant trivial⟩

end Sys2Proof.Machine
end

