-- ==== Sys2Proof/Laws/Ops.lean ====
section
/-! SUPPORT. What each shared operation can do, said once: generations, DISPATCH_COMMON, completions, frames and
blocks. -/

namespace Sys2Proof.Machine

/-! ### `PENDING` as a set in canonical form -/

@[simp] theorem mem_insertGeneration (g x : Nat) (l : List Nat) : x ∈ insertGeneration g l ↔ x ∈ l ∨ x = g := by
  induction l with
  | nil => simp [insertGeneration]
  | cons a l ih =>
    simp only [insertGeneration]
    split_ifs with h1 h2
    · simp; tauto
    · subst h2; simp; tauto
    · simp [ih]; tauto

@[simp] theorem mem_eraseGeneration (g x : Nat) (l : List Nat) : x ∈ eraseGeneration g l ↔ x ∈ l ∧ x ≠ g := by
  simp [eraseGeneration]

/-- Issuing keeps `PENDING` strictly rising. -/
theorem insertGeneration_sorted (g : Nat) {l : List Nat} (h : l.Pairwise (· < ·)) :
    (insertGeneration g l).Pairwise (· < ·) := by
  induction l with
  | nil => simp [insertGeneration]
  | cons a l ih =>
    obtain ⟨ha, hl⟩ := List.pairwise_cons.mp h
    simp only [insertGeneration]
    split_ifs with h1 h2
    · refine List.pairwise_cons.mpr ⟨fun x hx => ?_, h⟩
      rcases List.mem_cons.mp hx with rfl | hx
      · exact h1
      · exact h1.trans (ha x hx)
    · exact h
    · refine List.pairwise_cons.mpr ⟨fun x hx => ?_, ih hl⟩
      rcases (mem_insertGeneration g x l).mp hx with hx | rfl
      · exact ha x hx
      · omega

/-- Completing keeps `PENDING` strictly rising. -/
theorem eraseGeneration_sorted (g : Nat) {l : List Nat} (h : l.Pairwise (· < ·)) :
    (eraseGeneration g l).Pairwise (· < ·) := h.filter _

/-! ### READY masks and draws -/

@[simp] theorem Draw.mask_ofMask (m : BitVec 4) : (Draw.ofMask m).mask = m := by revert m; decide

@[simp] theorem Draw.ofMask_mask (ok : Draw) : Draw.ofMask ok.mask = ok := by
  obtain ⟨a, b, c, d⟩ := ok
  cases a <;> cases b <;> cases c <;> cases d <;> decide

theorem Draw.result_ofMask (m : BitVec 4) : (Draw.ofMask m).result = if m = 15#4 then .ok else .failed := by
  revert m; decide

/-- A completion reports an OK or FAILED with its mask, or a STALE with none. -/
theorem State.reportOf_current (s : State) (ok : Draw) : s.reportOf s.gen ok = (ok.result, ok.mask) := by
  simp [State.reportOf]

theorem State.reportOf_stale {s : State} {g : Nat} (h : g ≠ s.gen) (ok : Draw) : s.reportOf g ok = (.stale, 0#4) := by
  simp [State.reportOf, h]

/-- The response of a completion is sent by the completion with the draw its READY mask lists. -/
theorem State.reportOf_ofMask (s : State) (g : Nat) (ok : Draw) :
    s.reportOf g (Draw.ofMask (s.reportOf g ok).2) = s.reportOf g ok := by
  by_cases h : g = s.gen
  · subst h; simp [State.reportOf_current]
  · simp [State.reportOf_stale h]

/-- Completing with the draw the READY mask lists is completing with the draw itself: the draw of a stale completion
is ignored (rule R192). -/
theorem State.complete_ofMask (s : State) (g : Nat) (ok : Draw) :
    s.complete g (Draw.ofMask (s.reportOf g ok).2) = s.complete g ok := by
  unfold State.complete
  rw [State.reportOf_ofMask]
  by_cases h : g = s.gen
  · subst h; simp [State.reportOf_current]
  · simp [h]

/-- A generation that fits 64 bits is carried as it is. -/
theorem generationOperand_of_lt {g : Nat} (h : g < 2 ^ 64) : generationOperand g = BitVec.ofNat 64 g := if_pos h

/-! ### DISPATCH_COMMON -/

/-- Everything a DISPATCH can do: refuse for range, drop, refuse for room, or schedule. -/
theorem dispatch_cases {α σ : Type} (operands : Option α) (target : Option σ) (full : σ → Bool)
    (write : Slots → α → σ → Nat → Nat → Slots) (eff : Nat) (s : State) :
    (operands = none ∧ dispatch operands target full write eff s = .refused .operandRange) ∨
    (∃ v, operands = some v ∧ target = none ∧ dispatch operands target full write eff s = .next s.countDispatch) ∨
    (∃ v o, operands = some v ∧ target = some o ∧ full o = true ∧
      dispatch operands target full write eff s = .refused .automationOverflow) ∨
    (∃ v o, operands = some v ∧ target = some o ∧ full o = false ∧
      dispatch operands target full write eff s =
        .next { s.countDispatch with slots := write s.slots v o (effectiveFrame eff s.frame) s.seq }) := by
  rcases operands with _ | v
  · exact .inl ⟨rfl, rfl⟩
  rcases target with _ | o
  · exact .inr (.inl ⟨v, rfl, rfl, rfl⟩)
  cases hf : full o
  · exact .inr (.inr (.inr ⟨v, o, rfl, rfl, hf, by simp [dispatch, hf]⟩))
  · exact .inr (.inr (.inl ⟨v, o, rfl, rfl, hf, by simp [dispatch, hf]⟩))

theorem dispatch_none {α σ : Type} (target : Option σ) (full : σ → Bool) (write : Slots → α → σ → Nat → Nat → Slots)
    (eff : Nat) (s : State) : dispatch none target full write eff s = .refused .operandRange := rfl

theorem dispatch_off_route {α σ : Type} (v : α) (full : σ → Bool) (write : Slots → α → σ → Nat → Nat → Slots)
    (eff : Nat) (s : State) : dispatch (some v) none full write eff s = .next s.countDispatch := rfl

theorem dispatch_full {α σ : Type} (v : α) (o : σ) {full : σ → Bool} (h : full o = true)
    (write : Slots → α → σ → Nat → Nat → Slots) (eff : Nat) (s : State) :
    dispatch (some v) (some o) full write eff s = .refused .automationOverflow := by simp [dispatch, h]

theorem dispatch_room {α σ : Type} (v : α) (o : σ) {full : σ → Bool} (h : full o = false)
    (write : Slots → α → σ → Nat → Nat → Slots) (eff : Nat) (s : State) :
    dispatch (some v) (some o) full write eff s =
      .next { s.countDispatch with slots := write s.slots v o (effectiveFrame eff s.frame) s.seq } := by
  simp [dispatch, h]

/-- If a DISPATCH answers a next state, only `SEQ`, which grows by 1, and the slots can have changed. -/
theorem dispatch_next {α σ : Type} {operands : Option α} {target : Option σ} {full : σ → Bool}
    {write : Slots → α → σ → Nat → Nat → Slots} {eff : Nat} {s t : State}
    (h : dispatch operands target full write eff s = .next t) :
    t = { s with seq := s.seq + 1, slots := t.slots } ∧
      (t.slots = s.slots ∨ ∃ v o, operands = some v ∧ target = some o ∧ full o = false ∧
        t.slots = write s.slots v o (effectiveFrame eff s.frame) s.seq) := by
  rcases dispatch_cases operands target full write eff s with ⟨-, h'⟩ | ⟨v, -, -, h'⟩ | ⟨v, o, -, -, -, h'⟩ |
    ⟨v, o, hv, ho, hf, h'⟩ <;> rw [h'] at h
  · simp at h
  · simp only [Host.Outcome.next.injEq] at h
    subst h
    exact ⟨rfl, .inl rfl⟩
  · simp at h
  · simp only [Host.Outcome.next.injEq] at h
    subst h
    exact ⟨rfl, .inr ⟨v, o, hv, ho, hf, rfl⟩⟩

/-! ### Operands in range -/

theorem unitOperand_eq_some {b : Quad} {x : Rat} : unitOperand b = some x ↔ f64 b = some x ∧ 0 ≤ x ∧ x ≤ 1 := by
  unfold unitOperand
  cases h : f64 b with
  | none => simp
  | some y =>
    dsimp only
    split_ifs with hy
    · constructor
      · rintro ⟨⟩; exact ⟨rfl, hy⟩
      · rintro ⟨⟨⟩, -⟩; rfl
    · constructor
      · rintro ⟨⟩
      · rintro ⟨⟨⟩, hx⟩; exact absurd hx hy

theorem hzOperand_eq_some {b : Quad} {x : Rat} : hzOperand b = some x ↔ f64 b = some x ∧ 0 < x := by
  unfold hzOperand
  cases h : f64 b with
  | none => simp
  | some y =>
    dsimp only
    split_ifs with hy
    · constructor
      · rintro ⟨⟩; exact ⟨rfl, hy⟩
      · rintro ⟨⟨⟩, -⟩; rfl
    · constructor
      · rintro ⟨⟩
      · rintro ⟨⟨⟩, hx⟩; exact absurd hx hy

theorem squareOperands_eq_some {hz duty volume : Quad} {v : Rat × Rat × Rat} :
    squareOperands hz duty volume = some v ↔
      hzOperand hz = some v.1 ∧ unitOperand duty = some v.2.1 ∧ unitOperand volume = some v.2.2 := by
  unfold squareOperands
  obtain ⟨f, d, u⟩ := v
  rcases hzOperand hz with _ | a <;> rcases unitOperand duty with _ | b <;> rcases unitOperand volume with _ | e <;>
    simp

theorem noiseOperands_eq_some {mode : NoiseMode} {hz volume : Quad} {v : Rat × Rat × NoiseMode} :
    noiseOperands mode hz volume = some v ↔
      hzOperand hz = some v.1 ∧ unitOperand volume = some v.2.1 ∧ v.2.2 = mode := by
  unfold noiseOperands
  obtain ⟨f, u, m⟩ := v
  rcases hzOperand hz with _ | a <;> rcases unitOperand volume with _ | e <;> simp [eq_comm]

/-! ### Frames and blocks -/

@[simp] theorem slotFrame_none {σ : Type} (f : σ → Rat × σ) : slotFrame f none = (0, none) := rfl
@[simp] theorem slotFrame_some {σ : Type} (f : σ → Rat × σ) (o : σ) : slotFrame f (some o) = ((f o).1, some (f o).2) :=
  rfl

@[simp] theorem blockSamples_zero (c : Params) (m : Rat) (n : Nat) (sl : Slots) : blockSamples c m 0 n sl = [] := rfl
@[simp] theorem blockSamples_succ (c : Params) (m : Rat) (count n : Nat) (sl : Slots) :
    blockSamples c m (count + 1) n sl =
      mixSample c m n sl :: blockSamples c m count (n + 1) (slotsAfterFrame c n sl) := rfl
@[simp] theorem slotsAfterBlock_zero (c : Params) (n : Nat) (sl : Slots) : slotsAfterBlock c 0 n sl = sl := rfl
@[simp] theorem slotsAfterBlock_succ (c : Params) (count n : Nat) (sl : Slots) :
    slotsAfterBlock c (count + 1) n sl = slotsAfterBlock c count (n + 1) (slotsAfterFrame c n sl) := rfl

/-- A block holds one sample for each frame asked for. -/
@[simp] theorem length_blockSamples (c : Params) (m : Rat) (count : Nat) :
    ∀ (n : Nat) (sl : Slots), (blockSamples c m count n sl).length = count := by
  induction count with
  | zero => simp
  | succ k ih => intro n sl; simp [ih]

/-- Good slots stay good over a frame. -/
theorem slotsAfterFrame_good {c : Params} {frame seq n : Nat} {sl : Slots} (h : sl.Good c frame seq) :
    (slotsAfterFrame c n sl).Good c (n + 1) seq := by
  obtain ⟨h1, h2, h3, h4⟩ := h
  obtain ⟨a, b, d, e⟩ := sl
  refine ⟨?_, ?_, ?_, ?_⟩
  · rcases a with _ | o
    · simp [slotsAfterFrame]
    · simpa [slotsAfterFrame] using pulseFrame_good (n := n) (h1 o rfl)
  · rcases b with _ | o
    · simp [slotsAfterFrame]
    · simpa [slotsAfterFrame] using pulseFrame_good (n := n) (h2 o rfl)
  · rcases d with _ | o
    · simp [slotsAfterFrame]
    · simpa [slotsAfterFrame] using triangleFrame_good (n := n) (h3 o rfl)
  · rcases e with _ | o
    · simp [slotsAfterFrame]
    · simpa [slotsAfterFrame] using noiseFrame_good (n := n) (h4 o rfl)

/-- Good slots stay good over a block. -/
theorem slotsAfterBlock_good {c : Params} {seq : Nat} (count : Nat) :
    ∀ {n : Nat} {sl : Slots}, sl.Good c n seq → (slotsAfterBlock c count n sl).Good c (n + count) seq := by
  induction count with
  | zero => intro n sl h; simpa using h
  | succ k ih =>
    intro n sl h
    have := ih (slotsAfterFrame_good (n := n) h)
    simpa [Nat.add_assoc, Nat.add_comm 1 k] using this

/-- A frame leaves every slot's status as it was. -/
theorem status_slotsAfterFrame (c : Params) (n : Nat) (sl : Slots) (i : Nat) :
    (slotsAfterFrame c n sl).status i = sl.status i := by
  obtain ⟨a, b, d, e⟩ := sl
  cases a <;> cases b <;> cases d <;> cases e <;> rfl

theorem status_slotsAfterBlock (c : Params) (count : Nat) :
    ∀ (n : Nat) (sl : Slots) (i : Nat), (slotsAfterBlock c count n sl).status i = sl.status i := by
  induction count with
  | zero => simp
  | succ k ih => intro n sl i; rw [slotsAfterBlock_succ, ih, status_slotsAfterFrame]

end Sys2Proof.Machine
end

