-- ==== Sys2Proof/Laws/PerInstr.lean ====
section
/-! SUPPORT. Per-instruction families. `TableRow`: the words of an instruction match its row of the opcode table. -/

namespace Sys2Proof.Laws.TableRow

/-- The header match, header mask and length of an instruction's row of the opcode table (`30_encoding.md`). -/
def row : Instr → Word × Word × Nat
  | .createChannels => (0x10000000#32, 0xFFFFFFFF#32, 1)
  | .reset => (0x20000000#32, 0xFFFFFFFF#32, 1)
  | .setMasterVolume _ => (0x30000000#32, 0xFFFFFFFF#32, 3)
  | .squareNote _ _ _ _ _ => (0x40000000#32, 0xFE3FFFFF#32, 9)
  | .triangleNote _ _ _ => (0x44000000#32, 0xFE3FFFFF#32, 5)
  | .noiseNote _ _ _ _ _ => (0x48000000#32, 0xFC3FFFFF#32, 7)
  | .renderBlock _ => (0x80000000#32, 0xFFFF0000#32, 1)
  | .initDone _ _ _ => (0x90000000#32, 0xF3F0FFFF#32, 3)

/-- The header of an instruction has the bits its row fixes, and it has as many words as its row says. -/
def Statement (i : Instr) : Prop :=
  (encode i).headD 0#32 &&& (row i).2.1 = (row i).1 ∧ (encode i).length = (row i).2.2

/-- The bits a DISPATCH row fixes do not depend on the channel. -/
theorem dispatchHeader_masked (var : BitVec 2) (mode : BitVec 1) (ch : Nat) (mask value : Word)
    (h : ∀ (v : BitVec 2) (m : BitVec 1) (c : BitVec 3), v = var → m = mode →
      headerWord 4#4 v m c 0#6 0#16 &&& mask = value) :
    dispatchHeader var mode ch &&& mask = value := h var mode _ rfl rfl

theorem createChannels : Statement .createChannels := by unfold Statement; decide

theorem reset : Statement .reset := by unfold Statement; decide

theorem setMasterVolume (v : Quad) : Statement (.setMasterVolume v) :=
  ⟨by simp only [encode, List.headD_cons, row]; decide, rfl⟩

theorem squareNote (ch eff : Nat) (hz duty volume : Quad) : Statement (.squareNote ch eff hz duty volume) :=
  ⟨dispatchHeader_masked _ _ _ _ _ (by rintro _ _ c rfl rfl; revert c; simp only [row]; decide), rfl⟩

theorem triangleNote (ch eff : Nat) (hz : Quad) : Statement (.triangleNote ch eff hz) :=
  ⟨dispatchHeader_masked _ _ _ _ _ (by rintro _ _ c rfl rfl; revert c; simp only [row]; decide), rfl⟩

theorem noiseNote (ch : Nat) (mode : NoiseMode) (eff : Nat) (hz volume : Quad) :
    Statement (.noiseNote ch mode eff hz volume) :=
  ⟨dispatchHeader_masked _ _ _ _ _ (by rintro _ m c rfl -; revert m c; simp only [row]; decide), rfl⟩

theorem renderBlock (frames : Nat) : Statement (.renderBlock frames) := by
  refine ⟨?_, rfl⟩
  simp only [encode, List.headD_cons, row]
  generalize BitVec.ofNat 16 frames = f
  apply BitVec.eq_of_getLsbD_eq
  intro i hi
  simp only [headerWord, BitVec.getLsbD_and, BitVec.getLsbD_append]
  by_cases h : i < 16
  · simp only [h, if_true]
    have : (0xFFFF0000#32).getLsbD i = false := by interval_cases i <;> decide
    have h8 : (0x80000000#32).getLsbD i = false := by interval_cases i <;> decide
    rw [this, h8, Bool.and_false]
  · simp only [h, if_false]
    interval_cases i <;> first | omega | decide

theorem initDone (result : InitResult) (ready : BitVec 4) (g : Nat) : Statement (.initDone result ready g) := by
  refine ⟨?_, rfl⟩
  simp only [encode, List.headD_cons, row]
  revert ready
  cases result <;> decide

end Sys2Proof.Laws.TableRow
end

