-- ==== Sys2Proof/Laws/Step.lean ====
section
/-! SUPPORT. What one step can do, one lemma per action, and the outcomes of `exec` by instruction. -/

namespace Sys2Proof.Machine

@[simp] theorem step_idle {s : State} (h : s.moves = []) : step s = .next s := by simp [step, h]

/-- A step is the next action of the list, on the state with that action taken off it. -/
theorem step_move {s : State} {m : Move} {ms : List Move} (h : s.moves = m :: ms) :
    step s = performMove m { s with moves := ms } := by simp [step, h]

@[simp] theorem performMove_apply (s : State) : performMove .apply s = applyHead s := rfl
@[simp] theorem performMove_complete (g : Nat) (ok : Draw) (s : State) :
    performMove (.complete g ok) s = completeGeneration g ok s := rfl
@[simp] theorem performMove_render (s : State) : performMove .render s = serveRequest s := rfl
@[simp] theorem performMove_hostWrite (w : Word) (s : State) : performMove (.hostWrite w) s = .next (s.hostWrite w) := rfl
@[simp] theorem performMove_hostRead (s : State) : performMove .hostRead s = .next s.hostRead := rfl
@[simp] theorem performMove_sinkRequest (w : Word) (s : State) :
    performMove (.sinkRequest w) s = .next (s.sinkRequest w) := rfl
@[simp] theorem performMove_sinkTake (s : State) : performMove .sinkTake s = .next s.sinkTake := rfl

/-- A run of any machine goes on from the state its first step answers. -/
theorem run_succ_of_step {M : Host.Core} {s t : M.State} (k : Nat) (h : M.step s = .next t) :
    M.run (k + 1) s = M.run k t := by rw [Host.Core.run, h]

theorem run_zero (s : State) : Sys2Proof.core.run 0 s = .next s := rfl

/-- A run of this machine goes on from the state its first step answers. -/
theorem run_succ_of_next {s t : State} (k : Nat) (h : step s = .next t) :
    Sys2Proof.core.run (k + 1) s = Sys2Proof.core.run k t := run_succ_of_step (M := Sys2Proof.core) k h

/-- Everything APPLY can do. -/
theorem applyHead_cases (s : State) :
    (∃ i rest, decodeCommand s.cmdq = .ok (i, rest) ∧ applyHead s = exec i { s with cmdq := rest }) ∨
    (∃ why, decodeCommand s.cmdq = .error (.reserved why) ∧ applyHead s = .next { s with cmdq := s.cmdq.tail }) ∨
    ((decodeCommand s.cmdq = .error .noWord ∨ ∃ n, decodeCommand s.cmdq = .error (.incomplete n)) ∧
      applyHead s = .next s) := by
  unfold applyHead
  split
  · rename_i i rest h; exact .inl ⟨i, rest, h, rfl⟩
  · rename_i why h; exact .inr (.inl ⟨why, h, rfl⟩)
  · rename_i h; exact .inr (.inr ⟨.inl h, rfl⟩)
  · rename_i n h; exact .inr (.inr ⟨.inr ⟨n, h⟩, rfl⟩)

/-- A header of the command port begins a command of the command port. -/
theorem decodeOperands_port {h : Header} {ws rest : List Word} {i : Instr} (hd : decodeOperands h ws = .ok (i, rest)) :
    i.port = .command := by
  unfold decodeOperands at hd
  split at hd <;> simp_all <;> obtain ⟨rfl, rfl⟩ := hd <;> rfl

theorem decodeCommand_port {ws rest : List Word} {i : Instr} (hd : decodeCommand ws = .ok (i, rest)) :
    i.port = .command := by
  unfold decodeCommand at hd
  split at hd
  · simp at hd
  · split at hd
    · simp at hd
    · exact decodeOperands_port hd

/-- The render port's decoder gives only RENDER_BLOCK. -/
theorem decodeRender_eq_ok {w : Word} {i : Instr} (h : decodeRender w = .ok i) :
    i = .renderBlock (framesField w).toNat := by
  unfold decodeRender at h
  split_ifs at h
  simp_all

/-- Everything serving a request can do: render, discard a RESERVED word, or nothing where there is no request. -/
theorem serveRequest_cases (s : State) :
    (s.request = none ∧ serveRequest s = .next s) ∨
    (∃ w why, s.request = some w ∧ decodeRender w = .error why ∧ serveRequest s = .next { s with request := none }) ∨
    (∃ w, s.request = some w ∧ decodeRender w = .ok (.renderBlock (framesField w).toNat) ∧
      serveRequest s = .next (State.renderBlock { s with request := none } (framesField w).toNat)) := by
  unfold serveRequest
  split
  · rename_i h; exact .inl ⟨h, rfl⟩
  · rename_i w h
    split
    · rename_i i hi
      have := decodeRender_eq_ok hi
      subst this
      exact .inr (.inr ⟨w, h, hi, rfl⟩)
    · rename_i why hw; exact .inr (.inl ⟨w, why, h, hw, rfl⟩)

/-- An INIT_DONE runs the completion that sends it. -/
theorem exec_initDoneOf {s : State} {g : Nat} (h : g ∈ s.pending) (ok : Draw) :
    exec (s.initDoneOf g ok) s = .next (s.complete g ok) := by
  simp only [State.initDoneOf, exec, execInitDone, State.reportOf_ofMask, h, true_and, if_true, State.complete_ofMask]

/-- Everything completing a generation can do. -/
theorem completeGeneration_cases (g : Nat) (ok : Draw) (s : State) :
    (g ∈ s.pending ∧ completeGeneration g ok s = .next (s.complete g ok)) ∨
    (g ∉ s.pending ∧ completeGeneration g ok s = .next s) := by
  unfold completeGeneration
  split
  · rename_i h; exact .inl ⟨h, exec_initDoneOf h ok⟩
  · rename_i h; exact .inr ⟨h, rfl⟩

/-- If a command answers a next state, it is one of these. -/
theorem exec_command_next {i : Instr} {s t : State} (hp : i.port = .command) (h : exec i s = .next t) :
    (i = .createChannels ∧ t = s.issue) ∨ (i = .reset ∧ t = s.emptySlots.issue) ∨
    (∃ v x, i = .setMasterVolume v ∧ unitOperand v = some x ∧ t = { s with master := x }) ∨
    (∃ ch eff hz duty volume, i = .squareNote ch eff hz duty volume ∧
      t = { s with seq := s.seq + 1, slots := t.slots } ∧
      (t.slots = s.slots ∨ ∃ v o, squareOperands hz duty volume = some v ∧ s.slots.pulseAt ch = some o ∧
        o.anyFull s.cfg.capacity = false ∧
        t.slots = s.slots.setPulse ch (o.scheduleNote v (effectiveFrame eff s.frame) s.seq))) ∨
    (∃ ch eff hz, i = .triangleNote ch eff hz ∧ t = { s with seq := s.seq + 1, slots := t.slots } ∧
      (t.slots = s.slots ∨ ∃ v o, hzOperand hz = some v ∧ s.slots.triangleAt ch = some o ∧
        o.freq.full s.cfg.capacity = false ∧
        t.slots = s.slots.setTriangle (o.scheduleNote v (effectiveFrame eff s.frame) s.seq))) ∨
    (∃ ch mode eff hz volume, i = .noiseNote ch mode eff hz volume ∧
      t = { s with seq := s.seq + 1, slots := t.slots } ∧
      (t.slots = s.slots ∨ ∃ v o, noiseOperands mode hz volume = some v ∧ s.slots.noiseAt ch = some o ∧
        o.anyFull s.cfg.capacity = false ∧
        t.slots = s.slots.setNoise (o.scheduleNote v (effectiveFrame eff s.frame) s.seq))) := by
  cases i with
  | createChannels => cases h; exact .inl ⟨rfl, rfl⟩
  | reset => cases h; exact .inr (.inl ⟨rfl, rfl⟩)
  | setMasterVolume v =>
    simp only [exec, execSetMasterVolume] at h
    split at h
    · cases h
    · rename_i x hx
      cases h
      exact .inr (.inr (.inl ⟨v, x, rfl, hx, rfl⟩))
  | squareNote ch eff hz duty volume =>
    simp only [exec, execSquareNote] at h
    obtain ⟨ht, hs⟩ := dispatch_next h
    exact .inr (.inr (.inr (.inl ⟨ch, eff, hz, duty, volume, rfl, ht, hs⟩)))
  | triangleNote ch eff hz =>
    simp only [exec, execTriangleNote] at h
    obtain ⟨ht, hs⟩ := dispatch_next h
    exact .inr (.inr (.inr (.inr (.inl ⟨ch, eff, hz, rfl, ht, hs⟩))))
  | noiseNote ch mode eff hz volume =>
    simp only [exec, execNoiseNote] at h
    obtain ⟨ht, hs⟩ := dispatch_next h
    exact .inr (.inr (.inr (.inr (.inr ⟨ch, mode, eff, hz, volume, rfl, ht, hs⟩))))
  | renderBlock n => cases hp
  | initDone r m g => cases hp

/-- Everything a step that answers a next state can have done. -/
theorem step_next {s t : State} (h : step s = .next t) :
    (s.moves = [] ∧ t = s) ∨
    (∃ ms i rest, s.moves = .apply :: ms ∧ decodeCommand s.cmdq = .ok (i, rest) ∧
      exec i { s with moves := ms, cmdq := rest } = .next t) ∨
    (∃ ms q, s.moves = .apply :: ms ∧ t = { s with moves := ms, cmdq := q } ∧
      ((∃ why, decodeCommand s.cmdq = .error (.reserved why) ∧ q = s.cmdq.tail) ∨
        (decodeCommand s.cmdq = .error .noWord ∨ ∃ n, decodeCommand s.cmdq = .error (.incomplete n)) ∧ q = s.cmdq)) ∨
    (∃ ms g ok, s.moves = .complete g ok :: ms ∧ g ∈ s.pending ∧ t = State.complete { s with moves := ms } g ok) ∨
    (∃ ms g ok, s.moves = .complete g ok :: ms ∧ g ∉ s.pending ∧ t = { s with moves := ms }) ∨
    (∃ ms w, s.moves = .render :: ms ∧ s.request = some w ∧
      decodeRender w = .ok (.renderBlock (framesField w).toNat) ∧
      t = State.renderBlock { s with moves := ms, request := none } (framesField w).toNat) ∨
    (∃ ms, s.moves = .render :: ms ∧ t = { s with moves := ms, request := none } ∧
      (s.request = none ∨ ∃ w why, s.request = some w ∧ decodeRender w = .error why)) ∨
    (∃ ms w, s.moves = .hostWrite w :: ms ∧ t = State.hostWrite { s with moves := ms } w) ∨
    (∃ ms, s.moves = .hostRead :: ms ∧ t = State.hostRead { s with moves := ms }) ∨
    (∃ ms w, s.moves = .sinkRequest w :: ms ∧ t = State.sinkRequest { s with moves := ms } w) ∨
    (∃ ms, s.moves = .sinkTake :: ms ∧ t = State.sinkTake { s with moves := ms }) := by
  rcases hm : s.moves with _ | ⟨m, ms⟩
  · rw [step_idle hm] at h; cases h; exact .inl ⟨rfl, rfl⟩
  rw [step_move hm] at h
  cases m with
  | hostWrite w => cases h; simp
  | hostRead => cases h; simp
  | sinkRequest w => cases h; simp
  | sinkTake => cases h; simp
  | apply =>
    rw [performMove_apply] at h
    rcases applyHead_cases { s with moves := ms } with ⟨i, rest, hd, he⟩ | ⟨why, hd, he⟩ | ⟨hd, he⟩ <;> rw [he] at h
    · exact .inr (.inl ⟨ms, i, rest, rfl, hd, h⟩)
    · cases h; exact .inr (.inr (.inl ⟨ms, _, rfl, rfl, .inl ⟨why, hd, rfl⟩⟩))
    · cases h; exact .inr (.inr (.inl ⟨ms, s.cmdq, rfl, rfl, .inr ⟨hd, rfl⟩⟩))
  | complete g ok =>
    rw [performMove_complete] at h
    rcases completeGeneration_cases g ok { s with moves := ms } with ⟨hg, he⟩ | ⟨hg, he⟩ <;> rw [he] at h <;> cases h
    · exact .inr (.inr (.inr (.inl ⟨ms, g, ok, rfl, hg, rfl⟩)))
    · exact .inr (.inr (.inr (.inr (.inl ⟨ms, g, ok, rfl, hg, rfl⟩))))
  | render =>
    rw [performMove_render] at h
    rcases serveRequest_cases { s with moves := ms } with ⟨hn, he⟩ | ⟨w, why, hw, hd, he⟩ | ⟨w, hw, hd, he⟩ <;>
      rw [he] at h <;> cases h
    · refine .inr (.inr (.inr (.inr (.inr (.inr (.inl ⟨ms, rfl, ?_, .inl hn⟩))))))
      dsimp only at hn
      rw [← hn]
    · exact .inr (.inr (.inr (.inr (.inr (.inr (.inl ⟨ms, rfl, rfl, .inr ⟨w, why, hw, hd⟩⟩))))))
    · exact .inr (.inr (.inr (.inr (.inr (.inl ⟨ms, w, rfl, hw, hd, rfl⟩)))))

end Sys2Proof.Machine
end

