-- ==== Sys2Proof/Tests/Slice0.lean ====
section
/-! SUPPORT. The model's own tests: ill-formed terms that WellFormed refuses, words written out from `30_encoding.md`,
single steps with results taken from `95_test_vectors.md`, and a witness for the hypotheses of every obligation. -/

namespace Sys2Proof.Tests

-- One theorem at a time: many kernel evaluations at once need more memory than the check allows.
set_option Elab.async false

open Sys2Proof Sys2Proof.Machine

/-! ### WellFormed refuses what no encoding holds -/

/-- Rule R85: `CH` has three bits. -/
theorem test_channel_eight_is_ill_formed :
    (Instr.squareNote 8 0 0 0 0).wellFormed = false ∧ (Instr.triangleNote 8 0 0).wellFormed = false ∧
      (Instr.noiseNote 8 .long 0 0 0).wellFormed = false ∧ (Instr.squareNote 7 0 0 0 0).wellFormed = true := by decide

/-- Rule R86: `AT` and a generation have 64 bits. -/
theorem test_frame_operand_past_64_bits_is_ill_formed :
    (Instr.squareNote 1 (2 ^ 64) 0 0 0).wellFormed = false ∧ (Instr.triangleNote 3 (2 ^ 64) 0).wellFormed = false ∧
      (Instr.noiseNote 4 .short (2 ^ 64) 0 0).wellFormed = false ∧
      (Instr.initDone .ok 15#4 (2 ^ 64)).wellFormed = false ∧
      (Instr.triangleNote 3 (2 ^ 64 - 1) 0).wellFormed = true := by decide

/-- Rule R88: `FRAMES` has 16 bits. -/
theorem test_frame_count_past_16_bits_is_ill_formed :
    (Instr.renderBlock 65536).wellFormed = false ∧ (Instr.renderBlock 65535).wellFormed = true := by decide

/-- Rules R92 and R191: each RESULT with a READY mask it cannot have, and RESULT `11`. -/
theorem test_result_and_ready_must_agree :
    (Instr.initDone .ok 14#4 1).wellFormed = false ∧ (Instr.initDone .failed 15#4 1).wellFormed = false ∧
      (Instr.initDone .stale 1#4 1).wellFormed = false ∧ (Instr.initDone .unsent 0#4 1).wellFormed = false ∧
      (Instr.initDone .failed 11#4 1).wellFormed = true := by decide

/-! ### Words from the encoding tables (rules R81 to R92; `95_test_vectors.md` sections 2.8 and 3) -/

theorem test_decode_create_channels : decodeTableWord 32 0x10000000 = some .createChannels := by decide

theorem test_decode_reset : decodeTableWord 32 0x20000000 = some .reset := by decide

/-- `master 0.5`: the low word of the operand is the second word. -/
theorem test_decode_set_master_volume :
    decodeTableWord 96 0x3FE000000000000030000000 = some (.setMasterVolume 0x3FE0000000000000#64) := by decide

/-- `square 1, 440, 0.5, 1.0`, and from `CH = 7` the two bits above it stay 0. -/
theorem test_decode_square_note :
    decodeCommand [0x40400000#32, 0, 0, 0, 0x407B8000#32, 0, 0x3FE00000#32, 0, 0x3FF00000#32] =
      .ok (.squareNote 1 0 0x407B800000000000#64 0x3FE0000000000000#64 0x3FF0000000000000#64, []) ∧
    decodeHeader 0x41C00000#32 = .ok (.squareNote 7#3) := ⟨rfl, rfl⟩

/-- `triangle 3, 880 @ 64`, and an `AT` of 2^32, whose high word is 1. -/
theorem test_decode_triangle_note :
    decodeCommand [0x44C00000#32, 0x40#32, 0, 0, 0x408B8000#32] =
      .ok (.triangleNote 3 64 0x408B800000000000#64, []) ∧
    decodeCommand [0x44C00000#32, 0, 1, 0, 0x408B8000#32] =
      .ok (.triangleNote 3 4294967296 0x408B800000000000#64, []) := ⟨rfl, rfl⟩

/-- `noise 4, 4000, 1.0, short @ 20` and its `long` header. -/
theorem test_decode_noise_note :
    decodeCommand [0x4B000000#32, 0x14#32, 0, 0, 0x40AF4000#32, 0, 0x3FF00000#32] =
      .ok (.noiseNote 4 .short 20 0x40AF400000000000#64 0x3FF0000000000000#64, []) ∧
    decodeHeader 0x49000000#32 = .ok (.noiseNote 4#3 .long) ∧
    decodeHeader 0x49400000#32 = .ok (.noiseNote 5#3 .long) := ⟨rfl, rfl, rfl⟩

theorem test_decode_render_block :
    decodeTableWord 32 0x80000004 = some (.renderBlock 4) ∧ decodeRender 0x8000FFFF#32 = .ok (.renderBlock 65535) :=
  ⟨by decide, rfl⟩

/-- OK with all four slots for generation 1, and FAILED with READY `1011`. -/
theorem test_decode_init_done :
    decodeResponse [0x900F0000#32, 1, 0] = .ok (.initDone .ok 15#4 1, []) ∧
      decodeResponse [0x940B0000#32, 1, 0] = .ok (.initDone .failed 11#4 1, []) ∧
      decodeResponse [0x98000000#32, 2, 0] = .ok (.initDone .stale 0#4 2, []) := ⟨rfl, rfl, rfl⟩

/-- The RESERVED words of `95_test_vectors.md` section 2.8. -/
theorem test_reserved_words :
    decodeHeader 0x00000000#32 = .error .noSuchOp ∧ decodeHeader 0x10000001#32 = .error .unusedFieldNotZero ∧
      decodeHeader 0x42400000#32 = .error .unusedFieldNotZero ∧ decodeHeader 0x4C000000#32 = .error .noSuchVariant ∧
      decodeHeader 0x40410000#32 = .error .rsvNotZero ∧ decodeHeader 0x40400001#32 = .error .unusedFieldNotZero ∧
      decodeHeader 0x50000000#32 = .error .noSuchOp ∧ decodeHeader 0x80000004#32 = .error .otherPort ∧
      decodeHeader 0x407B8000#32 = .error .rsvNotZero ∧ decodeRender 0x80010000#32 = .error .unusedFieldNotZero ∧
      decodeRender 0x10000000#32 = .error .otherPort := by
  refine ⟨?_, ?_, ?_, ?_, ?_, ?_, ?_, ?_, ?_, ?_, ?_⟩ <;> rfl

/-- Rule R91: a command whose words are not all there is no instruction yet. -/
theorem test_incomplete_command : decodeCommand [0x44C00000#32, 0, 0, 0] = .error (.incomplete 5) := rfl

/-- Rules R14 and R86: patterns of `95_test_vectors.md` section 2.8, the least positive number, and what has no value. -/
theorem test_binary64_patterns :
    f64 0x40E5888000000000#64 = some 44100 ∧ f64 0x3FC0000000000000#64 = some (1 / 8) ∧
      f64 0xBFE0000000000000#64 = some (-1 / 2) ∧ f64 1#64 = some (mkRat 1 (2 ^ 1074)) ∧
      f64 0x7FF0000000000000#64 = none ∧ f64 0x7FF8000000000000#64 = none := by decide +kernel

/-! ### Small states -/

/-- The parameters of `95_test_vectors.md`: exact arithmetic at 8000 samples per second, unbounded automation. -/
def cfg8000 : Params := ⟨.exact, 8000, none, 0⟩

/-- Four fresh slots. -/
def freshSlots : Slots := ⟨some defaultPulse, some defaultPulse, some defaultTriangle, some defaultNoise⟩

/-- The state after boot of `95_test_vectors.md`, with a list of actions to come. -/
def booted (moves : List Move) : State :=
  { State.reset with pending := [], slots := freshSlots, moves := moves, cfg := cfg8000 }

/-- The state after power-on with those parameters, and a list of actions to come. -/
def powered (moves : List Move) : State := { State.reset with moves := moves, cfg := cfg8000 }

/-- The next state of an outcome. -/
def after (o : Host.Outcome State Fault Refusal) : Option State :=
  match o with
  | .next t => some t
  | .fault _ => none
  | .refused _ => none

/-- The refusal of an outcome. -/
def refusalOf (o : Host.Outcome State Fault Refusal) : Option Refusal :=
  match o with
  | .next _ => none
  | .fault _ => none
  | .refused r => some r

theorem next_of_after {o : Host.Outcome State Fault Refusal} (h : (after o).isSome = true) : ∃ t, o = .next t := by
  cases o with
  | next t => exact ⟨t, rfl⟩
  | fault f => cases h
  | refused r => cases h

theorem refused_of_refusalOf {o : Host.Outcome State Fault Refusal} {r : Refusal} (h : refusalOf o = some r) :
    o = .refused r := by
  cases o with
  | next t => cases h
  | fault f => cases h
  | refused q => cases h; rfl

/-! ### One step each (`95_test_vectors.md` sections 2.4 to 2.7) -/

theorem test_create_channels :
    (after (exec .createChannels (booted []))).map (fun t => (t.gen, t.pending, t.slots)) =
      some (2, [2], freshSlots) := by decide +kernel

theorem test_reset :
    (after (exec .reset { powered [] with master := 1 / 2, slots := freshSlots })).map
      (fun t => (t.gen, t.pending, t.slots, t.master)) = some (2, [1, 2], Slots.absent, 1 / 2) := by decide +kernel

theorem test_set_master_volume :
    (after (exec (.setMasterVolume 0x3FE0000000000000#64) (booted []))).map (·.master) = some (1 / 2) := by
  decide +kernel

/-- `master 2.0` is refused. -/
theorem test_set_master_volume_range :
    refusalOf (exec (.setMasterVolume 0x4000000000000000#64) (booted [])) = some .operandRange := by decide +kernel

/-- `square 1, 2000, 0.5, 1.0` gives slot 1 the entries `(2000,0,0)`, `(0.5,0,0)`, `(1,0,0)`. -/
theorem test_square_note :
    (after (exec (.squareNote 1 0 0x409F400000000000#64 0x3FE0000000000000#64 0x3FF0000000000000#64) (booted []))).map
      (fun t => (t.seq, t.slots)) =
    some (1, { freshSlots with
      slot1 := some ⟨0, ⟨440, [⟨2000, 0, 0⟩]⟩, ⟨1 / 2, [⟨1 / 2, 0, 0⟩]⟩, ⟨0, [⟨1, 0, 0⟩]⟩⟩ }) := by decide +kernel

/-- `square 3, 0, 0.5, 1.0`: the range check comes before routing. -/
theorem test_square_note_range_before_route :
    refusalOf (exec (.squareNote 3 0 0 0x3FE0000000000000#64 0x3FF0000000000000#64) (booted [])) =
      some .operandRange := by decide +kernel

/-- `triangle 3, 880 @ 64`: 440 at frame 63, 880 at frame 64. -/
theorem test_triangle_note :
    (after (exec (.triangleNote 3 64 0x408B800000000000#64) (booted []))).bind
      (fun t => t.slots.slot3.map fun o => (o.freq.inForce 63, o.freq.inForce 64)) = some (440, 880) := by
  decide +kernel

/-- `triangle 4, 440` is dropped: only `SEQ` changes. -/
theorem test_triangle_note_dropped :
    (after (exec (.triangleNote 4 0 0x407B800000000000#64) (booted []))) = some { booted [] with seq := 1 } := by
  decide +kernel

/-- A note applied at frame 10 with `AT = 3` takes effect at frame 10. -/
theorem test_noise_note_late :
    (after (exec (.noiseNote 4 .short 3 0x409F400000000000#64 0x3FF0000000000000#64)
      { booted [] with frame := 10 })).bind (fun t => t.slots.slot4.map fun o => (o.mode.pend, o.lfsr, o.seqMode)) =
    some ([⟨.short, 10, 0⟩], 1#15, .long) := by decide +kernel

/-- `noise 7, 440, 1.0, short` is dropped. -/
theorem test_noise_note_no_slot :
    (after (exec (.noiseNote 7 .short 0 0x407B800000000000#64 0x3FF0000000000000#64) (booted []))) =
      some { booted [] with seq := 1 } := by decide +kernel

/-- Two pulses at volume 1 and 2000 Hz: `render 4` gives `[2, 2, -2, -2]`. -/
theorem test_render_block :
    (after (exec (.renderBlock 4)
      { booted [] with slots := { freshSlots with
          slot1 := some ⟨0, ⟨2000, []⟩, ⟨1 / 2, []⟩, ⟨1, []⟩⟩
          slot2 := some ⟨0, ⟨2000, []⟩, ⟨1 / 2, []⟩, ⟨1, []⟩⟩ } })).map
      (fun t => (t.rendered, t.frame)) = some ([[2, 2, -2, -2]], 4) := by decide +kernel

/-- Power-on with no completion yet: `render 8` gives eight zeros and `FRAME = 8`. -/
theorem test_render_block_silent :
    (after (exec (.renderBlock 8) (powered []))).map (fun t => (t.rendered, t.frame, t.slots)) =
      some ([[0, 0, 0, 0, 0, 0, 0, 0]], 8, Slots.absent) := by decide +kernel

/-- Power-on, completion of generation 1 with slot 3 failed. -/
theorem test_init_done_failed :
    (after (exec (.initDone .failed 11#4 1) (powered []))).map (fun t => (t.pending, t.slots, t.respq)) =
      some ([], { freshSlots with slot3 := none }, [0x940B0000#32, 1, 0]) := by decide +kernel

/-- `GEN = 3`, `PENDING = {2, 3}`, completion of 2: STALE, slots unchanged. -/
theorem test_init_done_stale :
    (after (exec (.initDone .stale 0#4 2) { booted [] with gen := 3, pending := [2, 3] })).map
      (fun t => (t.pending, t.slots, t.respq)) = some ([3], freshSlots, [0x98000000#32, 2, 0]) := by decide +kernel

/-! ### Oscillator and register vectors (`95_test_vectors.md` sections 2.1 to 2.4) -/

/-- Rule R113's example: from 1 in Long mode the register becomes `0x4000` and the bit is `true`. -/
theorem test_ns_next : nextRegister .long 1#15 = 0x4000#15 ∧ registerBit 0x4000#15 = true := by decide

/-- A pulse whose phase equals its duty gives `-v`; 1.125 wraps to 0.125. -/
theorem test_pulse_sample :
    (pulseSample cfg8000 0 ⟨1 / 4, ⟨2000, []⟩, ⟨1 / 4, []⟩, ⟨1, []⟩⟩).1 = -1 ∧
      (pulseSample cfg8000 0 ⟨7 / 8, ⟨2000, []⟩, ⟨1 / 2, []⟩, ⟨1, []⟩⟩).2.phase = 1 / 8 := by decide +kernel

/-- With `TRIANGLE_VOLUME = 1` and 1000 Hz the samples are `-1, -0.5, 0, 0.5, 1, 0.5, 0, -0.5, -1`. -/
theorem test_triangle_shape :
    (renderSlot (triangleFrame { cfg8000 with triangleVolume := 1 }) 9 0 ⟨0, ⟨1000, []⟩⟩).1 =
      [-1, -1 / 2, 0, 1 / 2, 1, 1 / 2, 0, -1 / 2, -1] := by decide +kernel

/-- Increment 0.75, 8 samples: `0, 1, 1, 1, 1, 1, 1, 1`, register `0x0200` and phase 0 at the end. -/
theorem test_noise_increment :
    (renderSlot (noiseFrame cfg8000) 8 0 { defaultNoise with freq := ⟨6000, []⟩ }).1 = [0, 1, 1, 1, 1, 1, 1, 1] ∧
      (renderSlot (noiseFrame cfg8000) 8 0 { defaultNoise with freq := ⟨6000, []⟩ }).2 =
        { defaultNoise with freq := ⟨6000, []⟩, lfsr := 0x0200#15, level := true } := by decide +kernel

/-- Rounding to binary64: 1/3 and a tie to even past 2^53. -/
theorem test_round64 :
    round64 (1 / 3) = mkRat 6004799503160661 (2 ^ 54) ∧ round64 (2 ^ 53 + 1) = 2 ^ 53 ∧
      round64 (2 ^ 53 + 3) = 2 ^ 53 + 4 := by decide +kernel

/-! ### A good state, for the witnesses -/

theorem booted_inv (moves : List Move) : (booted moves).Inv := by
  refine ⟨(by decide +kernel : cfg8000.wf), (by decide +kernel : unitOk 1), by simp [booted], by simp [booted], ?_, ?_, ?_, ?_⟩ <;>
    rintro o ⟨⟩ <;> simp [defaultPulse_good, defaultTriangle_good, defaultNoise_good]

/-- The same state computing in binary64. -/
def booted64 (moves : List Move) : State := { booted moves with cfg := ⟨.binary64, 8000, some 1, 0⟩ }

theorem booted64_inv (moves : List Move) : (booted64 moves).Inv := by
  refine ⟨(by decide +kernel : Params.wf ⟨.binary64, 8000, some 1, 0⟩), (by decide +kernel : unitOk 1),
    by simp [booted64, booted], by simp [booted64, booted], ?_, ?_, ?_, ?_⟩ <;>
    rintro o ⟨⟩ <;> simp [defaultPulse_good, defaultTriangle_good, defaultNoise_good]

theorem booted64_numeric (moves : List Move) : (booted64 moves).Numeric := by
  have h : ∀ z ∈ [(0 : Rat), 1, 440, 1 / 2], isNumber .binary64 z := by decide +kernel
  have hp : ∀ z ∈ [(0 : Rat), 1, 440, 1 / 2], (Param.constant z).Numeric .binary64 :=
    fun z hz => ⟨h z hz, by simp⟩
  refine ⟨(by decide +kernel : Params.Numeric ⟨.binary64, 8000, some 1, 0⟩), h 1 (by simp), ⟨?_, ?_, ?_, ?_⟩,
    by simp [booted64, booted, State.reset]⟩
  · rintro o ⟨⟩
    exact ⟨h 0 (by simp), hp 440 (by simp), hp (1 / 2) (by simp), hp 0 (by simp)⟩
  · rintro o ⟨⟩
    exact ⟨h 0 (by simp), hp 440 (by simp), hp (1 / 2) (by simp), hp 0 (by simp)⟩
  · rintro o ⟨⟩
    exact ⟨h 0 (by simp), hp 440 (by simp)⟩
  · rintro o ⟨⟩
    exact ⟨h 0 (by simp), hp 440 (by simp), hp 1 (by simp)⟩

/-! ### Witnesses: for every obligation with hypotheses, a state and operands that meet all of them, and a boundary
value for each clause -/

/-- A render of two frames by every slot, from a good binary64 state. -/
theorem witness_StepKeepsTheInvariant :
    (booted64 [.render]).Inv ∧ (booted64 [.render]).Numeric ∧
      ∃ t, step { booted64 [.render] with request := some 0x80000002#32 } = .next t :=
  ⟨booted64_inv _, booted64_numeric _, next_of_after (by decide +kernel)⟩

theorem witness_StepKeepsNumericsValues :
    (booted64 [.sinkTake]).Inv ∧ (booted64 [.sinkTake]).Numeric ∧ ∃ t, step (booted64 [.sinkTake]) = .next t :=
  ⟨booted64_inv _, booted64_numeric _, ⟨_, rfl⟩⟩

/-- One well-formed instruction of each row, with every field at its largest value. -/
theorem witness_DecodeOfEncodeIsTheInstruction :
    Instr.createChannels.wellFormed = true ∧ Instr.reset.wellFormed = true ∧
      (Instr.setMasterVolume (BitVec.allOnes 64)).wellFormed = true ∧
      (Instr.squareNote 7 (2 ^ 64 - 1) (BitVec.allOnes 64) (BitVec.allOnes 64) (BitVec.allOnes 64)).wellFormed = true ∧
      (Instr.triangleNote 7 (2 ^ 64 - 1) (BitVec.allOnes 64)).wellFormed = true ∧
      (Instr.noiseNote 7 .short (2 ^ 64 - 1) (BitVec.allOnes 64) (BitVec.allOnes 64)).wellFormed = true ∧
      (Instr.renderBlock 65535).wellFormed = true ∧ (Instr.initDone .ok 15#4 (2 ^ 64 - 1)).wellFormed = true := by decide

/-- Accepted words of each port. -/
theorem witness_EncodeOfDecodeIsTheWords :
    decodePort .command [0x10000000#32, 7] = .ok (.createChannels, [7]) ∧
      decodePort .render [0x80000000#32] = .ok (.renderBlock 0, []) ∧
      decodePort .response [0x94000000#32, 1, 0] = .ok (.initDone .failed 0#4 1, []) := ⟨rfl, rfl, rfl⟩

theorem witness_Binary64PatternRoundTrip :
    (f64 0#64 = some 0 ∧ 0#64 ≠ 0x8000000000000000#64) ∧
      (f64 0xFFEFFFFFFFFFFFFF#64).isSome = true ∧ 0xFFEFFFFFFFFFFFFF#64 ≠ 0x8000000000000000#64 := by decide +kernel

/-- A whole command, a RESERVED word, an incomplete command and an empty queue. -/
theorem witness_StepAppliesTheHeadCommand :
    (booted [.apply]).moves = [.apply] ∧
      decodeCommand [0x20000000#32] = .ok (.reset, []) ∧ decodeHeader 0x50000000#32 = .error .noSuchOp ∧
      decodeCommand [0x30000000#32, 0] = .error (.incomplete 3) ∧ (booted [.apply]).cmdq = [] :=
  ⟨rfl, rfl, rfl, rfl, rfl⟩

theorem witness_StepServesTheRenderRequest :
    (booted [.render]).moves = [.render] ∧ ({ booted [.render] with request := some 0x80000000#32 }).request.isSome = true ∧
      decodeRender 0x80000000#32 = .ok (.renderBlock 0) ∧ decodeRender 0x80010000#32 = .error .unusedFieldNotZero :=
  ⟨rfl, rfl, rfl, rfl⟩

theorem witness_StepCompletesAPendingGeneration :
    (powered [.complete 1 Draw.allLoaded]).moves = [.complete 1 Draw.allLoaded] ∧
      1 ∈ (powered [.complete 1 Draw.allLoaded]).pending ∧ 1 ∉ (booted [.complete 1 Draw.allLoaded]).pending := by
  decide +kernel

theorem witness_StepRunsPlacedWords :
    ((Instr.squareNote 1 0 0 0 0).wellFormed = true ∧ (Instr.squareNote 1 0 0 0 0).port = .command) ∧
      ((Instr.renderBlock 4).wellFormed = true ∧ (Instr.renderBlock 4).port = .render) ∧
      (Instr.initDone .stale 0#4 0).wellFormed = true ∧ (Instr.initDone .stale 0#4 0).port = .response := by decide

theorem witness_PortActionsChangeOnlyTheirPort :
    (booted [.hostWrite 0]).moves = [.hostWrite 0] ∧ (booted [.hostRead]).moves = [.hostRead] ∧
      (booted [.sinkTake]).moves = [.sinkTake] ∧ (booted [.sinkRequest 0]).moves = [.sinkRequest 0] :=
  ⟨rfl, rfl, rfl, rfl⟩

/-- The largest generation the operand carries, with every slot and with one slot missing. -/
theorem witness_CurrentCompletionWiresAllSlots :
    (let s := { powered [] with gen := 2 ^ 64 - 1, pending := [2 ^ 64 - 1] };
      s.gen ∈ s.pending ∧ s.gen < 2 ^ 64) ∧
      (15#4 = 15#4 ∧ InitResult.ok = .ok) ∧ (14#4 ≠ 15#4 ∧ InitResult.failed = .failed) := by decide +kernel

theorem witness_StaleCompletionChangesNoSlot :
    let s := { booted [] with gen := 2 ^ 64, pending := [2 ^ 64 - 1] }
    2 ^ 64 - 1 ∈ s.pending ∧ 2 ^ 64 - 1 < s.gen ∧ 2 ^ 64 - 1 < 2 ^ 64 := by decide +kernel

/-- A generation that a completion sends, and one that is refused. -/
theorem witness_InitDoneRunsIffSomeCompletionSendsIt :
    (∃ t, exec (.initDone .failed 0#4 1) (powered []) = .next t) ∧
      exec (.initDone .ok 0#4 1) (powered []) = .refused .responseNotSent :=
  ⟨next_of_after (by decide +kernel), refused_of_refusalOf (by decide +kernel)⟩

/-- Generation 2 completes before generation 1, which stays pending from power-on (program P3). -/
theorem witness_FinalGenerationWins :
    let cs := [(2, Draw.allLoaded), (1, Draw.mk .failed .failed .failed .failed)]
    ∃ s, exec .reset (powered []) = .next s ∧ (∀ x ∈ cs, x.1 = s.gen → x.2 = Draw.allLoaded) ∧ ∃ x ∈ cs, x.1 = s.gen :=
  ⟨_, rfl, by decide +kernel, by decide +kernel⟩

theorem witness_OnlyInitDoneIsSentToTheHost :
    (∃ t, step (powered [.complete 1 Draw.allLoaded]) = .next t) ∧ 1 ∈ (powered []).pending ∧
      ∃ t, step { powered [.hostRead] with respq := [0x900F0000#32] } = .next t :=
  ⟨next_of_after (by decide +kernel), by decide +kernel, ⟨_, rfl⟩⟩

/-- The two ends of the range. -/
theorem witness_SetMasterVolumeWritesMaster :
    (f64 0#64 = some 0 ∧ (0 : Rat) ≤ 0 ∧ (0 : Rat) ≤ 1) ∧
      f64 0x3FF0000000000000#64 = some 1 ∧ (0 : Rat) ≤ 1 ∧ (1 : Rat) ≤ 1 := by decide +kernel

/-- A NaN, an infinity, the least number above 1, the greatest below 0, and a zero frequency. -/
theorem witness_OperandOutOfRangeIsRefused :
    (¬∃ x, f64 0x7FF8000000000000#64 = some x ∧ 0 ≤ x ∧ x ≤ 1) ∧
      (¬∃ x, f64 0x3FF0000000000001#64 = some x ∧ 0 ≤ x ∧ x ≤ 1) ∧
      (¬∃ x, f64 0x8000000000000001#64 = some x ∧ 0 ≤ x ∧ x ≤ 1) ∧
      (¬∃ x, f64 0x7FF0000000000000#64 = some x ∧ 0 < x) ∧ ¬∃ x, f64 0#64 = some x ∧ 0 < x := by
  have h : unitOperand 0x7FF8000000000000#64 = none ∧ unitOperand 0x3FF0000000000001#64 = none ∧
      unitOperand 0x8000000000000001#64 = none ∧ hzOperand 0x7FF0000000000000#64 = none ∧ hzOperand 0#64 = none := by
    decide +kernel
  obtain ⟨h1, h2, h3, h4, h5⟩ := h
  refine ⟨?_, ?_, ?_, ?_, ?_⟩ <;> rintro ⟨x, hx⟩
  · rw [unitOperand_eq_some.mpr hx] at h1; cases h1
  · rw [unitOperand_eq_some.mpr hx] at h2; cases h2
  · rw [unitOperand_eq_some.mpr hx] at h3; cases h3
  · rw [hzOperand_eq_some.mpr hx] at h4; cases h4
  · rw [hzOperand_eq_some.mpr hx] at h5; cases h5

/-- The least frequency, duty 0 and volume 1, and a list with room for exactly one more entry. -/
theorem witness_SquareNoteSchedulesItsValues :
    f64 1#64 = some (mkRat 1 (2 ^ 1074)) ∧ 0 < mkRat 1 (2 ^ 1074) ∧ f64 0#64 = some 0 ∧
      f64 0x3FF0000000000000#64 = some 1 ∧
      (booted64 []).cfg.capacity = some 1 ∧ defaultPulse.freq.pend.length < 1 ∧ defaultPulse.duty.pend.length < 1 ∧
      defaultPulse.volume.pend.length < 1 ∧ (booted64 []).slots.slot1 = some defaultPulse ∧
      (booted64 []).slots.slot2 = some defaultPulse := by decide +kernel

theorem witness_TriangleNoteSchedulesItsFrequency :
    f64 1#64 = some (mkRat 1 (2 ^ 1074)) ∧ 0 < mkRat 1 (2 ^ 1074) ∧
      (booted64 []).slots.slot3 = some defaultTriangle ∧ (booted64 []).cfg.capacity = some 1 ∧
      defaultTriangle.freq.pend.length < 1 := by decide +kernel

theorem witness_NoiseNoteSchedulesItsValues :
    f64 1#64 = some (mkRat 1 (2 ^ 1074)) ∧ 0 < mkRat 1 (2 ^ 1074) ∧ f64 0#64 = some 0 ∧
      (booted64 []).slots.slot4 = some defaultNoise ∧ (booted64 []).cfg.capacity = some 1 ∧
      defaultNoise.freq.pend.length < 1 ∧ defaultNoise.volume.pend.length < 1 ∧ defaultNoise.mode.pend.length < 1 := by
  decide +kernel

/-- Channels with no slot, of another kind, and with an `Uninitialized` slot. -/
theorem witness_DispatchOffRouteIsDropped :
    (f64 0x407B800000000000#64 = some 440 ∧ (0 : Rat) < 440 ∧ f64 0#64 = some 0 ∧ f64 0x3FF0000000000000#64 = some 1) ∧
      (¬((booted []).slots.status 0 = some .ready ∧ slotKind 0 = some .pulse)) ∧
      (¬((booted []).slots.status 5 = some .ready ∧ slotKind 5 = some .noise)) ∧
      (¬((booted []).slots.status 3 = some .ready ∧ slotKind 3 = some .pulse)) ∧
      (¬((booted []).slots.status 4 = some .ready ∧ slotKind 4 = some .triangle)) ∧
      ¬((powered []).slots.status 4 = some .ready ∧ slotKind 4 = some .noise) := by decide +kernel

theorem witness_RefusedIffFirstConditionHasNoMeaning :
    (Instr.squareNote 3 0 0 0 0).port ≠ .response ∧
      (conditionOf (.squareNote 3 0 0 0 0) (booted [])).bind ErrorCondition.refusal = some .operandRange ∧
      (conditionOf (.squareNote 3 0 0x407B800000000000#64 0 0) (booted [])).bind ErrorCondition.refusal = none := by
  decide +kernel

/-- Full lists at capacity 1. -/
theorem witness_DispatchIntoAFullListIsRefused :
    f64 0x407B800000000000#64 = some 440 ∧ (0 : Rat) < 440 ∧ f64 0#64 = some 0 ∧ f64 0x3FF0000000000000#64 = some 1 ∧
      (booted64 []).cfg.capacity = some 1 ∧
      (defaultPulse.scheduleNote (440, 0, 1) 0 0).duty.pend.length = 1 ∧
      (defaultTriangle.scheduleNote 440 0 0).freq.pend.length = 1 ∧
      (defaultNoise.scheduleNote (440, 1, .short) 0 0).mode.pend.length = 1 := by decide +kernel

/-- The entry of rule R164's example, one frame before it takes effect and in that frame. -/
theorem witness_ValueInForceIsTheLatestEntry :
    let p : Param Rat := ⟨440, [⟨880, 102, 1⟩]⟩
    (∀ x ∈ p.pend, 101 < x.e) ∧ (∃ x ∈ p.pend, x.e ≤ 102) ∧ p.inForce 101 = 440 ∧ p.inForce 102 = 880 := by
  decide +kernel

theorem witness_RetiringChangesNoLaterValue :
    102 ≤ 102 ∧ (Param.mk (440 : Rat) [⟨880, 102, 1⟩]).retire 102 = ⟨880, []⟩ := by decide +kernel

/-- Rule R167's example: A at 200 and then B at 100, at the frames 99, 100, 199 and 200; and a tie at 100. -/
theorem witness_LaterEntrySupersedes :
    let p := ((Param.constant (0 : Rat)).schedule 1 200 0).schedule (1 / 2) 100 1
    let q := ((Param.constant (0 : Rat)).schedule 1 100 0).schedule (1 / 2) 100 1
    0 < 1 ∧ 100 < 200 ∧ (p.inForce 99, p.inForce 100, p.inForce 199, p.inForce 200) = (0, 1 / 2, 1 / 2, 1) ∧
      (q.inForce 99, q.inForce 100) = (0, 1 / 2) := by decide +kernel

/-- Three frames from 100 on: the first and the last sample, and the last frame as the first one whose values survive. -/
theorem witness_RenderingReadsTheTimeline : 0 < 3 ∧ 2 < 3 ∧ 100 + 3 ≤ 102 + 1 := by decide

/-- A block with a zero sample, of either sign. -/
theorem witness_BlockTravelsAsBinary64Words :
    ∀ x ∈ [(0 : Rat), -1 / 2], ∃ b, f64 b = some x := by
  simp only [List.mem_cons, List.not_mem_nil, or_false, forall_eq_or_imp, forall_eq]
  exact ⟨⟨0x8000000000000000#64, by decide +kernel⟩, ⟨0xBFE0000000000000#64, by decide +kernel⟩⟩

theorem witness_ShiftRegisterIsABijection : (1 ≤ 1 ∧ 1 ≤ 14) ∧ 1 ≤ 14 ∧ 14 ≤ 14 := by decide

theorem witness_LongModePeriod : (0 < 1 ∧ 1 < 32767) ∧ (0 < 32766 ∧ 32766 < 32767) ∧ 0x7FFF#15 ≠ 0#15 := by decide

theorem witness_ShortModePeriod : (0 < 1 ∧ 1 < 93) ∧ 0 < 92 ∧ 92 < 93 := by decide

theorem witness_NsNextShiftsAndFeedsBack : defaultNoise.lfsr ≠ 0#15 ∧ 13 < 14 := by decide +kernel

theorem witness_PhaseStaysInRange : (0 : Rat) ≤ 0 ∧ (0 : Rat) < 1 ∧ (0 : Rat) < 440 ∧ 0 < cfg8000.sampleRate := by
  decide +kernel

theorem witness_PulseSampleComparesPhaseWithDuty :
    ∀ k : Numerics, k.round (defaultPulse.volume.inForce 0) = defaultPulse.volume.inForce 0 := by
  intro k
  simp [defaultPulse]

theorem witness_PulseDutyFraction : cfg8000.numerics = .exact ∧ 0 < cfg8000.sampleRate ∧ 1 ≤ 1 := by decide +kernel

/-- Both pieces, at the peak and just past it. -/
theorem witness_TriangleShape :
    ((0 : Rat) ≤ 1 / 2 ∧ (1 / 2 : Rat) < 1 ∧ (1 / 2 : Rat) ≤ 1 / 2) ∧
      ((0 : Rat) ≤ 5 / 8 ∧ (5 / 8 : Rat) < 1 ∧ (1 / 2 : Rat) < 5 / 8) ∧ (0 : Rat) ≤ 1 := by decide +kernel

theorem witness_TriangleIsSilentOnThisHardware : cfg8000.triangleVolume = 0 := rfl

/-- Rule R139's example wraps from 0.75 to 0; from 0.5 the same frequency does not. -/
theorem witness_NoiseSampleRebuildsThenSteps :
    phaseStep cfg8000 (3 / 4) 2000 < 3 / 4 ∧ ¬phaseStep cfg8000 (1 / 2) 2000 < 1 / 2 := by decide +kernel

/-- Increments 3/4 and 1: below the sample rate, and at it. -/
theorem witness_NoiseWrapDetection :
    (let o := { defaultNoise with freq := ⟨6000, []⟩ };
      cfg8000.numerics = .exact ∧ 0 < cfg8000.sampleRate ∧ 0 ≤ o.phase ∧ o.phase < 1 ∧ 0 < o.freq.inForce 0 ∧
        o.freq.inForce 0 / cfg8000.sampleRate < 1 ∧ o.mode.inForce 0 = o.seqMode) ∧
      (let x : Rat := 8000 / cfg8000.sampleRate;
        x = x.floor) := by decide +kernel

theorem witness_NoiseSampleIsUnipolar :
    0 ≤ defaultNoise.volume.inForce 0 ∧ defaultNoise.volume.inForce 0 ≤ 1 := by decide +kernel

theorem witness_RenderBlockReturnsEveryFrame : 65534 < 65535 ∧ 0 = 0 := by decide

theorem witness_RenderIsPerSlotRendering : 3 < 4 := by decide

theorem witness_AbsentSlotsRenderSilence :
    ∀ i ∈ [1, 2, 3, 4], (powered []).slots.status i = some .uninitialized := by decide +kernel

theorem witness_ZeroMasterVolumeSilences : { booted [] with master := 0 }.master = 0 := rfl

theorem witness_SampleBoundedByVolumes : (booted []).Inv ∧ (booted []).cfg.numerics = .exact := ⟨booted_inv _, rfl⟩

theorem witness_BlockSamplesAtMostThree : (booted64 []).Inv ∧ (booted64 []).cfg.triangleVolume = 0 :=
  ⟨booted64_inv _, rfl⟩

/-- `master 2.0` applied is the refusal of `test_set_master_volume_range`. -/
theorem witness_OnlyACommandIsRefused :
    step { booted [.apply] with cmdq := [0x30000000#32, 0, 0x40000000#32] } = .refused .operandRange :=
  refused_of_refusalOf (by decide +kernel)

theorem witness_OnlyRenderWritesFrame :
    (after (step { booted [.render] with request := some 0x80000004#32 })).map (·.frame) = some 4 := by decide +kernel

theorem witness_OnlySetMasterVolumeWritesMaster :
    (after (step { booted [.apply] with cmdq := [0x30000000#32, 0, 0x3FE00000#32] })).map (·.master) = some (1 / 2) := by
  decide +kernel

theorem witness_GenerationsChangeOnlyByIssueAndCompletion :
    (after (step { powered [.apply] with cmdq := [0x20000000#32] })).map (fun t => (t.gen, t.pending)) = some (2, [1, 2]) ∧
      (after (step (powered [.complete 1 Draw.allLoaded]))).map (·.pending) = some [] := by decide +kernel

theorem witness_SeqCountsDispatches :
    (after (step { powered [.apply] with cmdq := [0x44400000#32, 0, 0, 0, 0x408B8000#32] })).map (·.seq) = some 1 ∧
      (after (step { powered [.apply] with cmdq := [0x20000000#32] })).map (·.seq) = some 0 := by decide +kernel

theorem witness_OnlyResetAndCompletionWriteStatus :
    (after (step { booted [.apply] with cmdq := [0x20000000#32] })).map (fun t => t.slots.status 4) =
        some (some .uninitialized) ∧
      (after (step (powered [.complete 1 Draw.allLoaded]))).map (fun t => t.slots.status 4) = some (some .ready) := by
  decide +kernel

theorem witness_ParametersAreFixed :
    (∃ t, step (booted []) = .next t) ∧ (booted []).moves = [] ∧
      ∃ t, step { booted [.apply] with cmdq := [0x10000000#32] } = .next t := ⟨⟨_, rfl⟩, rfl, ⟨_, rfl⟩⟩

end Sys2Proof.Tests
end

/-! ### Values of `NUMERICS`

Lemmas for the statements of `00_scope.md`: which numbers a pattern, a phase step and a sample can be (rules R8, R15,
R86, R131, R132). -/

namespace Sys2Proof.Machine

/-! #### Finite binary64 patterns as a significand on a grid -/

/-- The significand of a finite pattern with biased exponent `e` and fraction `f`, its leading bit included. -/
def significand64 (e f : Nat) : Nat := if e = 0 then f else 2 ^ 52 + f

/-- The exponent of the unit in the last place of a finite pattern with biased exponent `e`. -/
def unitExponent64 (e : Nat) : Int := max (e : Int) 1 - 1075

theorem magnitude64_eq (e f : Nat) : magnitude64 e f = significand64 e f * pow2 (unitExponent64 e) := by
  have hunit : ∀ n : Nat, pow2 ((n : Int) - 1075) = pow2 n * pow2 (-1075) := fun n => by
    rw [sub_eq_add_neg, pow2_add]
  rcases Nat.eq_zero_or_pos e with rfl | he
  · have hz : unitExponent64 0 = -((1074 : Nat) : Int) := by simp [unitExponent64]
    rw [hz, pow2_neg_natCast]
    rcases Nat.eq_zero_or_pos f with rfl | hf
    · rw [magnitude64, if_pos rfl, if_pos rfl, significand64, if_pos rfl, Nat.cast_zero, zero_mul]
    · rw [magnitude64, if_pos rfl, if_neg hf.ne', Rat.mkRat_eq_div, significand64, if_pos rfl, mul_one_div]
      rfl
  · have hm : max (e : Int) 1 = e := by omega
    rw [magnitude64, if_neg he.ne', significand64, if_neg he.ne', unitExponent64, hm]
    split_ifs with hbig
    · rw [show (e : Int) - 1075 = ((e - 1075 : Nat) : Int) by omega, pow2_natCast, Nat.cast_mul]
    · rw [show (e : Int) - 1075 = -((1075 - e : Nat) : Int) by omega, pow2_neg_natCast, Rat.mkRat_eq_div, mul_one_div]
      rfl

theorem exponentBits_lt (b : Quad) : exponentBits b < 2048 := (b.extractLsb' 52 11).isLt

theorem fractionBits_lt (b : Quad) : fractionBits b < 2 ^ 52 := (b.extractLsb' 0 52).isLt

theorem significand64_lt {e f : Nat} (hf : f < 2 ^ 52) : significand64 e f < 2 ^ 53 := by
  unfold significand64; split_ifs <;> omega

/-- Rule R86: `f64` answers a number exactly on the finite patterns, the signed magnitude of the pattern. -/
theorem f64_eq_some {b : Quad} {x : Rat} : f64 b = some x ↔ exponentBits b ≠ 2047 ∧
    x = (if signBit b then -1 else 1) *
      (significand64 (exponentBits b) (fractionBits b) * pow2 (unitExponent64 (exponentBits b))) := by
  rw [f64, ← magnitude64_eq, ite_mul, neg_one_mul, one_mul]
  generalize magnitude64 _ _ = m
  by_cases hexp : exponentBits b = 2047
  · rw [if_pos hexp]
    exact ⟨nofun, fun h => absurd hexp h.1⟩
  · rw [if_neg hexp]
    exact ⟨fun h => ⟨hexp, (Option.some.inj h).symm⟩, fun h => congrArg some h.2.symm⟩

theorem isNumber_neg {k : Numerics} {x : Rat} (h : isNumber k x) : isNumber k (-x) :=
  ⟨by rw [round_neg, h.1], fun hk => by rw [abs_neg]; exact h.2 hk⟩

theorem isNumber_exact (x : Rat) : isNumber .exact x := ⟨rfl, nofun⟩

/-- Rule R14: every number a pattern carries is a value of either number domain. -/
theorem isNumber_of_f64 {k : Numerics} {b : Quad} {x : Rat} (h : f64 b = some x) : isNumber k x := by
  cases k with
  | exact => exact isNumber_exact x
  | binary64 =>
    obtain ⟨hfin, rfl⟩ := f64_eq_some.mp h
    have hsig := significand64_lt (e := exponentBits b) (fractionBits_lt b)
    have hexp := exponentBits_lt b
    have hmag : isNumber .binary64 (((significand64 (exponentBits b) (fractionBits b) : Int) : Rat) *
        pow2 (unitExponent64 (exponentBits b))) :=
      isNumber_binary64_of_grid (by rw [abs_of_nonneg (by omega)]; omega) (by unfold unitExponent64; omega)
        (by unfold unitExponent64; omega)
    rw [Int.cast_natCast] at hmag
    split_ifs
    · rw [neg_one_mul]; exact isNumber_neg hmag
    · rw [one_mul]; exact hmag

/-! #### The phase step -/

/-- The fraction part of a nonnegative grid number is on the same grid, with a significand no larger. -/
theorem mod1_grid (m : Nat) (e : Int) : ∃ r : Nat, r ≤ m ∧ mod1 (m * pow2 e) = r * pow2 e := by
  rcases le_or_gt 0 e with he | he
  · obtain ⟨n, rfl⟩ := Int.eq_ofNat_of_zero_le he
    refine ⟨0, m.zero_le, ?_⟩
    have hint : (m : Rat) * pow2 n = 0 + ((m * 2 ^ n : Int) : Rat) := by rw [pow2_natCast]; push_cast; ring
    rw [hint, mod1_add_int, mod1_of_lt_one (le_refl 0) one_pos, Nat.cast_zero, zero_mul]
  · obtain ⟨n, hn⟩ := Int.eq_ofNat_of_zero_le (a := -e) (by omega)
    obtain rfl : e = -(n : Int) := by omega
    refine ⟨m % 2 ^ n, Nat.mod_le _ _, ?_⟩
    have hpos : (0 : Rat) < (2 ^ n : Nat) := by positivity
    have hsplit : (m : Rat) = (m % 2 ^ n : Nat) + (2 ^ n : Nat) * (m / 2 ^ n : Nat) := by
      exact_mod_cast (Nat.mod_add_div m (2 ^ n)).symm
    have hsum : (m : Rat) * pow2 (-(n : Int)) = (m % 2 ^ n : Nat) * pow2 (-(n : Int)) + ((m / 2 ^ n : Nat) : Int) := by
      rw [hsplit, pow2_neg_natCast, Int.cast_natCast, add_mul, mul_right_comm, mul_one_div_cancel hpos.ne', one_mul]
    rw [hsum, mod1_add_int, mod1_of_lt_one (mul_nonneg (Nat.cast_nonneg _) (pow2_pos _).le)]
    rw [pow2_neg_natCast, mul_one_div, div_lt_one hpos]
    exact_mod_cast Nat.mod_lt m (by positivity)

/-- Rule R131: the fraction part of a nonnegative rounded number needs no rounding. -/
theorem isNumber_mod1_round (k : Numerics) {x : Rat} (hx : 0 ≤ x) : isNumber k (mod1 (k.round x)) := by
  refine isNumber_of_round ?_ (abs_le.mpr ⟨by linarith [mod1_nonneg (k.round x)], (mod1_lt_one _).le⟩)
  cases k with
  | exact => rfl
  | binary64 =>
    obtain ⟨m, e, hm, he, hround⟩ := round64_grid x
    have hprod : 0 ≤ (m : Rat) * pow2 e := hround ▸ le_round64_of_le round64_zero hx
    have hm0 : 0 ≤ m := by exact_mod_cast nonneg_of_mul_nonneg_left hprod (pow2_pos e)
    lift m to Nat using hm0
    obtain ⟨r, hrm, hmod⟩ := mod1_grid m e
    rw [Nat.abs_cast] at hm
    rw [Numerics.round, Numerics.round, hround, Int.cast_natCast, hmod]
    exact round64_of_grid (m := r) (by rw [Nat.abs_cast]; omega) he

/-- Rules R130 to R132: the phase step of a phase and a frequency that are not negative gives a `NUMERICS` value. -/
theorem isNumber_phaseStep {c : Params} {p f : Rat} (hc : 0 < c.sampleRate) (hp : 0 ≤ p) (hf : 0 ≤ f) :
    isNumber c.numerics (phaseStep c p f) := by
  unfold phaseStep
  split_ifs
  · exact isNumber_mod1_round _ (abs_nonneg _)
  · refine isNumber_mod1_round _ (add_nonneg hp ?_)
    exact le_round_of_le (round_zero _) (div_nonneg hf hc.le)

/-! #### Parameters and slots -/

theorem Param.Numeric.inForce {k : Numerics} {p : Param Rat} (h : p.Numeric k) (n : Nat) :
    isNumber k (p.inForce n) := by
  rcases p.inForce_cases n with hcur | ⟨x, hx, -, hval⟩
  · rw [hcur]; exact h.1
  · rw [hval]; exact h.2 x hx

theorem Param.Numeric.retire {k : Numerics} {p : Param Rat} (h : p.Numeric k) (n : Nat) : (p.retire n).Numeric k :=
  ⟨h.inForce n, fun x hx => h.2 x (List.mem_filter.mp hx).1⟩

theorem Param.Numeric.schedule {k : Numerics} {p : Param Rat} (h : p.Numeric k) {v : Rat} (hv : isNumber k v)
    (e q : Nat) : (p.schedule v e q).Numeric k :=
  ⟨h.1, fun x hx => (List.mem_append.mp hx).elim (h.2 x) fun hx => by rw [List.mem_singleton.mp hx]; exact hv⟩

theorem Param.Numeric.constant {k : Numerics} {v : Rat} (hv : isNumber k v) : (Param.constant v).Numeric k :=
  ⟨hv, nofun⟩

/-- Every number of a pulse slot is a `NUMERICS` value (rule R30). -/
def Pulse.Numeric (k : Numerics) (o : Pulse) : Prop :=
  isNumber k o.phase ∧ o.freq.Numeric k ∧ o.duty.Numeric k ∧ o.volume.Numeric k

/-- Every number of a triangle slot is a `NUMERICS` value (rule R31). -/
def Triangle.Numeric (k : Numerics) (o : Triangle) : Prop := isNumber k o.phase ∧ o.freq.Numeric k

/-- Every number of a noise slot is a `NUMERICS` value (rule R32). -/
def Noise.Numeric (k : Numerics) (o : Noise) : Prop :=
  isNumber k o.phase ∧ o.freq.Numeric k ∧ o.volume.Numeric k

theorem Slots.numeric_iff {k : Numerics} {sl : Slots} : sl.Numeric k ↔
    (∀ o ∈ sl.slot1, o.Numeric k) ∧ (∀ o ∈ sl.slot2, o.Numeric k) ∧ (∀ o ∈ sl.slot3, o.Numeric k) ∧
      ∀ o ∈ sl.slot4, o.Numeric k := Iff.rfl

theorem Slots.numeric_absent (k : Numerics) : Slots.absent.Numeric k := ⟨nofun, nofun, nofun, nofun⟩

theorem Slots.Numeric.pulseAt {k : Numerics} {sl : Slots} {ch : Nat} {o : Pulse} (h : sl.Numeric k)
    (ho : sl.pulseAt ch = some o) : o.Numeric k := by
  obtain ⟨h1, h2, -, -⟩ := Slots.numeric_iff.mp h
  rcases Slots.pulseAt_eq_some ho with ⟨-, ho⟩ | ⟨-, ho⟩
  · exact h1 o ho
  · exact h2 o ho

theorem Slots.Numeric.triangleAt {k : Numerics} {sl : Slots} {ch : Nat} {o : Triangle} (h : sl.Numeric k)
    (ho : sl.triangleAt ch = some o) : o.Numeric k := by
  obtain ⟨-, -, h3, -⟩ := Slots.numeric_iff.mp h
  exact h3 o (Slots.triangleAt_eq_some ho).2

theorem Slots.Numeric.noiseAt {k : Numerics} {sl : Slots} {ch : Nat} {o : Noise} (h : sl.Numeric k)
    (ho : sl.noiseAt ch = some o) : o.Numeric k := by
  obtain ⟨-, -, -, h4⟩ := Slots.numeric_iff.mp h
  exact h4 o (Slots.noiseAt_eq_some ho).2

theorem Slots.Numeric.setPulse {k : Numerics} {sl : Slots} {o : Pulse} (h : sl.Numeric k) (ho : o.Numeric k)
    (ch : Nat) : (sl.setPulse ch o).Numeric k := by
  obtain ⟨h1, h2, h3, h4⟩ := h
  unfold Slots.setPulse
  split_ifs
  · exact ⟨fun _ hx => Option.some.inj hx ▸ ho, h2, h3, h4⟩
  · exact ⟨h1, fun _ hx => Option.some.inj hx ▸ ho, h3, h4⟩
  · exact ⟨h1, h2, h3, h4⟩

theorem Slots.Numeric.setTriangle {k : Numerics} {sl : Slots} {o : Triangle} (h : sl.Numeric k) (ho : o.Numeric k) :
    (sl.setTriangle o).Numeric k :=
  ⟨h.1, h.2.1, fun _ hx => Option.some.inj hx ▸ ho, h.2.2.2⟩

theorem Slots.Numeric.setNoise {k : Numerics} {sl : Slots} {o : Noise} (h : sl.Numeric k) (ho : o.Numeric k) :
    (sl.setNoise o).Numeric k :=
  ⟨h.1, h.2.1, h.2.2.1, fun _ hx => Option.some.inj hx ▸ ho⟩

/-! #### Fresh slots and notes -/

/-- One half is a value of both number domains. -/
theorem round_half (k : Numerics) : k.round (1 / 2) = 1 / 2 := by
  cases k with
  | exact => rfl
  | binary64 =>
    simpa [Numerics.round, pow2_eq_zpow] using round64_of_grid (m := 1) (e := -1) (by norm_num) (by norm_num)

theorem isNumber_half (k : Numerics) : isNumber k (1 / 2) := isNumber_of_round (round_half k) (by norm_num [abs_le])

/-- The integers to `2^53` are values of both number domains. -/
theorem isNumber_intCast (k : Numerics) {z : Int} (h : |z| ≤ 2 ^ 53) : isNumber k z := by
  refine ⟨round_intCast k h, fun _ => ?_⟩
  have hz : ((|z| : Int) : Rat) ≤ ((2 ^ 53 : Nat) : Rat) := by exact_mod_cast h
  rw [Int.cast_abs, ← pow2_natCast] at hz
  exact hz.trans_lt (pow2_lt.mpr (by norm_num))

theorem isNumber_zero (k : Numerics) : isNumber k 0 := by simpa using isNumber_intCast k (z := 0) (by norm_num)

theorem isNumber_one (k : Numerics) : isNumber k 1 := by simpa using isNumber_intCast k (z := 1) (by norm_num)

theorem isNumber_440 (k : Numerics) : isNumber k 440 := by simpa using isNumber_intCast k (z := 440) (by norm_num)

theorem defaultPulse_numeric (k : Numerics) : defaultPulse.Numeric k :=
  ⟨isNumber_zero k, .constant (isNumber_440 k), .constant (isNumber_half k), .constant (isNumber_zero k)⟩

theorem defaultTriangle_numeric (k : Numerics) : defaultTriangle.Numeric k :=
  ⟨isNumber_zero k, .constant (isNumber_440 k)⟩

theorem defaultNoise_numeric (k : Numerics) : defaultNoise.Numeric k :=
  ⟨isNumber_zero k, .constant (isNumber_440 k), .constant (isNumber_one k)⟩

/-- A slot after a completion is fresh where it is there at all. -/
theorem eq_of_mem_wireSlot {σ : Type} {fresh o : σ} {r : LoadResult} (h : o ∈ wireSlot fresh r) : o = fresh := by
  cases r with
  | loaded => exact (Option.some.inj h).symm
  | failed => cases h

theorem wireSlots_numeric (k : Numerics) (ok : Draw) : (wireSlots ok).Numeric k :=
  Slots.numeric_iff.mpr
    ⟨fun _ h => eq_of_mem_wireSlot h ▸ defaultPulse_numeric k, fun _ h => eq_of_mem_wireSlot h ▸ defaultPulse_numeric k,
      fun _ h => eq_of_mem_wireSlot h ▸ defaultTriangle_numeric k,
      fun _ h => eq_of_mem_wireSlot h ▸ defaultNoise_numeric k⟩

theorem isNumber_of_unitOperand {k : Numerics} {b : Quad} {x : Rat} (h : unitOperand b = some x) : isNumber k x :=
  isNumber_of_f64 (unitOperand_eq_some.mp h).1

theorem isNumber_of_hzOperand {k : Numerics} {b : Quad} {x : Rat} (h : hzOperand b = some x) : isNumber k x :=
  isNumber_of_f64 (hzOperand_eq_some.mp h).1

theorem Pulse.Numeric.scheduleNote {k : Numerics} {o : Pulse} (ho : o.Numeric k) {hz duty volume : Quad}
    {v : Rat × Rat × Rat} (hv : squareOperands hz duty volume = some v) (e q : Nat) :
    (o.scheduleNote v e q).Numeric k := by
  obtain ⟨hp, hf, hd, hvol⟩ := ho
  obtain ⟨vf, vd, vv⟩ := squareOperands_eq_some.mp hv
  exact ⟨hp, hf.schedule (isNumber_of_hzOperand vf) e q, hd.schedule (isNumber_of_unitOperand vd) e q,
    hvol.schedule (isNumber_of_unitOperand vv) e q⟩

theorem Triangle.Numeric.scheduleNote {k : Numerics} {o : Triangle} (ho : o.Numeric k) {hz : Quad} {v : Rat}
    (hv : hzOperand hz = some v) (e q : Nat) : (o.scheduleNote v e q).Numeric k :=
  ⟨ho.1, ho.2.schedule (isNumber_of_hzOperand hv) e q⟩

theorem Noise.Numeric.scheduleNote {k : Numerics} {o : Noise} (ho : o.Numeric k) {mode : NoiseMode} {hz volume : Quad}
    {v : Rat × Rat × NoiseMode} (hv : noiseOperands mode hz volume = some v) (e q : Nat) :
    (o.scheduleNote v e q).Numeric k := by
  obtain ⟨hp, hf, hvol⟩ := ho
  obtain ⟨vf, vv, -⟩ := noiseOperands_eq_some.mp hv
  exact ⟨hp, hf.schedule (isNumber_of_hzOperand vf) e q, hvol.schedule (isNumber_of_unitOperand vv) e q⟩

/-! #### Frames -/

theorem pulseFrame_numeric {c : Params} {frame seq n : Nat} {o : Pulse} (hc : 0 < c.sampleRate)
    (hg : o.Good c frame seq) (h : o.Numeric c.numerics) : (pulseFrame c n o).2.Numeric c.numerics := by
  obtain ⟨-, hf, hd, hv⟩ := h
  obtain ⟨⟨hp, -⟩, gf, -, -⟩ := hg
  exact ⟨isNumber_phaseStep hc hp ((gf.retire n).inForce n).le, hf.retire n, hd.retire n, hv.retire n⟩

theorem triangleFrame_numeric {c : Params} {frame seq n : Nat} {o : Triangle} (hc : 0 < c.sampleRate)
    (hg : o.Good c frame seq) (h : o.Numeric c.numerics) : (triangleFrame c n o).2.Numeric c.numerics := by
  obtain ⟨-, hf⟩ := h
  obtain ⟨⟨hp, -⟩, gf⟩ := hg
  exact ⟨isNumber_phaseStep hc hp ((gf.retire n).inForce n).le, hf.retire n⟩

theorem noiseFrame_numeric {c : Params} {frame seq n : Nat} {o : Noise} (hc : 0 < c.sampleRate)
    (hg : o.Good c frame seq) (h : o.Numeric c.numerics) : (noiseFrame c n o).2.Numeric c.numerics := by
  obtain ⟨-, hf, hv⟩ := h
  obtain ⟨⟨hp, -⟩, -, gf, -, -⟩ := hg
  refine ⟨isNumber_phaseStep hc hp ((gf.retire n).inForce n).le, ?_, ?_⟩
  · simpa only [noiseFrame, noiseSample, noiseWrap_freq, noiseRebuild_freq] using hf.retire n
  · simpa only [noiseFrame, noiseSample, noiseWrap_volume, noiseRebuild_volume] using hv.retire n

/-- A property of the slot a frame gives, where there is a slot, holds of the slot after the frame. -/
theorem forall_mem_slotFrame {σ : Type} {f : σ → Rat × σ} {P : σ → Prop} {x : Option σ} (h : ∀ o ∈ x, P (f o).2) :
    ∀ o ∈ (slotFrame f x).2, P o := by
  cases x with
  | none => exact nofun
  | some o => exact fun _ ho => Option.some.inj ho ▸ h o rfl

theorem slotsAfterFrame_numeric {c : Params} {frame seq n : Nat} {sl : Slots} (hc : 0 < c.sampleRate)
    (hg : sl.Good c frame seq) (h : sl.Numeric c.numerics) : (slotsAfterFrame c n sl).Numeric c.numerics := by
  obtain ⟨h1, h2, h3, h4⟩ := Slots.numeric_iff.mp h
  obtain ⟨g1, g2, g3, g4⟩ := hg
  refine Slots.numeric_iff.mpr ⟨?_, ?_, ?_, ?_⟩
  · exact forall_mem_slotFrame fun o ho => pulseFrame_numeric hc (g1 o ho) (h1 o ho)
  · exact forall_mem_slotFrame fun o ho => pulseFrame_numeric hc (g2 o ho) (h2 o ho)
  · exact forall_mem_slotFrame fun o ho => triangleFrame_numeric hc (g3 o ho) (h3 o ho)
  · exact forall_mem_slotFrame fun o ho => noiseFrame_numeric hc (g4 o ho) (h4 o ho)

theorem slotsAfterBlock_numeric {c : Params} {seq : Nat} (hc : 0 < c.sampleRate) (count : Nat) :
    ∀ {n : Nat} {sl : Slots}, sl.Good c n seq → sl.Numeric c.numerics →
      (slotsAfterBlock c count n sl).Numeric c.numerics := by
  induction count with
  | zero => intro n sl _ h; exact h
  | succ count ih => intro n sl hg h; exact ih (slotsAfterFrame_good hg) (slotsAfterFrame_numeric hc hg h)

/-! #### Samples -/

/-- Rounding keeps a magnitude within any bound that is itself a number. -/
theorem abs_round_le {k : Numerics} {x z : Rat} (hz : k.round z = z) (h : |x| ≤ z) : |k.round x| ≤ z := by
  obtain ⟨hlo, hhi⟩ := abs_le.mp h
  exact abs_le.mpr ⟨le_round_of_le (by rw [round_neg, hz]) hlo, round_le_of_le hz hhi⟩

theorem abs_round_le_intCast {k : Numerics} {x : Rat} {z : Int} (hz : |z| ≤ 2 ^ 53) (h : |x| ≤ z) : |k.round x| ≤ z :=
  abs_round_le (round_intCast k hz) h

theorem abs_round_le_one {k : Numerics} {x : Rat} (h : |x| ≤ 1) : |k.round x| ≤ 1 :=
  abs_round_le (isNumber_one k).1 h

theorem abs_le_one_of_unitOk {x : Rat} (h : unitOk x) : |x| ≤ 1 := by rw [abs_of_nonneg h.1]; exact h.2

/-- The product of two values of magnitude at most 1 has magnitude at most 1. -/
theorem abs_mul_le_one {x y : Rat} (hx : |x| ≤ 1) (hy : |y| ≤ 1) : |x * y| ≤ 1 := by
  rw [abs_mul]; exact mul_le_one₀ hx (abs_nonneg y) hy

theorem abs_pulseLevel_le_one (k : Numerics) (p d : Rat) {v : Rat} (hv : unitOk v) : |pulseLevel k p d v| ≤ 1 := by
  refine abs_round_le_one (abs_mul_le_one ?_ (abs_le_one_of_unitOk hv))
  split_ifs <;> norm_num

/-- Rule R136: the base of a triangle is in [0, 1/2], so that 4 times it less 1 is in [-1, 1]. -/
theorem abs_triangleLevel_le_one (k : Numerics) {p v : Rat} (hp : phaseOk p) (hv : unitOk v) :
    |triangleLevel k p v| ≤ 1 := by
  have hbase : 0 ≤ (if p ≤ 1 / 2 then p else k.sub 1 p) ∧ (if p ≤ 1 / 2 then p else k.sub 1 p) ≤ 1 / 2 := by
    split_ifs with hhalf
    · exact ⟨hp.1, hhalf⟩
    · exact ⟨le_round_of_le (round_zero k) (by linarith [hp.2]), round_le_of_le (round_half k) (by linarith)⟩
  have htwo : k.round 2 = 2 := by simpa using round_intCast k (z := 2) (by norm_num)
  have hlo : 0 ≤ k.mul (if p ≤ 1 / 2 then p else k.sub 1 p) 4 := le_round_of_le (round_zero k) (by linarith [hbase.1])
  have hhi : k.mul (if p ≤ 1 / 2 then p else k.sub 1 p) 4 ≤ 2 := round_le_of_le htwo (by linarith [hbase.2])
  exact abs_round_le_one (abs_mul_le_one (abs_round_le_one (abs_le.mpr ⟨by linarith, by linarith⟩))
    (abs_le_one_of_unitOk hv))

theorem abs_pulseFrame_le_one {c : Params} {frame seq n : Nat} {o : Pulse} (h : o.Good c frame seq) :
    |(pulseFrame c n o).1| ≤ 1 := by
  obtain ⟨-, -, -, hv⟩ := h
  exact abs_pulseLevel_le_one _ _ _ ((hv.retire n).inForce n)

theorem abs_triangleFrame_le_one {c : Params} {frame seq n : Nat} {o : Triangle} (hc : unitOk c.triangleVolume)
    (h : o.Good c frame seq) : |(triangleFrame c n o).1| ≤ 1 :=
  abs_triangleLevel_le_one _ h.1 hc

theorem abs_noiseFrame_le_one {c : Params} {frame seq n : Nat} {o : Noise} (h : o.Good c frame seq) :
    |(noiseFrame c n o).1| ≤ 1 := by
  obtain ⟨-, -, -, hv, -⟩ := h
  simp only [noiseFrame, noiseSample]
  split_ifs
  · exact abs_le_one_of_unitOk ((hv.retire n).inForce n)
  · norm_num

theorem abs_slotFrame_le_one {σ : Type} {f : σ → Rat × σ} {x : Option σ} (h : ∀ o ∈ x, |(f o).1| ≤ 1) :
    |(slotFrame f x).1| ≤ 1 := by
  cases x with
  | none => norm_num
  | some o => exact h o rfl

/-- One more addend of magnitude at most 1 raises the bound of a rounded sum by 1. -/
theorem abs_add_le_succ {k : Numerics} {x y : Rat} {z : Nat} (hz : z < 2 ^ 53) (hx : |x| ≤ z) (hy : |y| ≤ 1) :
    |k.add x y| ≤ (z + 1 : Nat) := by
  refine abs_round_le_intCast (z := (z + 1 : Nat)) (by rw [abs_of_nonneg (by omega)]; omega) ?_
  push_cast
  exact (abs_add_le x y).trans (add_le_add hx hy)

theorem abs_slotSum_le_four {c : Params} {frame seq n : Nat} {sl : Slots} (hc : unitOk c.triangleVolume)
    (h : sl.Good c frame seq) : |slotSum c n sl| ≤ 4 := by
  obtain ⟨g1, g2, g3, g4⟩ := h
  have h1 : |c.numerics.add 0 (slotFrame (pulseFrame c n) sl.slot1).1| ≤ (1 : Nat) :=
    abs_add_le_succ (z := 0) (by norm_num) (by simp) (abs_slotFrame_le_one fun o ho => abs_pulseFrame_le_one (g1 o ho))
  have h2 := abs_add_le_succ (k := c.numerics) (by norm_num) h1
    (abs_slotFrame_le_one fun o ho => abs_pulseFrame_le_one (n := n) (g2 o ho))
  have h3 := abs_add_le_succ (k := c.numerics) (by norm_num) h2
    (abs_slotFrame_le_one fun o ho => abs_triangleFrame_le_one (n := n) hc (g3 o ho))
  have h4 := abs_add_le_succ (k := c.numerics) (by norm_num) h3
    (abs_slotFrame_le_one fun o ho => abs_noiseFrame_le_one (n := n) (g4 o ho))
  exact_mod_cast h4

/-- Rules R93 and R206: the sample of a frame is a `NUMERICS` value, since it is rounded and at most 4 in magnitude. -/
theorem isNumber_mixSample {c : Params} {master : Rat} {frame seq n : Nat} {sl : Slots} (hc : unitOk c.triangleVolume)
    (hm : unitOk master) (h : sl.Good c frame seq) : isNumber c.numerics (mixSample c master n sl) := by
  have hprod : |master * slotSum c n sl| ≤ ((4 : Int) : Rat) := by
    rw [abs_mul]
    have hmul := mul_le_mul (abs_le_one_of_unitOk hm) (abs_slotSum_le_four (n := n) hc h) (abs_nonneg _) zero_le_one
    rw [one_mul] at hmul
    exact_mod_cast hmul
  have hle : |mixSample c master n sl| ≤ ((4 : Int) : Rat) := abs_round_le_intCast (by norm_num) hprod
  have hfinite : ((4 : Int) : Rat) < pow2 1024 :=
    (le_abs_self _).trans_lt ((isNumber_intCast .binary64 (by norm_num)).2 rfl)
  exact ⟨round_round _ _, fun _ => hle.trans_lt hfinite⟩

theorem blockSamples_numeric {c : Params} {master : Rat} {seq : Nat} (hc : unitOk c.triangleVolume) (hm : unitOk master)
    (count : Nat) : ∀ {n : Nat} {sl : Slots}, sl.Good c n seq →
      ∀ x ∈ blockSamples c master count n sl, isNumber c.numerics x := by
  induction count with
  | zero => intro n sl _ x hx; cases hx
  | succ count ih =>
    intro n sl hg x hx
    rcases List.mem_cons.mp hx with rfl | hx
    · exact isNumber_mixSample hc hm hg
    · exact ih (slotsAfterFrame_good hg) x hx

/-! ### A step keeps the number domain -/

/-- A DISPATCH keeps the numbers of the block where it keeps those of the slots. -/
theorem State.Numeric.dispatched {s t : State} (h : s.Numeric)
    (ht : t = { s with seq := s.seq + 1, slots := t.slots }) (hs : t.slots.Numeric s.cfg.numerics) : t.Numeric := by
  obtain ⟨hcfg, hmaster, -, hblocks⟩ := h
  rw [ht]
  exact ⟨hcfg, hmaster, hs, hblocks⟩

theorem exec_command_numeric {i : Instr} {s t : State} (hp : i.port = .command) (hn : s.Numeric)
    (h : exec i s = .next t) : t.Numeric := by
  have ⟨hcfg, hmaster, hslots, hblocks⟩ := hn
  rcases exec_command_next hp h with ⟨-, rfl⟩ | ⟨-, rfl⟩ | ⟨v, x, -, hx, rfl⟩ | ⟨ch, eff, hz, duty, volume, -, ht, hs⟩ |
    ⟨ch, eff, hz, -, ht, hs⟩ | ⟨ch, mode, eff, hz, volume, -, ht, hs⟩
  · exact hn
  · exact ⟨hcfg, hmaster, Slots.numeric_absent _, hblocks⟩
  · exact ⟨hcfg, isNumber_of_unitOperand hx, hslots, hblocks⟩
  · refine hn.dispatched ht ?_
    rcases hs with hs | ⟨v, o, hv, ho, -, hs⟩ <;> rw [hs]
    · exact hslots
    · exact hslots.setPulse ((hslots.pulseAt ho).scheduleNote hv _ _) ch
  · refine hn.dispatched ht ?_
    rcases hs with hs | ⟨v, o, hv, ho, -, hs⟩ <;> rw [hs]
    · exact hslots
    · exact hslots.setTriangle ((hslots.triangleAt ho).scheduleNote hv _ _)
  · refine hn.dispatched ht ?_
    rcases hs with hs | ⟨v, o, hv, ho, -, hs⟩ <;> rw [hs]
    · exact hslots
    · exact hslots.setNoise ((hslots.noiseAt ho).scheduleNote hv _ _)

theorem complete_numeric {s : State} (hn : s.Numeric) (g : Nat) (ok : Draw) : (s.complete g ok).Numeric := by
  obtain ⟨hcfg, hmaster, hslots, hblocks⟩ := hn
  refine ⟨hcfg, hmaster, ?_, hblocks⟩
  rw [State.complete_slots, State.complete_cfg]
  split_ifs
  · exact wireSlots_numeric _ ok
  · exact hslots

theorem renderBlock_numeric {s : State} (hi : s.Inv) (hn : s.Numeric) (count : Nat) :
    (s.renderBlock count).Numeric := by
  obtain ⟨hcfg, hmaster, hslots, hblocks⟩ := hn
  obtain ⟨⟨hrate, -, htri0, htri1, -⟩, hunit, -, -, hgood⟩ := hi
  refine ⟨hcfg, hmaster, slotsAfterBlock_numeric hrate count hgood hslots, fun block hb => ?_⟩
  rw [State.renderBlock_rendered, List.mem_append, List.mem_singleton] at hb
  rcases hb with hb | rfl
  · exact hblocks block hb
  · exact blockSamples_numeric ⟨htri0, htri1⟩ hunit count hgood

/-- Settles O4: only RENDER_BLOCK computes new numbers, and rule R34's ranges keep its phases on their own grid and its
samples small; every other value comes from a binary64 operand or from a fresh slot. -/
theorem stepKeepsNumericsValues : Obligations.StepKeepsNumericsValues := by
  intro s t hi hn h
  have ⟨hcfg, hmaster, hslots, hblocks⟩ := hn
  rcases step_next h with ⟨-, rfl⟩ | ⟨ms, i, rest, -, hd, he⟩ | ⟨ms, q, -, rfl, -⟩ | ⟨ms, g, ok, -, -, rfl⟩ |
    ⟨ms, g, ok, -, -, rfl⟩ | ⟨ms, w, -, -, -, rfl⟩ | ⟨ms, -, rfl, -⟩ | ⟨ms, w, -, rfl⟩ | ⟨ms, -, rfl⟩ | ⟨ms, w, -, rfl⟩ |
    ⟨ms, -, rfl⟩
  · exact hn
  · exact exec_command_numeric (s := { s with moves := ms, cmdq := rest }) (decodeCommand_port hd) hn he
  · exact hn
  · exact complete_numeric (s := { s with moves := ms }) hn g ok
  · exact hn
  · exact renderBlock_numeric (s := { s with moves := ms, request := none }) hi hn _
  · exact hn
  · exact hn
  · exact hn
  · rw [State.sinkRequest_eq]; exact hn
  · exact ⟨hcfg, hmaster, hslots, fun block hb => hblocks block (List.mem_of_mem_tail hb)⟩

end Sys2Proof.Machine

/-! ### Binary64 patterns and back -/

namespace Sys2Proof.Machine

/-- Rule R86: a pattern is its sign, its biased exponent and its fraction, from the top bit down. -/
theorem toNat_eq_fields (b : Quad) :
    b.toNat = (if signBit b then 2 ^ 63 else 0) + (exponentBits b * 2 ^ 52 + fractionBits b) := by
  have hsign : signBit b = decide (2 ^ 63 ≤ b.toNat) := by
    exact (BitVec.msb_eq_getLsbD_last b).symm.trans (BitVec.msb_eq_decide b)
  have hlt := b.isLt
  simp only [hsign, decide_eq_true_eq, exponentBits, fractionBits, BitVec.extractLsb'_toNat, Nat.shiftRight_eq_div_pow]
  split_ifs <;> omega

/-- The fields below the sign, from the significand: what `toF64` writes of a magnitude. -/
theorem body_significand64 {e f : Nat} (hf : f < 2 ^ 52) :
    (if significand64 e f < 2 ^ 52 then significand64 e f
      else (unitExponent64 e + 1075).toNat * 2 ^ 52 + (significand64 e f - 2 ^ 52)) = e * 2 ^ 52 + f := by
  unfold significand64 unitExponent64
  split_ifs <;> omega

/-- `ulpExponent` reads the unit of a nonzero finite pattern back from its value. -/
theorem ulpExponent_pattern {e f : Nat} (hf : f < 2 ^ 52) (hne : significand64 e f ≠ 0) :
    ulpExponent (significand64 e f * pow2 (unitExponent64 e)) = unitExponent64 e := by
  have hpow := pow2_pos (unitExponent64 e)
  have habs : |(significand64 e f : Rat) * pow2 (unitExponent64 e)| = significand64 e f * pow2 (unitExponent64 e) :=
    abs_of_nonneg (mul_nonneg (Nat.cast_nonneg _) hpow.le)
  have hx : (significand64 e f : Rat) * pow2 (unitExponent64 e) ≠ 0 := mul_ne_zero (by exact_mod_cast hne) hpow.ne'
  have hle : ilog2 (significand64 e f * pow2 (unitExponent64 e)) ≤ unitExponent64 e + 52 := by
    refine ilog2_le hx ?_
    rw [habs, show unitExponent64 e + 52 + 1 = (53 : Nat) + unitExponent64 e by push_cast; ring, pow2_add, pow2_natCast]
    exact mul_lt_mul_of_pos_right (by exact_mod_cast significand64_lt hf) hpow
  rcases Nat.eq_zero_or_pos e with rfl | he
  · have hunit : unitExponent64 0 = -1074 := rfl
    unfold ulpExponent
    omega
  · have hge : unitExponent64 e + 52 ≤ ilog2 (significand64 e f * pow2 (unitExponent64 e)) := by
      refine le_ilog2 hx ?_
      have hnormal : 2 ^ 52 ≤ significand64 e f := by rw [significand64, if_neg he.ne']; omega
      rw [habs, show unitExponent64 e + 52 = (52 : Nat) + unitExponent64 e by push_cast; ring, pow2_add, pow2_natCast]
      exact mul_le_mul_of_nonneg_right (by exact_mod_cast hnormal) hpow.le
    have hunit : -1074 ≤ unitExponent64 e := by unfold unitExponent64; omega
    unfold ulpExponent
    omega

theorem toF64_zero : toF64 0 = some 0#64 := by
  have hfinite : ¬(round64 0 ≠ 0 ∨ pow2 1024 ≤ |(0 : Rat)|) := by
    rw [round64_zero, abs_zero, not_or]
    exact ⟨not_not.mpr rfl, not_le.mpr (pow2_pos _)⟩
  have hfloor : (0 : Rat).floor = 0 := rfl
  rw [toF64, if_neg hfinite, abs_zero, zero_div, hfloor]
  rfl

/-- A pattern of value 0 that is not negative zero is that of positive zero. -/
theorem eq_zero_of_significand64 {b : Quad} (hz : significand64 (exponentBits b) (fractionBits b) = 0)
    (hneg : b ≠ 0x8000000000000000#64) : b = 0#64 := by
  have hfields := toNat_eq_fields b
  have hexp : exponentBits b = 0 ∧ fractionBits b = 0 := by
    unfold significand64 at hz
    split_ifs at hz with he
    · exact ⟨he, hz⟩
    · omega
  rw [hexp.1, hexp.2] at hfields
  apply BitVec.eq_of_toNat_eq
  split_ifs at hfields
  · exact absurd (BitVec.eq_of_toNat_eq hfields) hneg
  · exact hfields

/-- `toF64` of the signed magnitude of nonzero finite fields is the pattern of those fields. -/
theorem toF64_signed_magnitude {e f : Nat} (neg : Bool) {x : Rat} (hf : f < 2 ^ 52) (hne : significand64 e f ≠ 0)
    (hx : x = (if neg then -1 else 1) * (significand64 e f * pow2 (unitExponent64 e)))
    (hnum : isNumber .binary64 x) :
    toF64 x = some (BitVec.ofNat 64 ((if neg then 2 ^ 63 else 0) + (e * 2 ^ 52 + f))) := by
  have hpow := pow2_pos (unitExponent64 e)
  have hmag : 0 < (significand64 e f : Rat) * pow2 (unitExponent64 e) :=
    mul_pos (by exact_mod_cast Nat.pos_of_ne_zero hne) hpow
  have hsign : x < 0 ↔ neg = true := by cases neg <;> simp [hx, hmag, hmag.le]
  have habs : |x| = significand64 e f * pow2 (unitExponent64 e) := by
    rw [hx, abs_mul, abs_of_pos hmag]; cases neg <;> simp
  have hulp : ulpExponent x = unitExponent64 e := by
    rw [← ulpExponent_pattern hf hne, hx]; cases neg <;> simp
  have hfloor : (|x| / pow2 (unitExponent64 e)).floor.toNat = significand64 e f := by
    rw [habs, mul_div_cancel_right₀ _ hpow.ne', floor_eq, Int.floor_natCast, Int.toNat_natCast]
  have hfinite : ¬(round64 x ≠ x ∨ pow2 1024 ≤ |x|) :=
    not_or.mpr ⟨not_not.mpr hnum.1, not_le.mpr (hnum.2 rfl)⟩
  rw [toF64, if_neg hfinite]
  simp only [hulp, hfloor, hsign, body_significand64 hf]

/-- Settles O10: `ulpExponent` finds the unit of the pattern's own grid, so that dividing by it gives the significand
back, and a pattern is its sign, exponent and fraction. -/
theorem binary64PatternRoundTrip : Obligations.Binary64PatternRoundTrip := by
  intro b x h hneg
  obtain ⟨-, hx⟩ := f64_eq_some.mp h
  by_cases hz : significand64 (exponentBits b) (fractionBits b) = 0
  · rw [hz, Nat.cast_zero, zero_mul, mul_zero] at hx
    rw [hx, eq_zero_of_significand64 hz hneg, toF64_zero]
  · rw [toF64_signed_magnitude (signBit b) (fractionBits_lt b) hz hx (isNumber_of_f64 h), ← toNat_eq_fields,
      BitVec.ofNat_toNat, BitVec.setWidth_eq]

/-! ### The parameters -/

theorem exec_command_cfg {i : Instr} {s t : State} (hp : i.port = .command) (h : exec i s = .next t) :
    t.cfg = s.cfg := by
  rcases exec_command_next hp h with ⟨-, rfl⟩ | ⟨-, rfl⟩ | ⟨v, x, -, -, rfl⟩ | ⟨ch, eff, hz, duty, volume, -, ht, -⟩ |
    ⟨ch, eff, hz, -, ht, -⟩ | ⟨ch, mode, eff, hz, volume, -, ht, -⟩
  · rfl
  · rfl
  · rfl
  · rw [ht]
  · rw [ht]
  · rw [ht]

theorem step_cfg {s t : State} (h : step s = .next t) : t.cfg = s.cfg := by
  rcases step_next h with ⟨-, rfl⟩ | ⟨ms, i, rest, -, hd, he⟩ | ⟨ms, q, -, rfl, -⟩ | ⟨ms, g, ok, -, -, rfl⟩ |
    ⟨ms, g, ok, -, -, rfl⟩ | ⟨ms, w, -, -, -, rfl⟩ | ⟨ms, -, rfl, -⟩ | ⟨ms, w, -, rfl⟩ | ⟨ms, -, rfl⟩ | ⟨ms, w, -, rfl⟩ |
    ⟨ms, -, rfl⟩
  · rfl
  · exact exec_command_cfg (s := { s with moves := ms, cmdq := rest }) (decodeCommand_port hd) he
  · rfl
  · rfl
  · rfl
  · rfl
  · rfl
  · rfl
  · rfl
  · rw [State.sinkRequest_cfg]
  · rfl

/-- Settles O59: no transition writes `cfg`, and a step with no action left is the identity. -/
theorem parametersAreFixed : Obligations.ParametersAreFixed := by
  intro s t h
  refine ⟨step_cfg h, fun hidle => ?_⟩
  rw [step_idle hidle] at h
  exact (Host.Outcome.next.inj h).symm

end Sys2Proof.Machine

/-! ### What a step does to the block

`10_state.md` section 2 says which transitions write each register. One predicate says it for all of them: on the
block's own state every step that answers a next state is one of a few updates, whatever it does to the ports. -/

namespace Sys2Proof

/-! #### DISPATCH commands and their headers -/

/-- The instruction is one of the three DISPATCH variants (rule R83). -/
def Instr.isDispatch : Instr → Bool
  | .squareNote .. | .triangleNote .. | .noiseNote .. => true
  | _ => false

/-- The header begins one of the three DISPATCH variants (rule R83). -/
def Header.isDispatch : Header → Bool
  | .squareNote _ | .triangleNote _ | .noiseNote .. => true
  | _ => false

theorem isDispatch_iff_opField {w : Word} {h : Header} (hd : decodeHeader w = .ok h) :
    h.isDispatch = true ↔ opField w = 4#4 := by
  obtain ⟨-, ⟨hop, -, rfl⟩ | ⟨hop, -, rfl⟩ | ⟨hop, -, rfl⟩ | ⟨hop, -, ⟨-, -, rfl⟩ | ⟨-, -, rfl⟩ | ⟨-, rfl⟩⟩⟩ :=
    decodeHeader_eq_ok hd <;> simp [Header.isDispatch, hop]

theorem decodeOperands_isDispatch {h : Header} {ws rest : List Word} {i : Instr}
    (hd : decodeOperands h ws = .ok (i, rest)) : i.isDispatch = h.isDispatch := by
  unfold decodeOperands at hd
  split at hd <;> cases hd <;> rfl

/-- A decoded command has a header the decoder accepts and the operands that header asks for. -/
theorem decodeCommand_eq_ok {q rest : List Word} {i : Instr} (hd : decodeCommand q = .ok (i, rest)) :
    ∃ w ws h, q = w :: ws ∧ decodeHeader w = .ok h ∧ decodeOperands h ws = .ok (i, rest) := by
  unfold decodeCommand at hd
  split at hd
  · cases hd
  · rename_i w ws
    split at hd
    · cases hd
    · rename_i h hh
      exact ⟨w, ws, h, rfl, hh, hd⟩

/-- Rule R82: a command at the head of the queue is a DISPATCH exactly where its header has OP `0x4`. -/
theorem isDispatch_iff_head {q rest : List Word} {i : Instr} (hd : decodeCommand q = .ok (i, rest)) :
    i.isDispatch = true ↔ ∃ w ws h, q = w :: ws ∧ decodeHeader w = .ok h ∧ opField w = 4#4 := by
  obtain ⟨w, ws, h, rfl, hh, ho⟩ := decodeCommand_eq_ok hd
  rw [decodeOperands_isDispatch ho, isDispatch_iff_opField hh]
  constructor
  · exact fun hop => ⟨w, ws, h, rfl, hh, hop⟩
  · rintro ⟨w', ws', h', hq, -, hop⟩
    rwa [(List.cons.inj hq).1]

end Sys2Proof

namespace Sys2Proof.Machine

/-! #### The updates of the block's state -/

/-- Two states that agree on the block's registers, its slots and its parameters (rules R7 and R22 to R32); their ports
and the agents' next actions may differ. -/
structure State.SameBlock (s t : State) : Prop where
  cfg : t.cfg = s.cfg
  frame : t.frame = s.frame
  master : t.master = s.master
  gen : t.gen = s.gen
  pending : t.pending = s.pending
  seq : t.seq = s.seq
  slots : t.slots = s.slots

/-- What stands on the ports, and what the agents do next, is no part of the block. -/
theorem State.sameBlock_ports (s : State) (q r : List Word) (request : Option Word) (blocks : List (List Rat))
    (ms : List Move) : s.SameBlock
      { s with cmdq := q, respq := r, request := request, rendered := blocks, moves := ms } :=
  ⟨rfl, rfl, rfl, rfl, rfl, rfl, rfl⟩

/-- The slots a DISPATCH may leave (rules R193 to R197): the same ones where it is dropped, else those with one routed
slot scheduled in. -/
inductive State.DispatchWrites (s : State) : Slots → Prop
  | dropped : s.DispatchWrites s.slots
  | square {ch eff : Nat} {hz duty volume : Quad} {v : Rat × Rat × Rat} {o : Pulse}
      (hv : squareOperands hz duty volume = some v) (ho : s.slots.pulseAt ch = some o)
      (hroom : o.anyFull s.cfg.capacity = false) :
      s.DispatchWrites (s.slots.setPulse ch (o.scheduleNote v (effectiveFrame eff s.frame) s.seq))
  | triangle {ch eff : Nat} {hz : Quad} {v : Rat} {o : Triangle}
      (hv : hzOperand hz = some v) (ho : s.slots.triangleAt ch = some o)
      (hroom : o.freq.full s.cfg.capacity = false) :
      s.DispatchWrites (s.slots.setTriangle (o.scheduleNote v (effectiveFrame eff s.frame) s.seq))
  | noise {ch eff : Nat} {mode : NoiseMode} {hz volume : Quad} {v : Rat × Rat × NoiseMode} {o : Noise}
      (hv : noiseOperands mode hz volume = some v) (ho : s.slots.noiseAt ch = some o)
      (hroom : o.anyFull s.cfg.capacity = false) :
      s.DispatchWrites (s.slots.setNoise (o.scheduleNote v (effectiveFrame eff s.frame) s.seq))

/-- What an applied command does to the block (rules R181 to R197). -/
inductive CommandEffect (s t : State) : Instr → Prop
  | createChannels (same : s.issue.SameBlock t) : CommandEffect s t .createChannels
  | reset (same : s.emptySlots.issue.SameBlock t) : CommandEffect s t .reset
  | setMasterVolume {v : Quad} {x : Rat} (hx : unitOperand v = some x)
      (same : State.SameBlock { s with master := x } t) : CommandEffect s t (.setMasterVolume v)
  | dispatch {i : Instr} {sl : Slots} (hi : i.isDispatch = true) (hw : s.DispatchWrites sl)
      (same : State.SameBlock { s with seq := s.seq + 1, slots := sl } t) : CommandEffect s t i

/-- What a step does to the block (rule R64): nothing, or one of its three transitions. -/
inductive BlockStep (s t : State) : Prop
  | quiet (hcmd : ∀ ms i rest, s.moves = .apply :: ms → decodeCommand s.cmdq ≠ .ok (i, rest))
      (hdone : ∀ ms g ok, s.moves = .complete g ok :: ms → g ∉ s.pending) (same : s.SameBlock t)
  | command {ms : List Move} {i : Instr} {rest : List Word} (hm : s.moves = .apply :: ms)
      (hd : decodeCommand s.cmdq = .ok (i, rest)) (effect : CommandEffect s t i)
  | complete {ms : List Move} {g : Nat} {ok : Draw} (hm : s.moves = .complete g ok :: ms) (hg : g ∈ s.pending)
      (same : (s.complete g ok).SameBlock t)
  | render {ms : List Move} {w : Word} (hm : s.moves = .render :: ms) (hw : s.request = some w)
      (hd : decodeRender w = .ok (.renderBlock (framesField w).toNat))
      (same : (s.renderBlock (framesField w).toNat).SameBlock t)

/-- A DISPATCH run on the state with its action and its words taken off leaves the slots it left, and counts. -/
theorem sameBlock_of_dispatched {s t : State} {ms : List Move} {q : List Word}
    (ht : t = { s with moves := ms, cmdq := q, seq := s.seq + 1, slots := t.slots }) :
    State.SameBlock { s with seq := s.seq + 1, slots := t.slots } t := by
  generalize t.slots = sl at ht ⊢
  subst ht
  exact State.sameBlock_ports ..

/-- A command, run on the state with its action and its words taken off, has its effect on the block. -/
theorem commandEffect_of_exec {i : Instr} {s t : State} {ms : List Move} {q : List Word} (hp : i.port = .command)
    (h : exec i { s with moves := ms, cmdq := q } = .next t) : CommandEffect s t i := by
  rcases exec_command_next hp h with ⟨rfl, rfl⟩ | ⟨rfl, rfl⟩ | ⟨v, x, rfl, hx, rfl⟩ |
    ⟨ch, eff, hz, duty, volume, rfl, ht, hs⟩ | ⟨ch, eff, hz, rfl, ht, hs⟩ | ⟨ch, mode, eff, hz, volume, rfl, ht, hs⟩
  · exact .createChannels (State.sameBlock_ports ..)
  · exact .reset (State.sameBlock_ports ..)
  · exact .setMasterVolume hx (State.sameBlock_ports ..)
  · refine .dispatch rfl ?_ (sameBlock_of_dispatched ht)
    rcases hs with hs | ⟨v, o, hv, ho, hroom, hs⟩ <;> rw [hs]
    exacts [.dropped, .square hv ho hroom]
  · refine .dispatch rfl ?_ (sameBlock_of_dispatched ht)
    rcases hs with hs | ⟨v, o, hv, ho, hroom, hs⟩ <;> rw [hs]
    exacts [.dropped, .triangle hv ho hroom]
  · refine .dispatch rfl ?_ (sameBlock_of_dispatched ht)
    rcases hs with hs | ⟨v, o, hv, ho, hroom, hs⟩ <;> rw [hs]
    exacts [.dropped, .noise hv ho hroom]

/-- An action that is neither APPLY nor a completion, and that leaves the block as it is. -/
theorem blockStep_of_portAction {s t : State} (hcmd : ∀ ms, s.moves ≠ .apply :: ms)
    (hdone : ∀ ms g ok, s.moves ≠ .complete g ok :: ms) (same : s.SameBlock t) : BlockStep s t :=
  .quiet (fun ms _ _ hm => absurd hm (hcmd ms)) (fun ms g ok hm => absurd hm (hdone ms g ok)) same

/-- Every step that answers a next state does one of these to the block. -/
theorem blockStep_of_step {s t : State} (h : step s = .next t) : BlockStep s t := by
  rcases step_next h with ⟨hm, rfl⟩ | ⟨ms, i, rest, hm, hd, he⟩ | ⟨ms, q, hm, rfl, hq⟩ | ⟨ms, g, ok, hm, hg, rfl⟩ |
    ⟨ms, g, ok, hm, hg, rfl⟩ | ⟨ms, w, hm, hw, hd, rfl⟩ | ⟨ms, hm, rfl, -⟩ | ⟨ms, w, hm, rfl⟩ | ⟨ms, hm, rfl⟩ |
    ⟨ms, w, hm, rfl⟩ | ⟨ms, hm, rfl⟩
  · exact blockStep_of_portAction (by simp [hm]) (by simp [hm]) (State.sameBlock_ports ..)
  · exact .command hm hd (commandEffect_of_exec (decodeCommand_port hd) he)
  · refine .quiet (fun _ i rest _ hok => ?_) (by simp [hm]) (State.sameBlock_ports ..)
    rcases hq with ⟨why, herr, -⟩ | ⟨herr | ⟨n, herr⟩, -⟩ <;> rw [herr] at hok <;> cases hok
  · exact .complete hm hg (State.sameBlock_ports ..)
  · refine .quiet (by simp [hm]) (fun _ g' _ hm' => ?_) (State.sameBlock_ports ..)
    rw [hm] at hm'
    cases hm'
    exact hg
  · exact .render hm hw hd (State.sameBlock_ports ..)
  · exact blockStep_of_portAction (by simp [hm]) (by simp [hm]) (State.sameBlock_ports ..)
  · exact blockStep_of_portAction (by simp [hm]) (by simp [hm]) (State.sameBlock_ports ..)
  · exact blockStep_of_portAction (by simp [hm]) (by simp [hm]) (State.sameBlock_ports ..)
  · rw [State.sinkRequest_eq]
    exact blockStep_of_portAction (by simp [hm]) (by simp [hm]) (State.sameBlock_ports ..)
  · exact blockStep_of_portAction (by simp [hm]) (by simp [hm]) (State.sameBlock_ports ..)

/-! ### The invariant of rule R34 -/

/-! #### Slots that stay good -/

theorem Slots.good_absent (c : Params) (frame seq : Nat) : Slots.absent.Good c frame seq := ⟨nofun, nofun, nofun, nofun⟩

theorem wireSlots_good (c : Params) (frame seq : Nat) (ok : Draw) : (wireSlots ok).Good c frame seq :=
  ⟨fun _ h => eq_of_mem_wireSlot h ▸ defaultPulse_good c frame seq,
    fun _ h => eq_of_mem_wireSlot h ▸ defaultPulse_good c frame seq,
    fun _ h => eq_of_mem_wireSlot h ▸ defaultTriangle_good c frame seq,
    fun _ h => eq_of_mem_wireSlot h ▸ defaultNoise_good c frame seq⟩

section
variable {c : Params} {frame seq seq' : Nat} {sl : Slots}

theorem Pulse.Good.mono {o : Pulse} (h : o.Good c frame seq) (hs : seq ≤ seq') : o.Good c frame seq' := by
  obtain ⟨hp, hf, hd, hv⟩ := h
  exact ⟨hp, hf.mono hs, hd.mono hs, hv.mono hs⟩

theorem Triangle.Good.mono {o : Triangle} (h : o.Good c frame seq) (hs : seq ≤ seq') : o.Good c frame seq' := by
  obtain ⟨hp, hf⟩ := h
  exact ⟨hp, hf.mono hs⟩

theorem Noise.Good.mono {o : Noise} (h : o.Good c frame seq) (hs : seq ≤ seq') : o.Good c frame seq' := by
  obtain ⟨hp, hr, hf, hv, hm⟩ := h
  exact ⟨hp, hr, hf.mono hs, hv.mono hs, hm.mono hs⟩

/-- Good slots stay good as arrivals are counted. -/
theorem Slots.Good.mono (h : sl.Good c frame seq) (hs : seq ≤ seq') : sl.Good c frame seq' := by
  obtain ⟨h1, h2, h3, h4⟩ := h
  exact ⟨fun o ho => (h1 o ho).mono hs, fun o ho => (h2 o ho).mono hs, fun o ho => (h3 o ho).mono hs,
    fun o ho => (h4 o ho).mono hs⟩

theorem Slots.Good.pulseAt {ch : Nat} {o : Pulse} (h : sl.Good c frame seq) (ho : sl.pulseAt ch = some o) :
    o.Good c frame seq := by
  obtain ⟨h1, h2, -, -⟩ := h
  rcases Slots.pulseAt_eq_some ho with ⟨-, ho⟩ | ⟨-, ho⟩
  · exact h1 o ho
  · exact h2 o ho

theorem Slots.Good.triangleAt {ch : Nat} {o : Triangle} (h : sl.Good c frame seq) (ho : sl.triangleAt ch = some o) :
    o.Good c frame seq := by
  obtain ⟨-, -, h3, -⟩ := h
  exact h3 o (Slots.triangleAt_eq_some ho).2

theorem Slots.Good.noiseAt {ch : Nat} {o : Noise} (h : sl.Good c frame seq) (ho : sl.noiseAt ch = some o) :
    o.Good c frame seq := by
  obtain ⟨-, -, -, h4⟩ := h
  exact h4 o (Slots.noiseAt_eq_some ho).2

theorem Slots.Good.setPulse {o : Pulse} (h : sl.Good c frame seq) (ho : o.Good c frame seq) (ch : Nat) :
    (sl.setPulse ch o).Good c frame seq := by
  obtain ⟨h1, h2, h3, h4⟩ := h
  unfold Slots.setPulse
  split_ifs
  · exact ⟨fun _ hx => Option.some.inj hx ▸ ho, h2, h3, h4⟩
  · exact ⟨h1, fun _ hx => Option.some.inj hx ▸ ho, h3, h4⟩
  · exact ⟨h1, h2, h3, h4⟩

theorem Slots.Good.setTriangle {o : Triangle} (h : sl.Good c frame seq) (ho : o.Good c frame seq) :
    (sl.setTriangle o).Good c frame seq := by
  obtain ⟨h1, h2, -, h4⟩ := h
  exact ⟨h1, h2, fun _ hx => Option.some.inj hx ▸ ho, h4⟩

theorem Slots.Good.setNoise {o : Noise} (h : sl.Good c frame seq) (ho : o.Good c frame seq) :
    (sl.setNoise o).Good c frame seq := by
  obtain ⟨h1, h2, h3, -⟩ := h
  exact ⟨h1, h2, h3, fun _ hx => Option.some.inj hx ▸ ho⟩

/-! #### Notes keep their slot good -/

theorem Pulse.anyFull_eq_false {capacity : Option Nat} {o : Pulse} : o.anyFull capacity = false ↔
    o.freq.full capacity = false ∧ o.duty.full capacity = false ∧ o.volume.full capacity = false := by
  simp [Pulse.anyFull, and_assoc]

theorem Noise.anyFull_eq_false {capacity : Option Nat} {o : Noise} : o.anyFull capacity = false ↔
    o.freq.full capacity = false ∧ o.volume.full capacity = false ∧ o.mode.full capacity = false := by
  simp [Noise.anyFull, and_assoc]

theorem freqOk_of_hzOperand {b : Quad} {x : Rat} (h : hzOperand b = some x) : freqOk x := (hzOperand_eq_some.mp h).2

theorem unitOk_of_unitOperand {b : Quad} {x : Rat} (h : unitOperand b = some x) : unitOk x :=
  (unitOperand_eq_some.mp h).2

variable {e : Nat}

theorem Pulse.Good.scheduleNote {o : Pulse} (h : o.Good c frame seq) {hz duty volume : Quad} {v : Rat × Rat × Rat}
    (hv : squareOperands hz duty volume = some v) (he : frame ≤ e) (hroom : o.anyFull c.capacity = false) :
    (o.scheduleNote v e seq).Good c frame (seq + 1) := by
  obtain ⟨hp, hf, hd, hvol⟩ := h
  obtain ⟨vf, vd, vv⟩ := squareOperands_eq_some.mp hv
  obtain ⟨rf, rd, rv⟩ := Pulse.anyFull_eq_false.mp hroom
  exact ⟨hp, hf.schedule (freqOk_of_hzOperand vf) he rf, hd.schedule (unitOk_of_unitOperand vd) he rd,
    hvol.schedule (unitOk_of_unitOperand vv) he rv⟩

theorem Triangle.Good.scheduleNote {o : Triangle} (h : o.Good c frame seq) {hz : Quad} {v : Rat}
    (hv : hzOperand hz = some v) (he : frame ≤ e) (hroom : o.freq.full c.capacity = false) :
    (o.scheduleNote v e seq).Good c frame (seq + 1) := by
  obtain ⟨hp, hf⟩ := h
  exact ⟨hp, hf.schedule (freqOk_of_hzOperand hv) he hroom⟩

theorem Noise.Good.scheduleNote {o : Noise} (h : o.Good c frame seq) {mode : NoiseMode} {hz volume : Quad}
    {v : Rat × Rat × NoiseMode} (hv : noiseOperands mode hz volume = some v) (he : frame ≤ e)
    (hroom : o.anyFull c.capacity = false) : (o.scheduleNote v e seq).Good c frame (seq + 1) := by
  obtain ⟨hp, hr, hf, hvol, hm⟩ := h
  obtain ⟨vf, vv, -⟩ := noiseOperands_eq_some.mp hv
  obtain ⟨rf, rv, rm⟩ := Noise.anyFull_eq_false.mp hroom
  exact ⟨hp, hr, hf.schedule (freqOk_of_hzOperand vf) he rf, hvol.schedule (unitOk_of_unitOperand vv) he rv,
    hm.schedule trivial he rm⟩

end

/-- Rule R161: no value takes effect before the frame in which it arrives. -/
theorem le_effectiveFrame (eff frame : Nat) : frame ≤ effectiveFrame eff frame := le_max_right eff frame

/-- A DISPATCH leaves good slots, once it is counted. -/
theorem State.DispatchWrites.good {s : State} {sl : Slots} (h : s.DispatchWrites sl)
    (hg : s.slots.Good s.cfg s.frame s.seq) : sl.Good s.cfg s.frame (s.seq + 1) := by
  have hcounted := hg.mono s.seq.le_succ
  cases h with
  | dropped => exact hcounted
  | square hv ho hroom =>
    exact hcounted.setPulse ((hg.pulseAt ho).scheduleNote hv (le_effectiveFrame _ _) hroom) _
  | triangle hv ho hroom =>
    exact hcounted.setTriangle ((hg.triangleAt ho).scheduleNote hv (le_effectiveFrame _ _) hroom)
  | noise hv ho hroom =>
    exact hcounted.setNoise ((hg.noiseAt ho).scheduleNote hv (le_effectiveFrame _ _) hroom)

/-! #### The updates keep the invariant -/

/-- The invariant speaks of the block alone, not of its ports. -/
theorem State.Inv.sameBlock {s t : State} (h : s.Inv) (same : s.SameBlock t) : t.Inv := by
  unfold State.Inv at h ⊢
  rwa [same.cfg, same.frame, same.master, same.gen, same.pending, same.seq, same.slots]

theorem State.Inv.issue {s : State} (h : s.Inv) : s.issue.Inv := by
  obtain ⟨hcfg, hmaster, hle, hsorted, hslots⟩ := h
  refine ⟨hcfg, hmaster, fun g hg => ?_, insertGeneration_sorted _ hsorted, hslots⟩
  rw [State.issue_gen]
  rcases (mem_insertGeneration _ _ _).mp hg with hg | rfl
  · exact (hle g hg).trans s.gen.le_succ
  · exact le_rfl

theorem State.Inv.emptySlots {s : State} (h : s.Inv) : s.emptySlots.Inv := by
  obtain ⟨hcfg, hmaster, hle, hsorted, -⟩ := h
  exact ⟨hcfg, hmaster, hle, hsorted, Slots.good_absent _ _ _⟩

theorem State.Inv.setMaster {s : State} (h : s.Inv) {x : Rat} (hx : unitOk x) : State.Inv { s with master := x } := by
  obtain ⟨hcfg, -, hle, hsorted, hslots⟩ := h
  exact ⟨hcfg, hx, hle, hsorted, hslots⟩

theorem State.Inv.dispatched {s : State} (h : s.Inv) {sl : Slots} (hw : s.DispatchWrites sl) :
    State.Inv { s with seq := s.seq + 1, slots := sl } := by
  obtain ⟨hcfg, hmaster, hle, hsorted, hslots⟩ := h
  exact ⟨hcfg, hmaster, hle, hsorted, hw.good hslots⟩

theorem State.Inv.complete {s : State} (h : s.Inv) (g : Nat) (ok : Draw) : (s.complete g ok).Inv := by
  obtain ⟨hcfg, hmaster, hle, hsorted, hslots⟩ := h
  refine ⟨hcfg, hmaster, fun x hx => hle x ((mem_eraseGeneration g x _).mp hx).1, eraseGeneration_sorted g hsorted, ?_⟩
  rw [State.complete_slots]
  split_ifs
  · exact wireSlots_good _ _ _ ok
  · exact hslots

theorem State.Inv.renderBlock {s : State} (h : s.Inv) (count : Nat) : (s.renderBlock count).Inv := by
  obtain ⟨hcfg, hmaster, hle, hsorted, hslots⟩ := h
  exact ⟨hcfg, hmaster, hle, hsorted, slotsAfterBlock_good count hslots⟩

theorem CommandEffect.inv {i : Instr} {s t : State} (effect : CommandEffect s t i) (h : s.Inv) : t.Inv := by
  cases effect with
  | createChannels same => exact h.issue.sameBlock same
  | reset same => exact h.emptySlots.issue.sameBlock same
  | setMasterVolume hx same => exact (h.setMaster (unitOk_of_unitOperand hx)).sameBlock same
  | dispatch hi hw same => exact (h.dispatched hw).sameBlock same

/-- Settles O3: each update of the block keeps the invariant, and the invariant does not see the ports. -/
theorem stepKeepsTheInvariant : Obligations.StepKeepsTheInvariant := by
  intro s t hi h
  cases blockStep_of_step h with
  | quiet hcmd hdone same => exact hi.sameBlock same
  | command hm hd effect => exact effect.inv hi
  | complete hm hg same => exact (hi.complete _ _).sameBlock same
  | render hm hw hd same => exact (hi.renderBlock _).sameBlock same

/-! ### Power-on (rules R34 and R40) -/

/-- Settles O1: every field is a literal of `State.reset`, and a completion of generation 1 wires the default slots. -/
theorem resetIsThePowerOnState : Obligations.ResetIsThePowerOnState := by
  refine ⟨rfl, rfl, rfl, rfl, rfl, ?_, rfl, rfl, ?_⟩
  · decide
  · rw [State.complete_slots, if_pos (show 1 = State.reset.gen from rfl)]
    rfl

/-- Settles O2: the OPEN parameters are good by their types, `MASTER` is 1 and there is no slot and no block yet. -/
theorem powerOnStateIsGood : Obligations.PowerOnStateIsGood := by
  have hwf : State.reset.cfg.wf := Config.params_wf
  refine ⟨⟨hwf, ?_, ?_, List.pairwise_singleton _ _, Slots.good_absent _ _ _⟩, ?_⟩
  · exact ⟨zero_le_one, le_rfl⟩
  · exact fun g hg => (List.mem_singleton.mp hg).le
  · obtain ⟨-, -, -, -, hnumeric⟩ := hwf
    exact ⟨hnumeric, isNumber_one _, Slots.numeric_absent _, nofun⟩

/-! ### Which transitions write each register (rules R22 to R27) -/

/-- Settles O54: of the block's updates only a rendered block moves `FRAME`. -/
theorem onlyRenderWritesFrame : Obligations.OnlyRenderWritesFrame := by
  refine ⟨rfl, fun s t h => ?_⟩
  cases blockStep_of_step h with
  | quiet hcmd hdone same => exact .inl same.frame
  | command hm hd effect =>
    cases effect with
    | createChannels same => exact .inl same.frame
    | reset same => exact .inl same.frame
    | setMasterVolume hx same => exact .inl same.frame
    | dispatch hi hw same => exact .inl same.frame
  | complete hm hg same => exact .inl same.frame
  | render hm hw hd same => exact .inr ⟨_, _, _, hm, hw, hd, same.frame⟩

/-- Settles O55: of the block's updates only SET_MASTER_VOLUME's has another `MASTER`, the value of its operand. -/
theorem onlySetMasterVolumeWritesMaster : Obligations.OnlySetMasterVolumeWritesMaster := by
  intro s t h
  cases blockStep_of_step h with
  | quiet hcmd hdone same => exact .inl same.master
  | command hm hd effect =>
    cases effect with
    | createChannels same => exact .inl same.master
    | reset same => exact .inl same.master
    | setMasterVolume hx same =>
      refine .inr ⟨_, _, _, hm, hd, ?_⟩
      rw [same.master]
      exact (unitOperand_eq_some.mp hx).1
    | dispatch hi hw same => exact .inl same.master
  | complete hm hg same => exact .inl same.master
  | render hm hw hd same => exact .inl same.master

/-- Rule R25: an issue makes its generation pending, and every other stays as it was. -/
theorem mem_pending_issue {s t : State} (same : s.issue.SameBlock t) (g : Nat) :
    g ∈ t.pending ↔ g ∈ s.pending ∨ g = s.gen + 1 := by
  rw [same.pending, State.issue_pending, mem_insertGeneration]

/-- Rule R25: a completion takes its generation out of `PENDING` and leaves every other one. -/
theorem mem_pending_complete {s t : State} {g : Nat} {ok : Draw} (same : (s.complete g ok).SameBlock t) (x : Nat) :
    x ∈ t.pending ↔ x ∈ s.pending ∧ x ≠ g := by
  rw [same.pending, State.complete_pending, mem_eraseGeneration]

/-- Rules R24 and R25, for an applied command: it issues a generation, or it leaves `GEN` and `PENDING` as they are. -/
theorem CommandEffect.generations {i : Instr} {s t : State} (effect : CommandEffect s t i) :
    (t.gen = s.gen ∧ t.pending = s.pending) ∨
      (i = .createChannels ∨ i = .reset) ∧ t.gen = s.gen + 1 ∧ ∀ g, g ∈ t.pending ↔ g ∈ s.pending ∨ g = s.gen + 1 := by
  cases effect with
  | createChannels same => exact .inr ⟨.inl rfl, same.gen, mem_pending_issue same⟩
  | reset same => exact .inr ⟨.inr rfl, same.gen, mem_pending_issue (s := s.emptySlots) same⟩
  | setMasterVolume hx same => exact .inl ⟨same.gen, same.pending⟩
  | dispatch hi hw same => exact .inl ⟨same.gen, same.pending⟩

/-- Settles O56: an issue inserts the new generation, a completion erases its own, and no other update
touches either. -/
theorem generationsChangeOnlyByIssueAndCompletion : Obligations.GenerationsChangeOnlyByIssueAndCompletion := by
  refine ⟨fun g => List.mem_singleton, fun s t h => ?_⟩
  cases blockStep_of_step h with
  | quiet hcmd hdone same =>
    rw [same.pending]
    exact ⟨.inl ⟨same.gen, fun g hg => hg⟩, fun g hg hn => absurd hg hn, hdone⟩
  | command hm hd effect =>
    have hno : ∀ ms g ok, s.moves = .complete g ok :: ms → g ∉ t.pending := by simp [hm]
    rcases effect.generations with ⟨hgen, hpend⟩ | ⟨hi, hgen, hmem⟩
    · rw [hpend] at hno ⊢
      exact ⟨.inl ⟨hgen, fun g hg => hg⟩, fun g hg hn => absurd hg hn, hno⟩
    · exact ⟨.inr ⟨_, _, _, hm, hd, hi, hgen, hmem⟩, fun g hg hn => absurd ((hmem g).mpr (.inl hg)) hn, hno⟩
  | @complete ms g ok hm hg same =>
    have hmem := mem_pending_complete same
    refine ⟨.inl ⟨same.gen, fun x hx => ((hmem x).mp hx).1⟩, fun x hx hn => ?_, fun ms' g' ok' hm' hx => ?_⟩
    · obtain rfl : x = g := by_contra fun hne => hn ((hmem x).mpr ⟨hx, hne⟩)
      exact ⟨ms, ok, hm⟩
    · rw [hm] at hm'
      cases hm'
      exact ((hmem g).mp hx).2 rfl
  | render hm hw hd same =>
    have hpend : t.pending = s.pending := same.pending
    rw [hpend]
    exact ⟨.inl ⟨same.gen, fun g hg => hg⟩, fun g hg hn => absurd hg hn, by simp [hm]⟩

/-- The step applies a DISPATCH: the head command of `CMDQ` has OP `0x4` and all its words (rules R82 and R91). -/
def AppliesDispatch (s : State) : Prop :=
  ∃ ms w ws h i rest, s.moves = .apply :: ms ∧ s.cmdq = w :: ws ∧ decodeHeader w = .ok h ∧
    decodeCommand s.cmdq = .ok (i, rest) ∧ opField w = 4#4

theorem appliesDispatch_iff {s : State} : AppliesDispatch s ↔
    ∃ ms i rest, s.moves = .apply :: ms ∧ decodeCommand s.cmdq = .ok (i, rest) ∧ i.isDispatch = true := by
  constructor
  · rintro ⟨ms, w, ws, h, i, rest, hm, hq, hh, hd, hop⟩
    exact ⟨ms, i, rest, hm, hd, (isDispatch_iff_head hd).mpr ⟨w, ws, h, hq, hh, hop⟩⟩
  · rintro ⟨ms, i, rest, hm, hd, hi⟩
    obtain ⟨w, ws, h, hq, hh, hop⟩ := (isDispatch_iff_head hd).mp hi
    exact ⟨ms, w, ws, h, i, rest, hm, hq, hh, hd, hop⟩

/-- Where a whole command is applied, the step applies a DISPATCH exactly if that command is one. -/
theorem appliesDispatch_iff_of_command {s : State} {ms : List Move} {i : Instr} {rest : List Word}
    (hm : s.moves = .apply :: ms) (hd : decodeCommand s.cmdq = .ok (i, rest)) :
    AppliesDispatch s ↔ i.isDispatch = true := by
  rw [appliesDispatch_iff]
  constructor
  · rintro ⟨ms', i', rest', -, hd', hi⟩
    rw [hd] at hd'
    cases hd'
    exact hi
  · exact fun hi => ⟨ms, i, rest, hm, hd, hi⟩

theorem not_appliesDispatch_of_moves {s : State} (h : ∀ ms, s.moves ≠ .apply :: ms) : ¬AppliesDispatch s :=
  fun ⟨ms, _, _, _, _, _, hm, _⟩ => h ms hm

/-- Settles O57: `SEQ` moves in the update of a DISPATCH alone, dropped or not, and a DISPATCH is a command of OP 4. -/
theorem seqCountsDispatches : Obligations.SeqCountsDispatches := by
  intro s t h
  change (AppliesDispatch s ∧ t.seq = s.seq + 1) ∨ (¬AppliesDispatch s ∧ t.seq = s.seq)
  cases blockStep_of_step h with
  | quiet hcmd hdone same =>
    exact .inr ⟨fun ⟨ms, _, _, _, i, rest, hm, _, _, hd, _⟩ => hcmd ms i rest hm hd, same.seq⟩
  | command hm hd effect =>
    rw [appliesDispatch_iff_of_command hm hd]
    cases effect with
    | createChannels same => exact .inr ⟨nofun, same.seq⟩
    | reset same => exact .inr ⟨nofun, same.seq⟩
    | setMasterVolume hx same => exact .inr ⟨nofun, same.seq⟩
    | dispatch hi hw same => exact .inl ⟨hi, same.seq⟩
  | complete hm hg same => exact .inr ⟨not_appliesDispatch_of_moves (by simp [hm]), same.seq⟩
  | render hm hw hd same => exact .inr ⟨not_appliesDispatch_of_moves (by simp [hm]), same.seq⟩

/-! #### The status of a slot -/

/-- Scheduling into a routed slot keeps every status: the slot is `Ready` before and after. -/
theorem Slots.status_setPulse {sl : Slots} {ch : Nat} {o : Pulse} (h : sl.pulseAt ch = some o) (o' : Pulse) (j : Nat) :
    (sl.setPulse ch o').status j = sl.status j := by
  rcases Slots.pulseAt_eq_some h with ⟨rfl, ho⟩ | ⟨rfl, ho⟩ <;> simp [Slots.status, statusOf, ho]

theorem Slots.status_setTriangle {sl : Slots} {ch : Nat} {o : Triangle} (h : sl.triangleAt ch = some o) (o' : Triangle)
    (j : Nat) : (sl.setTriangle o').status j = sl.status j := by
  simp [Slots.status, statusOf, (Slots.triangleAt_eq_some h).2]

theorem Slots.status_setNoise {sl : Slots} {ch : Nat} {o : Noise} (h : sl.noiseAt ch = some o) (o' : Noise) (j : Nat) :
    (sl.setNoise o').status j = sl.status j := by
  simp [Slots.status, statusOf, (Slots.noiseAt_eq_some h).2]

theorem State.DispatchWrites.status {s : State} {sl : Slots} (h : s.DispatchWrites sl) (j : Nat) :
    sl.status j = s.slots.status j := by
  cases h with
  | dropped => rfl
  | square hv ho hroom => exact Slots.status_setPulse ho _ j
  | triangle hv ho hroom => exact Slots.status_setTriangle ho _ j
  | noise hv ho hroom => exact Slots.status_setNoise ho _ j

/-- Emptying the slots changes a status only to `Uninitialized`: where there is no slot there is none before either. -/
theorem Slots.status_absent_of_ne {sl : Slots} {j : Nat} (hne : Slots.absent.status j ≠ sl.status j) :
    Slots.absent.status j = some .uninitialized := by
  unfold Slots.status at hne ⊢
  split_ifs at hne ⊢
  · rfl
  · rfl
  · rfl
  · rfl
  · exact absurd rfl hne

/-- Settles O58: a DISPATCH and a block keep every status, a stale completion keeps the slots, and what is left are
RESET and the completion of the current generation. -/
theorem onlyResetAndCompletionWriteStatus : Obligations.OnlyResetAndCompletionWriteStatus := by
  intro s t j h hne
  cases blockStep_of_step h with
  | quiet hcmd hdone same => exact absurd (by rw [same.slots]) hne
  | command hm hd effect =>
    cases effect with
    | createChannels same => exact absurd (by rw [same.slots]; rfl) hne
    | reset same =>
      rw [same.slots] at hne ⊢
      exact .inl ⟨_, _, hm, hd, Slots.status_absent_of_ne hne⟩
    | setMasterVolume hx same => exact absurd (by rw [same.slots]) hne
    | dispatch hi hw same => exact absurd (by rw [same.slots]; exact hw.status j) hne
  | @complete ms g ok hm hg same =>
    have hslots := same.slots
    rw [State.complete_slots] at hslots
    split_ifs at hslots with hcur
    · subst hcur
      exact .inr ⟨ms, ok, hm, hg, hslots⟩
    · exact absurd (by rw [hslots]) hne
  | render hm hw hd same => exact absurd (by rw [same.slots]; exact status_slotsAfterBlock _ _ _ _ j) hne

/-! ### The completion of the current generation -/

/-- Rule R92: a slot is wired where its bit of the READY mask is set. -/
theorem wireSlot_ofBit {σ : Type} (fresh : σ) (m : BitVec 4) (k : Nat) :
    wireSlot fresh (.ofBit (m.extractLsb' k 1)) = if m.getLsbD k then some fresh else none := by
  have hbit : m.extractLsb' k 1 = BitVec.ofBool (m.getLsbD k) := by
    ext i hi
    obtain rfl : i = 0 := by omega
    simp
  rw [hbit]
  cases m.getLsbD k <;> rfl

theorem wireSlots_ofMask (m : BitVec 4) : wireSlots (Draw.ofMask m) =
    ⟨if m.getLsbD 0 then some defaultPulse else none, if m.getLsbD 1 then some defaultPulse else none,
      if m.getLsbD 2 then some defaultTriangle else none, if m.getLsbD 3 then some defaultNoise else none⟩ := by
  simp only [wireSlots, Draw.ofMask, wireSlot_ofBit]

/-- Below 2^64 the words of a response are those of its INIT_DONE (rules R86 and R92). -/
theorem responseWords_eq_encode (result : InitResult) (ready : BitVec 4) {g : Nat} (h : g < 2 ^ 64) :
    responseWords result ready g = encode (.initDone result ready g) := by
  rw [responseWords, generationOperand_of_lt h]
  rfl

/-- Settles O18: the INIT_DONE is that of the completion whose draw is the READY mask, which wires slot by slot. -/
theorem currentCompletionWiresAllSlots : Obligations.CurrentCompletionWiresAllSlots := by
  intro s result ready hpend hlt hresult
  have hreport : s.reportOf s.gen (Draw.ofMask ready) = (result, ready) := by
    rw [State.reportOf_current, Draw.result_ofMask, Draw.mask_ofMask]
    rcases hresult with ⟨hr, rfl⟩ | ⟨hr, rfl⟩
    · rw [if_pos hr]
    · rw [if_neg hr]
  have hexec := exec_initDoneOf hpend (Draw.ofMask ready)
  rw [State.initDoneOf, hreport] at hexec
  refine ⟨_, hexec, ?_, fun g => mem_eraseGeneration _ _ _⟩
  rw [State.complete, hreport, responseWords_eq_encode _ _ hlt, if_pos rfl, wireSlots_ofMask]
  rfl

/-! ### Rendering slot by slot -/

/-- A slot's state after a frame and the frames that follow is its state after them all. -/
theorem map_renderSlot_slotFrame {σ : Type} (sample : Nat → σ → Rat × σ) (N n : Nat) (x : Option σ) :
    ((slotFrame (sample n) x).2.map (renderSlot sample N (n + 1))).map (·.2) =
      (x.map (renderSlot sample (N + 1) n)).map (·.2) := by
  cases x <;> rfl

/-- Rule R143: the mixer's slots after a block are the slots rendered one by one. -/
theorem slotsAfterBlock_eq_renderSlot (c : Params) (N n : Nat) (sl : Slots) : slotsAfterBlock c N n sl =
    ⟨(sl.slot1.map (renderSlot (pulseFrame c) N n)).map (·.2), (sl.slot2.map (renderSlot (pulseFrame c) N n)).map (·.2),
      (sl.slot3.map (renderSlot (triangleFrame c) N n)).map (·.2),
      (sl.slot4.map (renderSlot (noiseFrame c) N n)).map (·.2)⟩ := by
  induction N generalizing n sl with
  | zero => simp [renderSlot, Function.comp_def]
  | succ N ih => simp only [slotsAfterBlock_succ, ih, slotsAfterFrame, map_renderSlot_slotFrame]

/-- Rule R205: sample `k` of a block is the mix at its own frame of the slots as `k` frames left them. -/
theorem blockSamples_getElem? (c : Params) (master : Rat) {N k : Nat} (n : Nat) (sl : Slots) (h : k < N) :
    (blockSamples c master N n sl)[k]? = some (mixSample c master (n + k) (slotsAfterBlock c k n sl)) := by
  induction N generalizing k n sl with
  | zero => omega
  | succ N ih =>
    cases k with
    | zero => rfl
    | succ k =>
      rw [blockSamples_succ, List.getElem?_cons_succ, ih (n + 1) _ (by omega), slotsAfterBlock_succ,
        Nat.add_assoc, Nat.add_comm 1 k]

/-- What a slot adds at frame `n + k`, as `k` frames left it, is sample `k` of its own rendering; an absent slot adds
0. -/
theorem slotFrame_renderSlot {σ : Type} (sample : Nat → σ → Rat × σ) {N k : Nat} (n : Nat) (x : Option σ) (h : k < N) :
    (slotFrame (sample (n + k)) ((x.map (renderSlot sample k n)).map (·.2))).1 =
      ((x.map (renderSlot sample N n)).map (·.1[k]?.getD 0)).getD 0 := by
  cases x with
  | none => rfl
  | some o => simp [renderSlot_getElem? sample n o h]

/-- Settles O48: the slots after a block are rendered one by one, so that each addend of a mix is a slot's
own sample. -/
theorem renderIsPerSlotRendering : Obligations.RenderIsPerSlotRendering := by
  intro c master N n sl
  refine ⟨slotsAfterBlock_eq_renderSlot c N n sl, fun k hk => ?_⟩
  rw [blockSamples_getElem? c master n sl hk, slotsAfterBlock_eq_renderSlot]
  simp only [mixSample, outputSample, slotSum, slotFrame_renderSlot _ n _ hk]

end Sys2Proof.Machine

/-! ### The ports

`20_memory.md`: who puts words on each port and who takes them off it, and what the block's transitions do with them. -/

namespace Sys2Proof

/-- The three words of an INIT_DONE, whatever result and mask they carry, decode to it (rule R92). -/
theorem decodeResponse_responseWord (result : InitResult) (ready : BitVec 4) (lo hi : Word) (rest : List Word) :
    decodeResponse (responseWord (bitsOfResult result) ready :: lo :: hi :: rest) =
      .ok (.initDone result ready (bits64 lo hi).toNat, rest) := by
  simp [decodeResponse]

end Sys2Proof

namespace Sys2Proof.Machine

/-! #### The response port -/

/-- No command of the command port writes `RESPQ` (rule R62). -/
theorem exec_command_respq {i : Instr} {s t : State} (hp : i.port = .command) (h : exec i s = .next t) :
    t.respq = s.respq := by
  rcases exec_command_next hp h with ⟨-, rfl⟩ | ⟨-, rfl⟩ | ⟨v, x, -, -, rfl⟩ | ⟨ch, eff, hz, duty, volume, -, ht, -⟩ |
    ⟨ch, eff, hz, -, ht, -⟩ | ⟨ch, mode, eff, hz, volume, -, ht, -⟩
  · rfl
  · rfl
  · rfl
  · rw [ht]
  · rw [ht]
  · rw [ht]

/-- Everything a step can do to `RESPQ`: leave it, take its oldest word off for the host, or append the response of a
completion (rules R62 and R191). -/
theorem step_respq {s t : State} (h : step s = .next t) :
    t.respq = s.respq ∨ (∃ ms, s.moves = .hostRead :: ms ∧ t.respq = s.respq.tail) ∨
      ∃ ms g ok, s.moves = .complete g ok :: ms ∧ g ∈ s.pending ∧
        t.respq = s.respq ++ responseWords (s.reportOf g ok).1 (s.reportOf g ok).2 g := by
  rcases step_next h with ⟨-, rfl⟩ | ⟨ms, i, rest, -, hd, he⟩ | ⟨ms, q, -, rfl, -⟩ | ⟨ms, g, ok, hm, hg, rfl⟩ |
    ⟨ms, g, ok, -, -, rfl⟩ | ⟨ms, w, -, -, -, rfl⟩ | ⟨ms, -, rfl, -⟩ | ⟨ms, w, -, rfl⟩ | ⟨ms, hm, rfl⟩ |
    ⟨ms, w, -, rfl⟩ | ⟨ms, -, rfl⟩
  · exact .inl rfl
  · exact .inl (exec_command_respq (s := { s with moves := ms, cmdq := rest }) (decodeCommand_port hd) he)
  · exact .inl rfl
  · exact .inr (.inr ⟨ms, g, ok, hm, hg, rfl⟩)
  · exact .inl rfl
  · exact .inl rfl
  · exact .inl rfl
  · exact .inl rfl
  · exact .inr (.inl ⟨ms, hm, rfl⟩)
  · exact .inl (State.sinkRequest_respq ..)
  · exact .inl rfl

/-- Settles O22: only a completion appends to `RESPQ`, and its three words decode to the INIT_DONE it reports. -/
theorem onlyInitDoneIsSentToTheHost : Obligations.OnlyInitDoneIsSentToTheHost := by
  intro s t h
  rcases step_respq h with hkeep | hread | ⟨ms, g, ok, hm, hg, hsent⟩
  · exact .inl hkeep
  · exact .inr (.inl hread)
  · exact .inr (.inr ⟨ms, g, ok, _, _, _, hm, hg, hsent, decodeResponse_responseWord ..⟩)

/-! #### The render port -/

theorem serveRequest_of_decode {s : State} {w : Word} {i : Instr} (hw : s.request = some w)
    (hd : decodeRender w = .ok i) : serveRequest s = exec i { s with request := none } := by
  simp only [serveRequest, hw, hd]

/-- Rule R95: a RESERVED word is answered with no block. -/
theorem serveRequest_of_reserved {s : State} {w : Word} {why : ReservedReason} (hw : s.request = some w)
    (hd : decodeRender w = .error why) : serveRequest s = .next { s with request := none } := by
  simp only [serveRequest, hw, hd]

/-- Settles O12: the two outcomes of serving a request word, by its decoding. -/
theorem stepServesTheRenderRequest : Obligations.StepServesTheRenderRequest := by
  intro s ms w hm hw
  rw [step_move hm, performMove_render]
  exact ⟨fun _ hd => serveRequest_of_decode hw hd, fun _ hd => serveRequest_of_reserved hw hd⟩

/-! #### Completions -/

theorem completeGeneration_of_mem {s : State} {g : Nat} (h : g ∈ s.pending) (ok : Draw) :
    completeGeneration g ok s = exec (s.initDoneOf g ok) s := if_pos h

theorem completeGeneration_of_not_mem {s : State} {g : Nat} (h : g ∉ s.pending) (ok : Draw) :
    completeGeneration g ok s = .next s := if_neg h

/-- Settles O13: taking the action off `moves` changes neither what is pending nor the INIT_DONE a completion sends. -/
theorem stepCompletesAPendingGeneration : Obligations.StepCompletesAPendingGeneration := by
  intro s ms g ok hm
  rw [step_move hm, performMove_complete]
  exact ⟨fun hg => completeGeneration_of_mem (s := { s with moves := ms }) hg ok,
    fun hg => completeGeneration_of_not_mem (s := { s with moves := ms }) hg ok⟩

/-! #### The host's and the sink's actions -/

/-- Settles O15: each action is one update of its own port. -/
theorem portActionsChangeOnlyTheirPort : Obligations.PortActionsChangeOnlyTheirPort := by
  intro s ms w
  refine ⟨fun hm => ?_, fun hm => ?_, fun hm => ?_, fun hm => ?_⟩ <;> rw [step_move hm]
  · rfl
  · rfl
  · rfl
  · rw [performMove_sinkRequest, State.sinkRequest_eq]

end Sys2Proof.Machine

/-! ### Encoding and decoding

`30_encoding.md`: a word is its fields, so a decoder that fixes or reads every field accepts exactly the words an
encoder writes (rules R80 to R92). -/

namespace Sys2Proof

/-! #### A word from its fields -/

/-- Rule R81: the six fields are all of a word. -/
theorem headerWord_fields (w : Word) :
    headerWord (opField w) (varField w) (modeField w) (chField w) (rsvField w) (framesField w) = w := by
  unfold headerWord opField varField modeField chField rsvField framesField
  iterate 5 rw [BitVec.extractLsb'_append_extractLsb'_eq_extractLsb' (by rfl)]
  exact BitVec.extractLsb'_eq_self

/-- A header with nothing below its OP has no bit but the OP's. -/
theorem eq_headerWord_of_belowOp {w : Word} (h : belowOp w = 0#28) :
    w = headerWord (opField w) 0#2 0#1 0#3 0#6 0#16 := by
  have hsplit : opField w ++ belowOp w = w :=
    (BitVec.extractLsb'_append_extractLsb'_eq_extractLsb' rfl).trans BitVec.extractLsb'_eq_self
  have hzero : ∀ op : BitVec 4, op ++ 0#28 = headerWord op 0#2 0#1 0#3 0#6 0#16 := by decide
  rw [← hzero, ← h, hsplit]

/-- The word of a RENDER_BLOCK with a frame count (rule R88). -/
def renderWord (frames : BitVec 16) : Word := headerWord 8#4 0#2 0#1 0#3 0#6 frames

/-- A word whose upper half is `0x8000` is the RENDER_BLOCK of its frame count (rule R88). -/
theorem eq_renderWord_of_upperHalf {w : Word} (h : w.extractLsb' 16 16 = 0x8000#16) :
    w = renderWord (framesField w) := by
  have hsplit : w.extractLsb' 16 16 ++ framesField w = w :=
    (BitVec.extractLsb'_append_extractLsb'_eq_extractLsb' rfl).trans BitVec.extractLsb'_eq_self
  rw [h] at hsplit
  exact hsplit.symm

theorem upperHalf_renderWord (frames : BitVec 16) : (renderWord frames).extractLsb' 16 16 = 0x8000#16 :=
  BitVec.extractLsb'_append_eq_left

theorem framesField_renderWord (frames : BitVec 16) : framesField (renderWord frames) = frames :=
  framesField_headerWord ..

/-- Rule R92: an INIT_DONE header is its RESULT and its READY mask. -/
theorem eq_responseWord {w : Word} (hop : opField w = 9#4) (hgap : responseGap w = 0#6)
    (hframes : framesField w = 0#16) : w = responseWord (resultField w) (readyField w) := by
  unfold responseWord
  rw [← hop, ← hgap, ← hframes]
  unfold opField resultField responseGap readyField framesField
  iterate 4 rw [BitVec.extractLsb'_append_extractLsb'_eq_extractLsb' (by rfl)]
  exact BitVec.extractLsb'_eq_self.symm

/-! #### Command headers -/

/-- The word of a command header (rules R81 to R84). -/
def Header.word : Header → Word
  | .createChannels => headerWord 1#4 0#2 0#1 0#3 0#6 0#16
  | .reset => headerWord 2#4 0#2 0#1 0#3 0#6 0#16
  | .setMasterVolume => headerWord 3#4 0#2 0#1 0#3 0#6 0#16
  | .squareNote ch => headerWord 4#4 0#2 0#1 ch 0#6 0#16
  | .triangleNote ch => headerWord 4#4 1#2 0#1 ch 0#6 0#16
  | .noiseNote ch mode => headerWord 4#4 2#2 (bitOfMode mode) ch 0#6 0#16

@[simp] theorem decodeHeader_word (h : Header) : decodeHeader h.word = .ok h := by
  cases h with
  | createChannels => rfl
  | reset => rfl
  | setMasterVolume => rfl
  | squareNote ch => simp [decodeHeader, decodeDispatchHeader, Header.word]
  | triangleNote ch => simp [decodeHeader, decodeDispatchHeader, Header.word]
  | noiseNote ch mode => simp [decodeHeader, decodeDispatchHeader, Header.word]

/-- Rule R90: the command port accepts a header word exactly as the word of the header it reads. -/
theorem decodeHeader_eq_ok_iff {w : Word} {h : Header} : decodeHeader w = .ok h ↔ w = h.word := by
  refine ⟨fun hd => ?_, fun hw => hw ▸ decodeHeader_word h⟩
  have hfields := headerWord_fields w
  obtain ⟨hrsv, ⟨hop, hlow, rfl⟩ | ⟨hop, hlow, rfl⟩ | ⟨hop, hlow, rfl⟩ |
    ⟨hop, hframes, ⟨hvar, hmode, rfl⟩ | ⟨hvar, hmode, rfl⟩ | ⟨hvar, rfl⟩⟩⟩ := decodeHeader_eq_ok hd
  · rw [eq_headerWord_of_belowOp hlow, hop]; rfl
  · rw [eq_headerWord_of_belowOp hlow, hop]; rfl
  · rw [eq_headerWord_of_belowOp hlow, hop]; rfl
  · rw [hop, hvar, hmode, hrsv, hframes] at hfields
    exact hfields.symm
  · rw [hop, hvar, hmode, hrsv, hframes] at hfields
    exact hfields.symm
  · rw [hop, hvar, hrsv, hframes] at hfields
    rw [Header.word, bitOfMode_modeOfBit, hfields]

/-! #### The encoder writes what each port's decoder reads -/

theorem encode_squareNote (ch : BitVec 3) (eff hz duty volume : Quad) :
    encode (.squareNote ch.toNat eff.toNat hz duty volume) = (Header.squareNote ch).word ::
      (operandWords eff ++ operandWords hz ++ operandWords duty ++ operandWords volume) := by
  simp [encode, dispatchHeader, Header.word]

theorem encode_triangleNote (ch : BitVec 3) (eff hz : Quad) :
    encode (.triangleNote ch.toNat eff.toNat hz) =
      (Header.triangleNote ch).word :: (operandWords eff ++ operandWords hz) := by
  simp [encode, dispatchHeader, Header.word]

theorem encode_noiseNote (ch : BitVec 3) (mode : NoiseMode) (eff hz volume : Quad) :
    encode (.noiseNote ch.toNat mode eff.toNat hz volume) = (Header.noiseNote ch mode).word ::
      (operandWords eff ++ operandWords hz ++ operandWords volume) := by
  simp [encode, dispatchHeader, Header.word]

theorem encode_renderBlock (frames : BitVec 16) : encode (.renderBlock frames.toNat) = [renderWord frames] := by
  simp [encode, renderWord]

theorem encode_initDone (result : InitResult) (ready : BitVec 4) (g : Quad) :
    encode (.initDone result ready g.toNat) = responseWord (bitsOfResult result) ready :: operandWords g := by
  simp [encode]

/-- Rule R86: two words are the operand they carry. -/
@[simp] theorem operandWords_bits64 (lo hi : Word) : operandWords (bits64 lo hi) = [lo, hi] := by
  simp [operandWords]

/-- A number that fits its field is the value of the field's bits. -/
theorem exists_bits_of_lt {n k : Nat} (w : Nat) (h : n < k) (hk : k = 2 ^ w) : ∃ b : BitVec w, n = b.toNat :=
  ⟨BitVec.ofNat w n, (toNat_ofNat_of_lt (hk ▸ h)).symm⟩

/-- What a well-formed DISPATCH's channel and `AT` are: values of their fields (rules R85 and R86). -/
theorem exists_fields_of_dispatchOk {ch eff : Nat} (h : (channelOk ch && frameOperandOk eff) = true) :
    (∃ c : BitVec 3, ch = c.toNat) ∧ ∃ e : Quad, eff = e.toNat := by
  simp only [channelOk, frameOperandOk, Bool.and_eq_true, decide_eq_true_eq] at h
  exact ⟨exists_bits_of_lt 3 h.1 rfl, exists_bits_of_lt 64 h.2 rfl⟩

/-- Rules R90 and R91: a well-formed command is the word of a header and the operands that header asks for. -/
theorem exists_header_of_command {i : Instr} (hp : i.port = .command) (hwf : i.wellFormed = true) :
    ∃ h ops, encode i = h.word :: ops ∧ h.length = (encode i).length ∧
      ∀ rest, decodeOperands h (ops ++ rest) = .ok (i, rest) := by
  cases i with
  | createChannels => exact ⟨.createChannels, [], rfl, rfl, fun _ => rfl⟩
  | reset => exact ⟨.reset, [], rfl, rfl, fun _ => rfl⟩
  | setMasterVolume v =>
    exact ⟨.setMasterVolume, operandWords v, rfl, rfl, fun _ => by simp [operandWords, decodeOperands]⟩
  | squareNote ch eff hz duty volume =>
    obtain ⟨⟨c, rfl⟩, e, rfl⟩ := exists_fields_of_dispatchOk hwf
    exact ⟨.squareNote c, _, encode_squareNote .., rfl, fun _ => by simp [operandWords, decodeOperands]⟩
  | triangleNote ch eff hz =>
    obtain ⟨⟨c, rfl⟩, e, rfl⟩ := exists_fields_of_dispatchOk hwf
    exact ⟨.triangleNote c, _, encode_triangleNote .., rfl, fun _ => by simp [operandWords, decodeOperands]⟩
  | noiseNote ch mode eff hz volume =>
    obtain ⟨⟨c, rfl⟩, e, rfl⟩ := exists_fields_of_dispatchOk hwf
    exact ⟨.noiseNote c mode, _, encode_noiseNote .., rfl, fun _ => by simp [operandWords, decodeOperands]⟩
  | renderBlock n => cases hp
  | initDone r m g => cases hp

theorem decodeCommand_encode {i : Instr} (hp : i.port = .command) (hwf : i.wellFormed = true) (rest : List Word) :
    decodeCommand (encode i ++ rest) = .ok (i, rest) := by
  obtain ⟨h, ops, henc, -, hops⟩ := exists_header_of_command hp hwf
  rw [henc, List.cons_append, decodeCommand, decodeHeader_word]
  exact hops rest

/-- The render port carries RENDER_BLOCK alone (rule R82). -/
theorem exists_renderBlock_of_port {i : Instr} (hp : i.port = .render) : ∃ n, i = .renderBlock n := by
  cases i <;> cases hp
  exact ⟨_, rfl⟩

/-- The response port carries INIT_DONE alone (rule R92). -/
theorem exists_initDone_of_port {i : Instr} (hp : i.port = .response) : ∃ r m g, i = .initDone r m g := by
  cases i <;> cases hp
  exact ⟨_, _, _, rfl⟩

/-- Rules R88 and R90: a well-formed RENDER_BLOCK is one word, which the render port reads back. -/
theorem exists_renderWord {i : Instr} (hp : i.port = .render) (hwf : i.wellFormed = true) :
    ∃ f, encode i = [renderWord f] ∧ decodeRender (renderWord f) = .ok i := by
  obtain ⟨n, rfl⟩ := exists_renderBlock_of_port hp
  obtain ⟨f, rfl⟩ := exists_bits_of_lt 16 (of_decide_eq_true hwf) rfl
  refine ⟨f, encode_renderBlock f, ?_⟩
  rw [decodeRender, if_pos (upperHalf_renderWord f), framesField_renderWord]

theorem decodeResponse_encode {i : Instr} (hp : i.port = .response) (hwf : i.wellFormed = true) (rest : List Word) :
    decodeResponse (encode i ++ rest) = .ok (i, rest) := by
  obtain ⟨r, m, g, rfl⟩ := exists_initDone_of_port hp
  obtain ⟨q, rfl⟩ := exists_bits_of_lt 64 (of_decide_eq_true (Bool.and_eq_true_iff.mp hwf).2) rfl
  rw [encode_initDone]
  exact (decodeResponse_responseWord r m _ _ rest).trans (by rw [bits64_words])

/-- Rules R80 to R92: the port of a well-formed instruction reads it from its words, and leaves what follows them. -/
theorem decodePort_encode {i : Instr} (hwf : i.wellFormed = true) (rest : List Word) :
    decodePort i.port (encode i ++ rest) = .ok (i, rest) := by
  cases hp : i.port with
  | command => exact decodeCommand_encode hp hwf rest
  | render =>
    obtain ⟨f, henc, hdec⟩ := exists_renderWord hp hwf
    rw [henc, List.cons_append, List.nil_append, decodePort, hdec]
  | response => exact decodeResponse_encode hp hwf rest

/-- Settles O5: the header word decodes to its header, the operands are read back pair by pair, and the bytes of words
carry those words. -/
theorem decodeOfEncodeIsTheInstruction : Obligations.DecodeOfEncodeIsTheInstruction := by
  intro i rest hwf
  refine ⟨decodePort_encode hwf rest, ?_⟩
  rw [decodeBytes, wordsOfBytes_bytesOfWords]
  exact decodePort_encode hwf rest

/-! #### Each port's decoder accepts only what the encoder writes -/

/-- Rules R86 and R87: the operands a header takes, behind its word, are the encoding of what they make. -/
theorem encode_of_decodeOperands {h : Header} {ws rest : List Word} {i : Instr}
    (hd : decodeOperands h ws = .ok (i, rest)) : encode i ++ rest = h.word :: ws := by
  unfold decodeOperands at hd
  split at hd <;> cases hd
  · rfl
  · rfl
  · simp [encode, Header.word]
  · simp [encode_squareNote]
  · simp [encode_triangleNote]
  · simp [encode_noiseNote]

theorem encode_of_decodeCommand {ws rest : List Word} {i : Instr} (hd : decodeCommand ws = .ok (i, rest)) :
    encode i ++ rest = ws := by
  obtain ⟨w, ws, h, rfl, hh, ho⟩ := decodeCommand_eq_ok hd
  rw [encode_of_decodeOperands ho, decodeHeader_eq_ok_iff.mp hh]

theorem encode_of_decodeRender {w : Word} {i : Instr} (hd : decodeRender w = .ok i) : encode i = [w] := by
  rw [Machine.decodeRender_eq_ok hd, encode_renderBlock]
  unfold decodeRender at hd
  split_ifs at hd with hupper
  rw [← eq_renderWord_of_upperHalf hupper]

/-- Rule R92: an accepted response is its header's RESULT and READY and a generation of two words. -/
theorem decodeResponse_eq_ok {ws rest : List Word} {i : Instr} (hd : decodeResponse ws = .ok (i, rest)) :
    ∃ result ready gl gh, ws = responseWord (bitsOfResult result) ready :: gl :: gh :: rest ∧
      i = .initDone result ready (bits64 gl gh).toNat := by
  unfold decodeResponse at hd
  split at hd
  · cases hd
  · rename_i w ws
    split_ifs at hd with hop hzero
    obtain ⟨hgap, hframes⟩ := not_or.mp hzero
    split at hd
    · rename_i gl gh rest'
      cases hd
      refine ⟨resultOfBits (resultField w), readyField w, gl, gh, ?_, rfl⟩
      rw [bitsOfResult_resultOfBits, ← eq_responseWord (not_not.mp hop) (not_not.mp hgap) (not_not.mp hframes)]
    · cases hd

/-- Settles O6: an accepted header is the word of what it reads, and each operand is read from both of its words. -/
theorem encodeOfDecodeIsTheWords : Obligations.EncodeOfDecodeIsTheWords := by
  intro p ws rest i hd
  cases p with
  | command => exact ⟨Machine.decodeCommand_port hd, encode_of_decodeCommand hd⟩
  | render =>
    cases ws with
    | nil => cases hd
    | cons w ws =>
      cases hr : decodeRender w with
      | error why =>
        rw [decodePort, hr] at hd
        cases hd
      | ok j =>
        rw [decodePort, hr] at hd
        cases hd
        exact ⟨Machine.decodeRender_eq_ok hr ▸ rfl, by rw [encode_of_decodeRender hr]; rfl⟩
  | response =>
    obtain ⟨result, ready, gl, gh, rfl, rfl⟩ := decodeResponse_eq_ok hd
    exact ⟨rfl, by simp [encode_initDone]⟩

/-! #### The opcode table's command rows -/

/-- Two words are equal exactly where their six fields are (rule R81). -/
theorem word_eq_iff_fields {w v : Word} : w = v ↔ opField w = opField v ∧ varField w = varField v ∧
    modeField w = modeField v ∧ chField w = chField v ∧ rsvField w = rsvField v ∧ framesField w = framesField v := by
  refine ⟨fun h => h ▸ ⟨rfl, rfl, rfl, rfl, rfl, rfl⟩, fun ⟨hop, hvar, hmode, hch, hrsv, hframes⟩ => ?_⟩
  rw [← headerWord_fields w, ← headerWord_fields v, hop, hvar, hmode, hch, hrsv, hframes]

@[simp] theorem opField_and (v w : Word) : opField (v &&& w) = opField v &&& opField w := BitVec.extractLsb'_and
@[simp] theorem varField_and (v w : Word) : varField (v &&& w) = varField v &&& varField w := BitVec.extractLsb'_and
@[simp] theorem modeField_and (v w : Word) : modeField (v &&& w) = modeField v &&& modeField w := BitVec.extractLsb'_and
@[simp] theorem chField_and (v w : Word) : chField (v &&& w) = chField v &&& chField w := BitVec.extractLsb'_and
@[simp] theorem rsvField_and (v w : Word) : rsvField (v &&& w) = rsvField v &&& rsvField w := BitVec.extractLsb'_and
@[simp] theorem framesField_and (v w : Word) : framesField (v &&& w) = framesField v &&& framesField w :=
  BitVec.extractLsb'_and

/-- Masking a word masks its fields one by one. -/
theorem and_headerWord (w : Word) (op : BitVec 4) (var : BitVec 2) (mode : BitVec 1) (ch : BitVec 3) (rsv : BitVec 6)
    (frames : BitVec 16) : w &&& headerWord op var mode ch rsv frames =
      headerWord (opField w &&& op) (varField w &&& var) (modeField w &&& mode) (chField w &&& ch)
        (rsvField w &&& rsv) (framesField w &&& frames) := by
  simp [word_eq_iff_fields]

/-- A DISPATCH row that leaves only the channel free. -/
theorem matches_channel_row_iff {w : Word} {var : BitVec 2} :
    w &&& 0xFE3FFFFF#32 = headerWord 4#4 var 0#1 0#3 0#6 0#16 ↔ ∃ ch, w = headerWord 4#4 var 0#1 ch 0#6 0#16 := by
  have hmask : 0xFE3FFFFF#32 = headerWord (.allOnes 4) (.allOnes 2) (.allOnes 1) 0#3 (.allOnes 6) (.allOnes 16) := rfl
  rw [hmask, and_headerWord]
  simp only [BitVec.and_allOnes, BitVec.and_zero]
  simp [word_eq_iff_fields]

/-- The DISPATCH row that leaves the mode free too. -/
theorem matches_channel_mode_row_iff {w : Word} :
    w &&& 0xFC3FFFFF#32 = headerWord 4#4 2#2 0#1 0#3 0#6 0#16 ↔
      ∃ ch mode, w = headerWord 4#4 2#2 mode ch 0#6 0#16 := by
  have hmask : 0xFC3FFFFF#32 = headerWord (.allOnes 4) (.allOnes 2) 0#1 0#3 (.allOnes 6) (.allOnes 16) := rfl
  rw [hmask, and_headerWord]
  simp only [BitVec.and_allOnes, BitVec.and_zero]
  simp [word_eq_iff_fields]

/-- Settles O9: an accepted header is the word of a header, and the words of each kind of header are those its row
matches. -/
theorem commandHeaderAcceptedIffTableRow : Obligations.CommandHeaderAcceptedIffTableRow := by
  intro w
  have hfull : w &&& 0xFFFFFFFF#32 = w := BitVec.and_allOnes
  have hsquare : w &&& 0xFE3FFFFF#32 = 0x40000000#32 ↔ ∃ ch, w = (Header.squareNote ch).word :=
    matches_channel_row_iff (var := 0#2)
  have htriangle : w &&& 0xFE3FFFFF#32 = 0x44000000#32 ↔ ∃ ch, w = (Header.triangleNote ch).word :=
    matches_channel_row_iff (var := 1#2)
  have hnoise : w &&& 0xFC3FFFFF#32 = 0x48000000#32 ↔ ∃ ch mode, w = headerWord 4#4 2#2 mode ch 0#6 0#16 :=
    matches_channel_mode_row_iff
  simp only [decodeHeader_eq_ok_iff, hfull, hsquare, htriangle, hnoise]
  constructor
  · rintro ⟨h, hw⟩
    cases h with
    | createChannels => exact .inl hw
    | reset => exact .inr (.inl hw)
    | setMasterVolume => exact .inr (.inr (.inl hw))
    | squareNote ch => exact .inr (.inr (.inr (.inl ⟨ch, hw⟩)))
    | triangleNote ch => exact .inr (.inr (.inr (.inr (.inl ⟨ch, hw⟩))))
    | noiseNote ch mode => exact .inr (.inr (.inr (.inr (.inr ⟨ch, bitOfMode mode, hw⟩))))
  · rintro (hw | hw | hw | ⟨ch, hw⟩ | ⟨ch, hw⟩ | ⟨ch, mode, hw⟩)
    · exact ⟨.createChannels, hw⟩
    · exact ⟨.reset, hw⟩
    · exact ⟨.setMasterVolume, hw⟩
    · exact ⟨.squareNote ch, hw⟩
    · exact ⟨.triangleNote ch, hw⟩
    · exact ⟨.noiseNote ch (modeOfBit mode), by rw [Header.word, bitOfMode_modeOfBit, hw]⟩

/-! #### Words written out in the spec -/

/-- Settles O8: each word list is a closed term that its port's decoder evaluates. -/
theorem specWordsDecode : Obligations.SpecWordsDecode := ⟨rfl, rfl, rfl, rfl, rfl, rfl, rfl⟩

end Sys2Proof

namespace Sys2Proof.Machine

/-- Settles O7: each line is closed text, read and encoded by evaluation. -/
theorem workedEncodings : Obligations.WorkedEncodings := by
  unfold Obligations.WorkedEncodings
  decide +kernel

/-! #### Blocks as words (rule R93) -/

theorem f64_positive_zero : f64 0#64 = some 0 := by decide +kernel

theorem f64_negative_zero : f64 0x8000000000000000#64 = some 0 := by decide +kernel

/-- Rule R138: a sample travels in a pattern of its value, whichever zero stands for 0. -/
theorem samplePattern_of_f64 {b : Quad} {x : Rat} (n : Nat) (h : f64 b = some x) :
    ∃ b', samplePattern n x = some b' ∧ f64 b' = some x := by
  unfold samplePattern
  split_ifs with hx hneg
  · exact ⟨_, rfl, hx ▸ f64_negative_zero⟩
  · exact ⟨_, rfl, hx ▸ f64_positive_zero⟩
  · refine ⟨b, binary64PatternRoundTrip b x h ?_, h⟩
    rintro rfl
    exact hx (Option.some.inj (h.symm.trans f64_negative_zero))

/-- A block of binary64 numbers travels as the operand words of one pattern for each sample, in frame order. -/
theorem blockWords_eq_operandWords (n : Nat) {xs : List Rat} (h : ∀ x ∈ xs, ∃ b, f64 b = some x) :
    ∃ bs : List Quad, blockWords n xs = some (bs.flatMap operandWords) ∧ bs.map f64 = xs.map some := by
  induction xs generalizing n with
  | nil => exact ⟨[], rfl, rfl⟩
  | cons x xs ih =>
    obtain ⟨⟨b, hb⟩, hxs⟩ := List.forall_mem_cons.mp h
    obtain ⟨b', hpattern, hb'⟩ := samplePattern_of_f64 n hb
    obtain ⟨bs, hwords, hbs⟩ := ih (n + 1) hxs
    refine ⟨b' :: bs, ?_, by rw [List.map_cons, List.map_cons, hb', hbs]⟩
    simp [blockWords, sampleWords, hpattern, hwords]

theorem length_flatMap_operandWords (bs : List Quad) : (bs.flatMap operandWords).length = 2 * bs.length := by
  induction bs with
  | nil => rfl
  | cons b bs ih => simp [operandWords, ih]; omega

/-- Rule R86: the words of operand `k` stand at `2 k` and `2 k + 1`, the low one first. -/
theorem getElem?_flatMap_operandWords (bs : List Quad) (k : Nat) :
    (bs.flatMap operandWords)[2 * k]? = bs[k]?.map lowWord ∧
      (bs.flatMap operandWords)[2 * k + 1]? = bs[k]?.map highWord := by
  induction bs generalizing k with
  | nil => simp
  | cons b bs ih =>
    cases k with
    | zero => exact ⟨rfl, rfl⟩
    | succ k => exact ih k

/-- Settles O60: a block is the operand words of one pattern for each sample, and a pattern is its two words. -/
theorem blockTravelsAsBinary64Words : Obligations.BlockTravelsAsBinary64Words := by
  intro n xs h
  obtain ⟨bs, hwords, hvalues⟩ := blockWords_eq_operandWords n h
  have hlength : bs.length = xs.length := by simpa using congrArg List.length hvalues
  refine ⟨_, hwords, by rw [length_flatMap_operandWords, hlength], fun k hk => ?_⟩
  obtain ⟨hlow, hhigh⟩ := getElem?_flatMap_operandWords bs k
  have hb : bs[k]? = some (bs[k]'(hlength ▸ hk)) := List.getElem?_eq_getElem _
  rw [hb] at hlow hhigh
  refine ⟨_, _, hlow, hhigh, ?_⟩
  have hvalue := congrArg (·[k]?) hvalues
  simpa [hb, hk] using hvalue

/-! #### Placed words (assumption log 9) -/

theorem portOfHeader_word (h : Header) : portOfHeader h.word = .command := by
  cases h <;> simp [portOfHeader, Header.word]

/-- The words of a well-formed command are placed whole at the head of `CMDQ`, with an APPLY before the other
actions. -/
theorem placeWords_command {i : Instr} (hp : i.port = .command) (hwf : i.wellFormed = true) (s : State) :
    s.placeWords (encode i) = { s with cmdq := encode i ++ s.cmdq, moves := .apply :: s.moves } := by
  obtain ⟨h, ops, henc, hlen, -⟩ := exists_header_of_command hp hwf
  rw [henc] at hlen ⊢
  simp only [State.placeWords, List.headD_cons, portOfHeader_word, decodeHeader_word, hlen, List.take_length]

theorem placeWords_render (s : State) (frames : BitVec 16) :
    s.placeWords [renderWord frames] = { s with request := some (renderWord frames), moves := .render :: s.moves } := by
  simp [State.placeWords, portOfHeader, renderWord]

/-- The state in which the completion of `g` sends a response with this RESULT: `g` is pending, and current unless the
RESULT is STALE. `placeWords_response` ties it to the placing. -/
def State.awaiting (s : State) (result : InitResult) (g : Nat) : State :=
  { s with
    gen := if result = .stale then max s.gen (g + 1) else g
    pending := insertGeneration g s.pending }

theorem mem_pending_awaiting (s : State) (result : InitResult) (g : Nat) : g ∈ (s.awaiting result g).pending :=
  (mem_insertGeneration _ _ _).mpr (.inr rfl)

theorem eq_gen_awaiting_iff (s : State) (result : InitResult) (g : Nat) :
    g = (s.awaiting result g).gen ↔ result ≠ .stale := by
  by_cases hstale : result = .stale <;> simp [State.awaiting, hstale]
  omega

/-- For a well-formed INIT_DONE the completion it names is placed, on the state in which that completion sends it. -/
theorem placeWords_response {result : InitResult} {ready : BitVec 4} {g : Nat}
    (hwf : (Instr.initDone result ready g).wellFormed = true) (s : State) :
    s.placeWords (encode (.initDone result ready g)) =
      { s.awaiting result g with moves := .complete g (Draw.ofMask ready) :: s.moves } := by
  have hport : portOfHeader (responseWord (bitsOfResult result) ready) = .response := by simp [portOfHeader]
  have hdec := decodeResponse_encode rfl hwf []
  rw [List.append_nil] at hdec
  unfold State.placeWords
  rw [hdec]
  simp only [encode, List.headD_cons, hport, State.awaiting]

theorem applyHead_of_decode {s : State} {i : Instr} {rest : List Word} (hd : decodeCommand s.cmdq = .ok (i, rest)) :
    applyHead s = exec i { s with cmdq := rest } := by
  simp only [applyHead, hd]

/-- Rules R188, R191, R192: a RESULT and a READY mask that go together are reported by the completion with that mask's
draw, of the current generation unless the RESULT is STALE. -/
theorem reportOf_eq_of_resultOk {s : State} {result : InitResult} {ready : BitVec 4} {g : Nat}
    (hok : resultOk result ready = true) (hgen : g = s.gen ↔ result ≠ .stale) :
    s.reportOf g (Draw.ofMask ready) = (result, ready) := by
  by_cases hstale : result = .stale
  · subst hstale
    rw [State.reportOf_stale fun h => hgen.mp h rfl, of_decide_eq_true hok]
  · obtain rfl := hgen.mpr hstale
    rw [State.reportOf_current, Draw.mask_ofMask, Draw.result_ofMask]
    cases result with
    | ok => rw [if_pos (of_decide_eq_true hok)]
    | failed => rw [if_neg (of_decide_eq_true hok)]
    | stale => exact absurd rfl hstale
    | unsent => cases hok

/-- Settles O14: the placing puts the words where their port's decoder reads them back, or the completion that sends the
response. -/
theorem stepRunsPlacedWords : Obligations.StepRunsPlacedWords := by
  intro i s hwf
  refine ⟨fun hp => ?_, fun hp => ?_, fun hp => ?_⟩
  · rw [placeWords_command hp hwf, step_move rfl, performMove_apply,
      applyHead_of_decode (decodeCommand_encode hp hwf _)]
  · obtain ⟨f, henc, hdec⟩ := exists_renderWord hp hwf
    rw [henc, placeWords_render, step_move rfl, performMove_render, serveRequest_of_decode rfl hdec]
  · obtain ⟨result, ready, g, rfl⟩ := exists_initDone_of_port hp
    obtain ⟨hok, -⟩ := Bool.and_eq_true_iff.mp hwf
    have hpend := mem_pending_awaiting s result g
    have hsent : (s.awaiting result g).initDoneOf g (Draw.ofMask ready) = .initDone result ready g := by
      rw [State.initDoneOf, reportOf_eq_of_resultOk hok (eq_gen_awaiting_iff s result g)]
    have hstep : step (s.placeWords (encode (.initDone result ready g))) =
        exec (.initDone result ready g) (s.awaiting result g) := by
      rw [placeWords_response hwf, step_move rfl, performMove_complete, ← hsent]
      exact completeGeneration_of_mem hpend _
    exact ⟨_, _, hstep, _, hsent ▸ exec_initDoneOf hpend (Draw.ofMask ready)⟩

end Sys2Proof.Machine

/-! ### The noise sequence

`40_noise_sequence.md`: the step of the shift register is linear over exclusive or. Its characteristic polynomial
x^15 + x^t + 1 gives the periods of rules R117 and R118. -/

namespace Sys2Proof.Machine

open Function

/-! #### One step -/

/-- Rule R113: the step map is linear over exclusive or. -/
theorem shiftRegister_xor (t : Nat) (a b : BitVec 15) :
    shiftRegister t (a ^^^ b) = shiftRegister t a ^^^ shiftRegister t b := by
  apply BitVec.eq_of_getLsbD_eq
  intro j _
  simp only [BitVec.getLsbD_xor, getLsbD_shiftRegister, feedbackBit]
  split_ifs
  · simp only [Bool.xor_assoc, Bool.xor_left_comm]
  · rfl

@[simp] theorem shiftRegister_zero (t : Nat) : shiftRegister t 0#15 = 0#15 := by
  simpa using shiftRegister_xor t 0#15 0#15

theorem shiftRegister_injective {t : Nat} (ht : 1 ≤ t) : Injective (shiftRegister t) := by
  intro a b hab
  by_contra hne
  refine shiftRegister_ne_zero ht (mt BitVec.xor_eq_zero_iff.mp hne) ?_
  rw [shiftRegister_xor, hab, BitVec.xor_self]

theorem reseed_of_ne_zero {r : BitVec 15} (hr : r ≠ 0#15) : reseed r = r := if_neg hr

theorem nextRegister_of_ne_zero (m : NoiseMode) {r : BitVec 15} (hr : r ≠ 0#15) :
    nextRegister m r = shiftRegister (tapBit m) r := by
  rw [nextRegister, reseed_of_ne_zero hr]

/-- Rule R114: NS_NEXT takes a zero register for the seed. -/
theorem nextRegister_zero (m : NoiseMode) : nextRegister m 0#15 = nextRegister m 1#15 := by
  simp [nextRegister, reseed]

/-- Settles O38: the bits are those of `getLsbD_shiftRegister`, with the guard of R114 idle off 0. -/
theorem nsNextShiftsAndFeedsBack : Obligations.NsNextShiftsAndFeedsBack := by
  intro o mode
  refine ⟨rfl, fun hz => ?_, fun hr => ?_⟩
  · simp only [nsNext, hz, nextRegister_zero]
  · have hnext : (nsNext o).2.lfsr = shiftRegister (tapBit o.seqMode) o.lfsr := nextRegister_of_ne_zero _ hr
    refine ⟨rfl, fun j hj => ?_, ?_, rfl⟩
    · rw [hnext, getLsbD_shiftRegister, if_neg hj.ne]
    · rw [hnext, getLsbD_shiftRegister, if_pos rfl, feedbackBit]
      cases o.seqMode <;> rfl

/-! #### Many steps -/

theorem registerAfter_ne_zero (m : NoiseMode) (k : Nat) {r : BitVec 15} (hr : r ≠ 0#15) :
    registerAfter m k r ≠ 0#15 := by
  induction k generalizing r with
  | zero => exact hr
  | succ k ih => exact ih (nextRegister_ne_zero m r)

/-- Settles O35: a linear map that sends no nonzero register to 0 is one to one, and the registers are finitely many. -/
theorem shiftRegisterIsABijection : Obligations.ShiftRegisterIsABijection :=
  ⟨fun t h1 _ => ⟨Finite.injective_iff_bijective.mp (shiftRegister_injective h1), shiftRegister_zero t⟩,
    fun m k => registerAfter_ne_zero m k (by decide)⟩

theorem iterate_shiftRegister_xor (t k : Nat) (a b : BitVec 15) :
    (shiftRegister t)^[k] (a ^^^ b) = (shiftRegister t)^[k] a ^^^ (shiftRegister t)^[k] b := by
  induction k generalizing a b with
  | zero => rfl
  | succ k ih => simp only [iterate_succ_apply, shiftRegister_xor, ih]

/-- A bit that stays in the register moves down one place a step. -/
theorem getLsbD_iterate_shiftRegister (t : Nat) {k j : Nat} (h : k + j < 15) (r : BitVec 15) :
    ((shiftRegister t)^[k] r).getLsbD j = r.getLsbD (k + j) := by
  induction k generalizing r with
  | zero => rw [iterate_zero_apply, Nat.zero_add]
  | succ k ih =>
    rw [iterate_succ_apply, ih (by omega), getLsbD_shiftRegister, if_neg (by omega), Nat.succ_add]

/-- The register is the next 15 bits of the sequence of its bit 0. -/
theorem getLsbD_eq_iterate_bit_zero (t : Nat) {j : Nat} (hj : j < 15) (r : BitVec 15) :
    r.getLsbD j = ((shiftRegister t)^[j] r).getLsbD 0 := by
  rw [getLsbD_iterate_shiftRegister t (by omega), Nat.add_zero]

/-- The characteristic polynomial of the step is x^15 + x^t + 1. -/
theorem iterate_shiftRegister_fifteen {t : Nat} (ht : t < 15) (r : BitVec 15) :
    (shiftRegister t)^[15] r = r ^^^ (shiftRegister t)^[t] r := by
  apply BitVec.eq_of_getLsbD_eq
  intro i hi
  have hfeed : ((shiftRegister t)^[15] r).getLsbD i = feedbackBit t ((shiftRegister t)^[i] r) := by
    have hsplit : (shiftRegister t)^[15] r = (shiftRegister t)^[14 - i] ((shiftRegister t)^[i + 1] r) := by
      rw [← iterate_add_apply, show 14 - i + (i + 1) = 15 by omega]
    rw [hsplit, getLsbD_iterate_shiftRegister t (by omega), iterate_succ_apply', getLsbD_shiftRegister,
      if_pos (by omega)]
  have htap : ((shiftRegister t)^[i] r).getLsbD t = ((shiftRegister t)^[t] r).getLsbD i := by
    rw [getLsbD_eq_iterate_bit_zero t ht, getLsbD_eq_iterate_bit_zero t hi, ← iterate_add_apply, ← iterate_add_apply,
      Nat.add_comm]
  rw [hfeed, feedbackBit, htap, ← getLsbD_eq_iterate_bit_zero t hi, BitVec.getLsbD_xor]

theorem xor_cancel_middle (a b c : BitVec 15) : a ^^^ b ^^^ (b ^^^ c) = a ^^^ c := by
  rw [BitVec.xor_assoc, ← BitVec.xor_assoc b, BitVec.xor_self, BitVec.zero_xor]

/-- Over exclusive or a relation of three terms squares term by term. -/
theorem iterate_shiftRegister_double {t m i j : Nat}
    (h : ∀ r, (shiftRegister t)^[m] r = (shiftRegister t)^[i] r ^^^ (shiftRegister t)^[j] r) (r : BitVec 15) :
    (shiftRegister t)^[2 * m] r = (shiftRegister t)^[2 * i] r ^^^ (shiftRegister t)^[2 * j] r := by
  have hcross : (shiftRegister t)^[j] ((shiftRegister t)^[i] r) = (shiftRegister t)^[i] ((shiftRegister t)^[j] r) := by
    rw [← iterate_add_apply, ← iterate_add_apply, Nat.add_comm]
  simp only [Nat.two_mul, iterate_add_apply, h, iterate_shiftRegister_xor, hcross, xor_cancel_middle]

/-! #### Least periods -/

/-- A period is the least one when no quotient of it by a prime is a period. -/
theorem minimalPeriod_eq_of_primeFactorsList {α : Type} {f : α → α} {x : α} {n : Nat} (hn : n ≠ 0)
    (h : IsPeriodicPt f n x) (hp : ∀ p ∈ n.primeFactorsList, ¬IsPeriodicPt f (n / p) x) : minimalPeriod f x = n := by
  obtain ⟨a, rfl⟩ := h.minimalPeriod_dvd
  by_contra hne
  obtain ⟨p, hprime, b, rfl⟩ := Nat.exists_prime_and_dvd fun ha : a = 1 => hne (by rw [ha, Nat.mul_one])
  refine hp p ((Nat.mem_primeFactorsList hn).mpr ⟨hprime, minimalPeriod f x * b, by ac_rfl⟩)
    (isPeriodicPt_iff_minimalPeriod_dvd.mpr ⟨b, ?_⟩)
  rw [Nat.mul_left_comm, Nat.mul_div_cancel_left _ hprime.pos]

/-- Rule R118: at the seed the step with tap 6 has least period 93 = 3 * 31. -/
theorem minimalPeriod_shiftRegister_six : minimalPeriod (shiftRegister 6) 1#15 = 93 := by
  have hperiod : (shiftRegister 6)^[93] 1#15 = 1#15 := by decide +kernel
  refine minimalPeriod_eq_of_primeFactorsList (by decide) hperiod ?_
  simp only [Nat.primeFactorsList_ofNat, List.forall_mem_cons, IsPeriodicPt, IsFixedPt]
  decide +kernel

/-- x^16 + x^2 + x in its squares: with tap 1 the register 2^(k+4) steps on is that 2^k on and that 2^(k+1) on. -/
theorem iterate_shiftRegister_one_two_pow_add_four (k : Nat) (r : BitVec 15) :
    (shiftRegister 1)^[2 ^ (k + 4)] r = (shiftRegister 1)^[2 ^ k] r ^^^ (shiftRegister 1)^[2 ^ (k + 1)] r := by
  induction k generalizing r with
  | zero => exact iterate_shiftRegister_fifteen (by decide) (shiftRegister 1 r)
  | succ k ih =>
    simpa only [← Nat.pow_succ', Nat.succ_eq_add_one, Nat.add_right_comm _ 1] using iterate_shiftRegister_double ih r

/-- The same relation after two uses of it: x^256 + x^4 + x in its squares. -/
theorem iterate_shiftRegister_one_two_pow_add_eight (k : Nat) (r : BitVec 15) :
    (shiftRegister 1)^[2 ^ (k + 8)] r = (shiftRegister 1)^[2 ^ k] r ^^^ (shiftRegister 1)^[2 ^ (k + 2)] r := by
  rw [iterate_shiftRegister_one_two_pow_add_four (k + 4), iterate_shiftRegister_one_two_pow_add_four k,
    Nat.add_right_comm k 4 1, iterate_shiftRegister_one_two_pow_add_four (k + 1), xor_cancel_middle]

theorem iterate_shiftRegister_one_two_pow_fifteen (r : BitVec 15) :
    (shiftRegister 1)^[2 ^ 15] r = shiftRegister 1 r := by
  calc (shiftRegister 1)^[2 ^ 15] r
    _ = (shiftRegister 1)^[2 ^ 7] r ^^^ (shiftRegister 1)^[2 ^ 9] r :=
      iterate_shiftRegister_one_two_pow_add_eight 7 r
    _ = (shiftRegister 1)^[2 ^ 4] r ^^^ (shiftRegister 1)^[2 ^ 3] r ^^^
        ((shiftRegister 1)^[2 ^ 3] r ^^^ (shiftRegister 1)^[2 ^ 1] r) := by
      rw [iterate_shiftRegister_one_two_pow_add_four 3, iterate_shiftRegister_one_two_pow_add_eight 1]
      simp only [BitVec.xor_comm]
    _ = (shiftRegister 1)^[2 ^ 0] r ^^^ (shiftRegister 1)^[2 ^ 1] r ^^^ (shiftRegister 1)^[2 ^ 1] r := by
      rw [xor_cancel_middle, iterate_shiftRegister_one_two_pow_add_four 0]
    _ = shiftRegister 1 r := by
      rw [BitVec.xor_assoc, BitVec.xor_self, BitVec.xor_zero, Nat.pow_zero, iterate_one]

/-- With tap 1 every register comes back after 2^15 - 1 steps. -/
theorem isPeriodicPt_shiftRegister_one (r : BitVec 15) : IsPeriodicPt (shiftRegister 1) 32767 r := by
  apply shiftRegister_injective (le_refl 1)
  rw [← iterate_succ_apply' (shiftRegister 1)]
  exact iterate_shiftRegister_one_two_pow_fifteen r

/-- Rule R117: at the seed the step with tap 1 has least period 32767 = 7 * 31 * 151. -/
theorem minimalPeriod_shiftRegister_one : minimalPeriod (shiftRegister 1) 1#15 = 32767 := by
  refine minimalPeriod_eq_of_primeFactorsList (by decide) (isPeriodicPt_shiftRegister_one _) ?_
  simp only [Nat.primeFactorsList_ofNat, List.forall_mem_cons, IsPeriodicPt, IsFixedPt]
  decide +kernel

/-! #### The calls of NS_NEXT -/

/-- Off 0 the guard of R114 never fires, so that the calls of NS_NEXT iterate the linear step. -/
theorem registerAfter_eq_iterate (m : NoiseMode) (k : Nat) {r : BitVec 15} (hr : r ≠ 0#15) :
    registerAfter m k r = (shiftRegister (tapBit m))^[k] r := by
  induction k generalizing r with
  | zero => rfl
  | succ k ih => rw [registerAfter, ih (nextRegister_ne_zero m r), nextRegister_of_ne_zero m hr, iterate_succ_apply]

theorem registerAfter_minimalPeriod (m : NoiseMode) {r : BitVec 15} (hr : r ≠ 0#15) :
    registerAfter m (minimalPeriod (shiftRegister (tapBit m)) r) r = r := by
  rw [registerAfter_eq_iterate m _ hr, iterate_minimalPeriod]

theorem registerAfter_ne_self {m : NoiseMode} {r : BitVec 15} (hr : r ≠ 0#15) {k : Nat} (hpos : 0 < k)
    (hlt : k < minimalPeriod (shiftRegister (tapBit m)) r) : registerAfter m k r ≠ r := by
  rw [registerAfter_eq_iterate m k hr]
  exact not_isPeriodicPt_of_pos_of_lt_minimalPeriod hpos.ne' hlt

/-- The register after a step lies on the same cycle. -/
theorem minimalPeriod_nextRegister (m : NoiseMode) {r : BitVec 15} (hr : r ≠ 0#15) :
    minimalPeriod (shiftRegister (tapBit m)) (nextRegister m r) = minimalPeriod (shiftRegister (tapBit m)) r := by
  rw [nextRegister_of_ne_zero m hr,
    minimalPeriod_apply ((shiftRegister_injective (tapBit_pos m)).mem_periodicPts r)]

/-- A register is 15 bits of the output, so that registers whose outputs agree from their own bit 0 on are the same. -/
theorem eq_of_registerBit_registerAfter_eq {m : NoiseMode} {a b : BitVec 15} (ha : a ≠ 0#15) (hb : b ≠ 0#15)
    (h : ∀ j, registerBit (registerAfter m j a) = registerBit (registerAfter m j b)) : a = b := by
  apply BitVec.eq_of_getLsbD_eq
  intro j hj
  have hbit := Bool.not_inj (h j)
  rwa [registerAfter_eq_iterate m j ha, registerAfter_eq_iterate m j hb, ← getLsbD_eq_iterate_bit_zero _ hj,
    ← getLsbD_eq_iterate_bit_zero _ hj] at hbit

/-- Settles O37: the registers before and after a period of the output have the same outputs from there on, so they
are the same register, and a period of the output is one of the register. -/
theorem shortModePeriod : Obligations.ShortModePeriod := by
  have hseed : 1#15 ≠ 0#15 := by decide
  have hper : minimalPeriod (shiftRegister (tapBit .short)) 1#15 = 93 := minimalPeriod_shiftRegister_six
  refine ⟨hper ▸ registerAfter_minimalPeriod .short hseed,
    fun k hpos hlt => registerAfter_ne_self hseed hpos (hper ▸ hlt), fun p hpos hlt => ?_, by decide +kernel⟩
  by_contra! hsame
  have hnext := nextRegister_ne_zero .short 1#15
  refine registerAfter_ne_self hnext hpos (by rwa [minimalPeriod_nextRegister .short hseed, hper])
    (eq_of_registerBit_registerAfter_eq (m := .short) (registerAfter_ne_zero _ _ hnext) hnext fun j => ?_)
  rw [← registerAfter_add]
  have hj := hsame j
  rwa [show j + 1 + p = p + j + 1 by omega] at hj

/-! #### The whole cycle of Long mode -/

/-- On a cycle of 32767 registers the first 32767 are different ones. -/
theorem injOn_toNat_registerAfter {m : NoiseMode} {r : BitVec 15} (hr : r ≠ 0#15)
    (hper : minimalPeriod (shiftRegister (tapBit m)) r = 32767) :
    Set.InjOn (fun k => (registerAfter m k r).toNat) (Finset.range 32767) := by
  intro i hi j hj hij
  have h : registerAfter m i r = registerAfter m j r := BitVec.eq_of_toNat_eq hij
  rw [registerAfter_eq_iterate m i hr, registerAfter_eq_iterate m j hr] at h
  rw [← hper, Finset.coe_range] at hi hj
  exact iterate_injOn_Iio_minimalPeriod hi hj h

theorem toNat_mem_Ioc {r : BitVec 15} (hr : r ≠ 0#15) : r.toNat ∈ Finset.Ioc 0 32767 :=
  Finset.mem_Ioc.mpr ⟨Nat.pos_of_ne_zero (BitVec.toNat_ne.mp hr), Nat.le_of_lt_succ r.isLt⟩

/-- A cycle of 32767 registers is all of the nonzero registers, by their number. -/
theorem image_toNat_registerAfter {m : NoiseMode} {r : BitVec 15} (hr : r ≠ 0#15)
    (hper : minimalPeriod (shiftRegister (tapBit m)) r = 32767) :
    (Finset.range 32767).image (fun k => (registerAfter m k r).toNat) = Finset.Ioc 0 32767 := by
  refine Finset.eq_of_subset_of_card_le (Finset.image_subset_iff.mpr fun k _ => ?_) ?_
  · exact toNat_mem_Ioc (registerAfter_ne_zero m k hr)
  · rw [Finset.card_image_of_injOn (injOn_toNat_registerAfter hr hper), Nat.card_Ioc, Finset.card_range]

/-- Rule R115: NS_NEXT returns `true` where it leaves an even register. -/
theorem registerBit_iff (r : BitVec 15) : registerBit r = true ↔ 2 ∣ r.toNat := by
  simp [registerBit, BitVec.getLsbD, Nat.dvd_iff_mod_eq_zero]

theorem highCount_eq_count (m : NoiseMode) (k : Nat) (r : BitVec 15) :
    highCount m k r = Nat.count (fun j => 2 ∣ (registerAfter m j (nextRegister m r)).toNat) k := by
  induction k generalizing r with
  | zero => rfl
  | succ k ih =>
    simp only [highCount, ih, Nat.count_succ', Nat.add_comm, registerBit_iff, registerAfter]
    congr

/-- Over a cycle of 32767 registers the high bits are as many as the even numbers from 1 to 32767. -/
theorem highCount_of_minimalPeriod {m : NoiseMode} {r : BitVec 15} (hr : r ≠ 0#15)
    (hper : minimalPeriod (shiftRegister (tapBit m)) r = 32767) : highCount m 32767 r = 32767 / 2 := by
  rw [← minimalPeriod_nextRegister m hr] at hper
  have hnext := nextRegister_ne_zero m r
  have hinj := injOn_toNat_registerAfter hnext hper
  rw [highCount_eq_count, Nat.count_eq_card_filter_range,
    ← Finset.card_image_of_injOn (hinj.mono (Finset.filter_subset _ _)), ← Finset.filter_image,
    image_toNat_registerAfter hnext hper, Nat.Ioc_filter_dvd_card_eq_div]

/-- Settles O36: the least period of the seed is the number of nonzero registers. -/
theorem longModePeriod : Obligations.LongModePeriod := by
  have hseed : 1#15 ≠ 0#15 := by decide
  have hper : minimalPeriod (shiftRegister (tapBit .long)) 1#15 = 32767 := minimalPeriod_shiftRegister_one
  refine ⟨hper ▸ registerAfter_minimalPeriod .long hseed,
    fun k hpos hlt => registerAfter_ne_self hseed hpos (hper ▸ hlt), fun r hr => ?_,
    highCount_of_minimalPeriod hseed hper⟩
  obtain ⟨k, hk, hkr⟩ := Finset.mem_image.mp (image_toNat_registerAfter hseed hper ▸ toNat_mem_Ioc hr)
  exact ⟨k, Finset.mem_range.mp hk, BitVec.eq_of_toNat_eq hkr⟩

end Sys2Proof.Machine

/-! ### The oscillators

`41_oscillators.md`: the phase step, the three per-sample operations, and what a rendering reads from the timeline of a
slot's parameters (rule R169). -/

namespace Sys2Proof.Machine

/-! #### Values in force after AUTO_RETIRE (rule R165) -/

/-- The latest entry of a list is the latest of those after frame `n`, and, where there is none, the latest of the
others. -/
theorem latestEntry_eq_or {α : Type} (n : Nat) (l : List (Entry α)) : latestEntry l =
    (latestEntry (l.filter fun x => decide (n < x.e))).or (latestEntry (l.filter fun x => decide (x.e ≤ n))) := by
  induction l with
  | nil => rfl
  | cons x xs ih =>
    rw [latestEntry, ih]
    rcases lt_or_ge n x.e with hx | hx
    · rw [List.filter_cons_of_pos (by simpa), List.filter_cons_of_neg (by simpa), latestEntry]
      cases latestEntry (xs.filter fun x => decide (n < x.e)) with
      | some y => simp only [Option.some_or]; split_ifs <;> rfl
      | none =>
        cases hlow : latestEntry (xs.filter fun x => decide (x.e ≤ n)) with
        | none => rfl
        | some y =>
          have hy : y.e ≤ n := by simpa using (List.mem_filter.mp (latestEntry_spec hlow).1).2
          exact if_neg (by rw [Entry.notAfter_iff]; omega)
    · rw [List.filter_cons_of_neg (by simpa), List.filter_cons_of_pos (by simpa), latestEntry]
      cases hhigh : latestEntry (xs.filter fun x => decide (n < x.e)) with
      | none => rfl
      | some y =>
        have hy : n < y.e := by simpa using (List.mem_filter.mp (latestEntry_spec hhigh).1).2
        exact if_pos (by rw [Entry.notAfter_iff]; omega)

/-- Rule R164 without the split: the value of the latest entry in force, or else `cur`. -/
theorem Param.inForce_eq_getD {α : Type} (p : Param α) (n : Nat) : p.inForce n =
    ((latestEntry (p.pend.filter fun x => decide (x.e ≤ n))).map Entry.value).getD p.cur := by
  unfold Param.inForce
  cases latestEntry (p.pend.filter fun x => decide (x.e ≤ n)) <;> rfl

/-- Rule R165: retiring at frame `n` changes no value in force from frame `n` on. -/
theorem Param.inForce_retire {α : Type} (p : Param α) {n m : Nat} (h : n ≤ m) :
    (p.retire n).inForce m = p.inForce m := by
  have hlow : ∀ x ∈ p.pend, (decide (x.e ≤ n) && decide (x.e ≤ m)) = decide (x.e ≤ n) := fun x _ => by
    rw [← Bool.decide_and, decide_eq_decide]
    omega
  have hhigh : ∀ x ∈ p.pend, (decide (n < x.e) && decide (x.e ≤ m)) = (decide (x.e ≤ m) && decide (n < x.e)) :=
    fun _ _ => Bool.and_comm _ _
  simp only [Param.inForce_eq_getD, Param.retire_pend, Param.retire_cur]
  rw [latestEntry_eq_or n (p.pend.filter fun x => decide (x.e ≤ m)), List.filter_filter, List.filter_filter,
    List.filter_filter, List.filter_congr hlow, List.filter_congr hhigh]
  cases latestEntry (p.pend.filter fun x => decide (x.e ≤ m) && decide (n < x.e)) <;> rfl

/-- Rule R169: a parameter that each frame of a rendering retires keeps its values from the last frame on. -/
theorem inForce_renderSlot {σ α : Type} {sample : Nat → σ → Rat × σ} {param : σ → Param α}
    (hretire : ∀ n o, param (sample n o).2 = (param o).retire n) (n : Nat) (o : σ) (k : Nat) {m : Nat}
    (h : n + k ≤ m + 1) : (param (renderSlot sample k n o).2).inForce m = (param o).inForce m := by
  induction k with
  | zero => rfl
  | succ k ih => rw [renderSlot_succ, hretire, Param.inForce_retire _ (by omega), ih (by omega)]

/-! #### The phase step -/

/-- Settles O39: every branch ends in `mod1`, which needs no rounding. -/
theorem phaseStaysInRange : Obligations.PhaseStaysInRange :=
  fun c p f hp _ hf hc => ⟨phaseStep_mem c p f, isNumber_phaseStep hc hp hf.le, phaseStep_exact (p := p) (f := f)⟩

/-! #### The pulse -/

/-- Rule R133: a volume that is a number is not rounded again. -/
theorem pulseLevel_of_round {k : Numerics} {v : Rat} (hv : k.round v = v) (p d : Rat) :
    pulseLevel k p d v = if p < d then v else -v := by
  unfold pulseLevel Numerics.mul
  split_ifs
  · rw [one_mul, hv]
  · rw [neg_one_mul, round_neg, hv]

/-- Settles O40: the level is the signed volume, and the slot is `pulseSample`'s own. -/
theorem pulseSampleComparesPhaseWithDuty : Obligations.PulseSampleComparesPhaseWithDuty := by
  intro c n o hv
  rw [pulseSample, pulseLevel_of_round hv]

/-- Rule R206: the retiring of a frame does not show in the frame's own sample. -/
theorem pulseFrame_eq (c : Params) (n : Nat) (o : Pulse) : pulseFrame c n o =
    (pulseLevel c.numerics o.phase (o.duty.inForce n) (o.volume.inForce n),
      ⟨phaseStep c o.phase (o.freq.inForce n), o.freq.retire n, o.duty.retire n, o.volume.retire n⟩) := by
  simp only [pulseFrame, pulseSample, Param.inForce_retire_self]

/-! #### The triangle -/

/-- Rule R136 under `exact`: both pieces in one formula. -/
theorem triangleLevel_exact (p v : Rat) : triangleLevel .exact p v = (1 - |4 * p - 2|) * v := by
  simp only [triangleLevel, Numerics.sub, Numerics.mul, Numerics.round]
  split_ifs with hp
  · rw [abs_of_nonpos (by linarith)]; ring
  · rw [abs_of_nonneg (by linarith)]; ring

/-- How far two samples of a triangle lie apart under `exact`. -/
theorem abs_triangleLevel_sub (p q : Rat) {v : Rat} (hv : 0 ≤ v) :
    |triangleLevel .exact p v - triangleLevel .exact q v| = |(|4 * q - 2| - |4 * p - 2|)| * v := by
  rw [triangleLevel_exact, triangleLevel_exact, ← sub_mul, sub_sub_sub_cancel_left, abs_mul, abs_of_nonneg hv]

/-- Settles O42: each clause is about the distance of `4 * p` from 2. -/
theorem triangleShape : Obligations.TriangleShape := by
  intro p q v hp hp1 _ _ hv
  have hfar : |4 * p - 2| ≤ 2 := abs_le.mpr ⟨by linarith, by linarith⟩
  rw [abs_triangleLevel_sub p q hv, abs_triangleLevel_sub p 0 hv]
  simp only [triangleLevel_exact]
  refine ⟨fun h => ?_, fun h => ?_, by norm_num, by norm_num, by norm_num, by norm_num, ⟨?_, ?_⟩,
    mul_le_mul_of_nonneg_right ?_ hv, mul_le_mul_of_nonneg_right ?_ hv⟩
  · rw [abs_of_nonpos (by linarith)]; ring
  · rw [abs_of_nonneg (by linarith)]; ring
  · linarith [mul_le_mul_of_nonneg_right hfar hv]
  · linarith [mul_nonneg (abs_nonneg (4 * p - 2)) hv]
  · calc |(|4 * q - 2| - |4 * p - 2|)|
        ≤ |4 * q - 2 - (4 * p - 2)| := abs_abs_sub_abs_le _ _
      _ = 4 * |p - q| := by rw [sub_sub_sub_cancel_right, ← mul_sub, abs_mul, abs_sub_comm q]; norm_num
  · have hzero : |4 * (0 : Rat) - 2| = 2 := by norm_num
    rw [hzero, abs_of_nonneg (by linarith)]
    linarith [le_abs_self (4 * p - 2)]

@[simp] theorem triangleLevel_volume_zero (k : Numerics) (p : Rat) : triangleLevel k p 0 = 0 := by
  simp [triangleLevel, Numerics.mul]

/-- Settles O43: a product with 0 is 0 in either number domain. -/
theorem triangleIsSilentOnThisHardware : Obligations.TriangleIsSilentOnThisHardware := by
  intro c n o hv
  rw [triangleSample, hv, triangleLevel_volume_zero]

/-- Rule R206: the retiring of a frame does not show in the frame's own sample. -/
theorem triangleFrame_eq (c : Params) (n : Nat) (o : Triangle) : triangleFrame c n o =
    (triangleLevel c.numerics o.phase c.triangleVolume,
      ⟨phaseStep c o.phase (o.freq.inForce n), o.freq.retire n⟩) := by
  simp only [triangleFrame, triangleSample, Param.inForce_retire_self]

/-! #### The noise -/

section
variable (c : Params) (n : Nat) (o : Noise)

@[simp] theorem noiseSample_phase : (noiseSample c n o).2.phase = phaseStep c o.phase (o.freq.inForce n) := rfl

@[simp] theorem noiseSample_freq : (noiseSample c n o).2.freq = o.freq := by simp [noiseSample]

@[simp] theorem noiseSample_volume : (noiseSample c n o).2.volume = o.volume := by simp [noiseSample]

@[simp] theorem noiseSample_mode : (noiseSample c n o).2.mode = o.mode := by simp [noiseSample]

@[simp] theorem noiseSample_seqMode : (noiseSample c n o).2.seqMode = o.mode.inForce n := by simp [noiseSample]

/-- Rules R139 and R140: the register is rebuilt on a change of mode and then stepped on a wrap. -/
theorem noiseSample_lfsr : (noiseSample c n o).2.lfsr =
    if phaseStep c o.phase (o.freq.inForce n) < o.phase then
      nextRegister (o.mode.inForce n) (if o.mode.inForce n = o.seqMode then o.lfsr else 1#15)
    else if o.mode.inForce n = o.seqMode then o.lfsr else 1#15 := by
  simp [noiseSample]

/-- Rule R139: the level is set by the step of a wrap and kept without one. -/
theorem noiseSample_level : (noiseSample c n o).2.level =
    if phaseStep c o.phase (o.freq.inForce n) < o.phase then !(noiseSample c n o).2.lfsr.getLsbD 0 else o.level := by
  rw [noiseSample_lfsr]
  split_ifs <;> simp [noiseSample, registerBit, *]

/-- Rule R139: the sample is the volume in force where the level after the step is high. -/
theorem noiseSample_fst : (noiseSample c n o).1 = if (noiseSample c n o).2.level then o.volume.inForce n else 0 := rfl

end

/-- Settles O44: a split on the wrap, field by field. -/
theorem noiseSampleRebuildsThenSteps : Obligations.NoiseSampleRebuildsThenSteps := by
  intro c n o q r t
  refine ⟨by simp [t, q], fun hstay => ⟨?_, ?_⟩, fun hwrap => ⟨?_, ?_⟩, noiseSample_fst c n o⟩
  · exact (noiseSample_lfsr c n o).trans (if_neg hstay)
  · exact (noiseSample_level c n o).trans (if_neg hstay)
  · exact (noiseSample_lfsr c n o).trans (if_pos hwrap)
  · exact (noiseSample_level c n o).trans (if_pos hwrap)

/-- Settles O46: the sample is the volume or 0 by the level. -/
theorem noiseSampleIsUnipolar : Obligations.NoiseSampleIsUnipolar := by
  intro c n o
  rw [noiseSample_fst]
  split_ifs
  · exact ⟨.inr rfl, fun h0 h1 => ⟨h0, h1⟩⟩
  · exact ⟨.inl rfl, fun _ _ => ⟨le_rfl, zero_le_one⟩⟩

/-- Below `SR` the exact phase step lowers the phase exactly where it passes 1. -/
theorem mod1_add_lt_self_iff {p x : Rat} (hp : 0 ≤ p) (hp1 : p < 1) (hx : 0 < x) (hx1 : x < 1) :
    mod1 (p + x) < p ↔ 1 ≤ p + x := by
  rcases lt_or_ge (p + x) 1 with h | h
  · rw [mod1_of_lt_one (by linarith) h]
    constructor <;> intro _ <;> linarith
  · rw [mod1_of_one_le h (by linarith)]
    exact ⟨fun _ => h, fun _ => by linarith⟩

/-- Settles O45: by `mod1` of the phase and the increment; a sample steps the register at its wrap or not at all. -/
theorem noiseWrapDetection : Obligations.NoiseWrapDetection := by
  intro c n o hexact hrate hp hp1 hf x q
  have hq : q = mod1 (o.phase + x) := phaseStep_exact hexact _ _
  have hx : 0 < x := div_pos hf hrate
  refine ⟨fun hx1 => hq ▸ mod1_add_lt_self_iff hp hp1 hx hx1, fun hint => ?_, ?_⟩
  · rw [hq, hint, mod1_add_int, mod1_of_lt_one hp hp1]
  · rw [noiseSample_lfsr]
    by_cases hwrap : q < o.phase
    · exact .inr (if_pos hwrap)
    · exact .inl (if_neg hwrap)

/-! #### A rendering reads the timeline (rules R143 and R169) -/

section
variable (c : Params) (n k : Nat) {m : Nat} (h : n + k ≤ m + 1)
include h

/-- Rule R169 for the three parameters of a pulse slot. -/
theorem pulse_timeline (o : Pulse) : let t := (renderSlot (pulseFrame c) k n o).2
    t.freq.inForce m = o.freq.inForce m ∧ t.duty.inForce m = o.duty.inForce m ∧
      t.volume.inForce m = o.volume.inForce m :=
  ⟨inForce_renderSlot (fun _ _ => rfl) n o k h, inForce_renderSlot (fun _ _ => rfl) n o k h,
    inForce_renderSlot (fun _ _ => rfl) n o k h⟩

/-- Rule R169 for the frequency of a triangle slot. -/
theorem triangle_timeline (o : Triangle) :
    (renderSlot (triangleFrame c) k n o).2.freq.inForce m = o.freq.inForce m :=
  inForce_renderSlot (fun _ _ => rfl) n o k h

/-- Rule R169 for the three parameters of a noise slot. -/
theorem noise_timeline (o : Noise) : let t := (renderSlot (noiseFrame c) k n o).2
    t.freq.inForce m = o.freq.inForce m ∧ t.volume.inForce m = o.volume.inForce m ∧
      t.mode.inForce m = o.mode.inForce m :=
  ⟨inForce_renderSlot (fun _ _ => noiseSample_freq ..) n o k h,
    inForce_renderSlot (fun _ _ => noiseSample_volume ..) n o k h,
    inForce_renderSlot (fun _ _ => noiseSample_mode ..) n o k h⟩

end

/-- Settles O34: each frame retires every parameter, so the slot it finds has the timeline's values in force. -/
theorem renderingReadsTheTimeline : Obligations.RenderingReadsTheTimeline := by
  intro c n N
  have hnow : ∀ k, n + k ≤ n + k + 1 := fun _ => Nat.le_succ _
  refine ⟨fun o => ⟨rfl, renderSlot_length .., fun k hk => ?_, fun m hm => ?_⟩,
    fun o => ⟨rfl, renderSlot_length .., fun k hk => ?_, fun m hm => ?_⟩,
    fun o => ⟨rfl, renderSlot_length .., fun k hk => ?_, fun m hm => ?_⟩⟩
  · simp only [renderSlot_getElem? _ n o hk, renderSlot_succ, pulseFrame_eq, pulse_timeline c n k (hnow k) o, and_self]
  · exact pulse_timeline c n N hm o
  · simp only [renderSlot_getElem? _ n o hk, renderSlot_succ, triangleFrame_eq, triangle_timeline c n k (hnow k) o,
      and_self]
  · exact triangle_timeline c n N hm o
  · simp only [renderSlot_getElem? _ n o hk, renderSlot_succ, noiseFrame, noiseSample_fst, noiseSample_phase,
      noiseSample_seqMode, noiseSample_level, noiseSample_lfsr, Param.inForce_retire_self,
      noise_timeline c n k (hnow k) o, and_self]
  · exact noise_timeline c n N hm o

/-! #### The duty of a pulse (rule R135) -/

/-- A step of `SR / M` from `k / M` is exact and does not wrap before the end of the period. -/
theorem phaseStep_exact_period {c : Params} (hexact : c.numerics = .exact) (hrate : 0 < c.sampleRate) {k M : Nat}
    (hk : k + 1 < M) : phaseStep c (k / M) (c.sampleRate / M) = ((k + 1 : Nat) : Rat) / M := by
  have hM : (0 : Rat) < M := by exact_mod_cast Nat.zero_lt_of_lt hk
  have hsum : (k : Rat) / M + c.sampleRate / M / c.sampleRate = ((k + 1 : Nat) : Rat) / M := by
    push_cast
    field_simp
  rw [phaseStep_exact hexact, hsum, mod1_of_lt_one (by positivity)]
  rw [div_lt_one hM]
  exact_mod_cast hk

/-- `k / M` is below one half exactly where twice `k` is below `M`. -/
theorem div_lt_half_iff {k M : Nat} (hk : k < M) : (k : Rat) / M < 1 / 2 ↔ 2 * k < M := by
  have hM : (0 : Rat) < M := by exact_mod_cast Nat.zero_lt_of_lt hk
  rw [div_lt_div_iff₀ hM two_pos, one_mul, mul_comm]
  exact_mod_cast Iff.rfl

/-- Of the numbers below `M`, `ceil(M / 2)` are below half of it. -/
theorem count_two_mul_lt (M : Nat) : Nat.count (2 * · < M) M = (M + 1) / 2 := by
  have hlow : (Finset.range M).filter (2 * · < M) = Finset.range ((M + 1) / 2) := by
    ext k
    simp only [Finset.mem_filter, Finset.mem_range]
    omega
  rw [Nat.count_eq_card_filter_range, hlow, Finset.card_range]

/-- Rule R135: the samples of a period that is high in its first half, counted where they are `+1`. -/
theorem count_one_half_period (M : Nat) :
    ((List.range M).map fun k => if 2 * k < M then (1 : Rat) else -1).count 1 = (M + 1) / 2 := by
  have hne : (-1 : Rat) ≠ 1 := by norm_num
  rw [List.count_eq_countP, List.countP_map, ← count_two_mul_lt, Nat.count]
  refine List.countP_congr fun k _ => ?_
  by_cases hk : 2 * k < M <;> simp [hk, hne]

/-- Settles O41: from the phases the samples are read off one by one, and then counted. -/
theorem pulseDutyFraction : Obligations.PulseDutyFraction := by
  intro c n M hexact hrate _ o xs
  obtain ⟨-, hlength, hframe, -⟩ := (renderingReadsTheTimeline c n M).1 o
  have hphase : ∀ k < M, (renderSlot (pulseFrame c) k n o).2.phase = k / M := by
    intro k
    induction k with
    | zero => exact fun _ => by simp [renderSlot, o]
    | succ k ih =>
      intro hk
      rw [(hframe k (by omega)).2, ih (by omega)]
      exact phaseStep_exact_period hexact hrate hk
  have hxs : xs = (List.range M).map fun k => if 2 * k < M then 1 else -1 := by
    refine List.ext_getElem? fun k => ?_
    rcases lt_or_ge k M with hk | hk
    · have hduty : o.duty.inForce (n + k) = 1 / 2 := Param.inForce_constant _ _
      have hvolume : o.volume.inForce (n + k) = 1 := Param.inForce_constant _ _
      rw [(hframe k hk).1, hphase k hk, hduty, hvolume, hexact, pulseLevel_of_round rfl, List.getElem?_map,
        List.getElem?_range hk]
      simp only [div_lt_half_iff hk, Option.map_some]
    · rw [List.getElem?_eq_none (hlength.trans_le hk), List.getElem?_eq_none (by simpa using hk)]
  refine ⟨hphase, hlength, fun x hx => ?_, hxs ▸ count_one_half_period M⟩
  obtain ⟨k, -, rfl⟩ := List.mem_map.mp (hxs ▸ hx)
  exact ite_eq_or_eq _ _ _

end Sys2Proof.Machine

/-! ### ParameterAutomation

`42_automation.md`: the value in force, AUTO_SET into a full list, and the order in which scheduled values supersede one
another. -/

namespace Sys2Proof.Machine

/-! #### The value in force (rules R163 to R165) -/

/-- Rule R164: where an entry has come into force, the value is that of an entry which none in force comes after. -/
theorem Param.exists_latest_inForce {α : Type} {p : Param α} {n : Nat} (h : ∃ x ∈ p.pend, x.e ≤ n) :
    ∃ x ∈ p.pend, x.e ≤ n ∧ p.inForce n = x.value ∧
      ∀ y ∈ p.pend, y.e ≤ n → y.e < x.e ∨ y.e = x.e ∧ y.seq ≤ x.seq := by
  rw [Param.inForce_eq_getD]
  cases hlatest : latestEntry (p.pend.filter fun x => decide (x.e ≤ n)) with
  | none =>
    obtain ⟨x, hx, hle⟩ := h
    have hempty := List.filter_eq_nil_iff.mp (latestEntry_eq_none.mp hlatest) x hx
    exact absurd (decide_eq_true hle) hempty
  | some x =>
    obtain ⟨hmem, hmax⟩ := latestEntry_spec hlatest
    simp only [List.mem_filter, decide_eq_true_eq] at hmem hmax
    exact ⟨x, hmem.1, hmem.2, rfl, fun y hy hle => hmax y ⟨hy, hle⟩⟩

/-- Rule R164: the entry in force that comes after every other one in force gives the value. -/
theorem Param.inForce_of_latest {α : Type} {p : Param α} {n : Nat} {x : Entry α} (hx : x ∈ p.pend) (hle : x.e ≤ n)
    (hlatest : ∀ y ∈ p.pend, y.e ≤ n → y = x ∨ y.e < x.e ∨ y.e = x.e ∧ y.seq < x.seq) : p.inForce n = x.value := by
  obtain ⟨y, hy, hyle, hvalue, hmax⟩ := Param.exists_latest_inForce ⟨x, hx, hle⟩
  have hyx : y = x := (hlatest y hy hyle).resolve_right (by have := hmax x hx hle; omega)
  rw [hvalue, hyx]

/-- Settles O31: the two clauses are whether some entry is in force. -/
theorem valueInForceIsTheLatestEntry : Obligations.ValueInForceIsTheLatestEntry :=
  fun _ _ _ => ⟨Param.inForce_of_none, Param.exists_latest_inForce⟩

/-- Settles O32: retiring folds and filters by definition, and `Param.inForce_retire` has the values from `n` on. -/
theorem retiringChangesNoLaterValue : Obligations.RetiringChangesNoLaterValue :=
  fun _ p n _ h => ⟨p.retire_cur n, fun x => by rw [Param.retire_pend, List.mem_filter, decide_eq_true_eq],
    Param.inForce_retire p h⟩

/-- Settles O33: each clause names the one of the two entries, if any, that is the latest in force. -/
theorem laterEntrySupersedes : Obligations.LaterEntrySupersedes := by
  intro cur a b ea eb sa sb n hs p
  have hpend : ∀ y, y ∈ p.pend ↔ y = ⟨a, ea, sa⟩ ∨ y = ⟨b, eb, sb⟩ := fun y => by simp [p]
  have hfirst (hn : ea ≤ n) (hb : eb ≤ n → eb < ea) : p.inForce n = a := by
    refine Param.inForce_of_latest ((hpend _).mpr (.inl rfl)) hn fun y hy hle => ?_
    obtain rfl | rfl := (hpend y).mp hy
    · exact .inl rfl
    · exact .inr (.inl (hb hle))
  have hsecond (hn : eb ≤ n) (ha : ea ≤ n → ea ≤ eb) : p.inForce n = b := by
    refine Param.inForce_of_latest ((hpend _).mpr (.inr rfl)) hn fun y hy hle => ?_
    obtain rfl | rfl := (hpend y).mp hy
    · exact .inr ((ha hle).lt_or_eq.imp_right fun heq => ⟨heq, hs⟩)
    · exact .inl rfl
  refine ⟨fun hna hnb => Param.inForce_of_none fun y hy => ?_,
    fun _ => ⟨fun hn hnb => hfirst hn (by omega), fun hn => hsecond hn (by omega)⟩,
    fun _ => ⟨fun hn hna => hsecond hn (by omega), fun hn => hfirst hn (by omega)⟩⟩
  obtain rfl | rfl := (hpend y).mp hy
  · exact hna
  · exact hnb

/-! #### AUTO_SET into a full list (rule R166) -/

theorem exec_squareNote (ch eff : Nat) (hz duty volume : Quad) (s : State) :
    exec (.squareNote ch eff hz duty volume) s =
      dispatch (squareOperands hz duty volume) (s.slots.pulseAt ch) (Pulse.anyFull s.cfg.capacity)
        (fun sl v o e q => sl.setPulse ch (o.scheduleNote v e q)) eff s := rfl

theorem exec_triangleNote (ch eff : Nat) (hz : Quad) (s : State) :
    exec (.triangleNote ch eff hz) s =
      dispatch (hzOperand hz) (s.slots.triangleAt ch) (fun o => o.freq.full s.cfg.capacity)
        (fun sl v o e q => sl.setTriangle (o.scheduleNote v e q)) eff s := rfl

theorem exec_noiseNote (ch : Nat) (mode : NoiseMode) (eff : Nat) (hz volume : Quad) (s : State) :
    exec (.noiseNote ch mode eff hz volume) s =
      dispatch (noiseOperands mode hz volume) (s.slots.noiseAt ch) (Noise.anyFull s.cfg.capacity)
        (fun sl v o e q => sl.setNoise (o.scheduleNote v e q)) eff s := rfl

theorem Pulse.anyFull_eq_true {capacity : Option Nat} {o : Pulse} : o.anyFull capacity = true ↔
    o.freq.full capacity = true ∨ o.duty.full capacity = true ∨ o.volume.full capacity = true := by
  simp [Pulse.anyFull, or_assoc]

theorem Noise.anyFull_eq_true {capacity : Option Nat} {o : Noise} : o.anyFull capacity = true ↔
    o.freq.full capacity = true ∨ o.volume.full capacity = true ∨ o.mode.full capacity = true := by
  simp [Noise.anyFull, or_assoc]

/-- Rule R166: a list that holds as many entries as the capacity is full. -/
theorem Param.full_of_length_eq {α : Type} {p : Param α} {k : Nat} (h : p.pend.length = k) : p.full (some k) = true :=
  decide_eq_true h.ge

/-- Settles O30: the operands are in range and the slot is there, so the capacity check, the last of R238's order,
decides. -/
theorem dispatchIntoAFullListIsRefused : Obligations.DispatchIntoAFullListIsRefused := by
  intro s eff k mode hz duty volume f d v hf hf0 hd hd0 hd1 hv hv0 hv1 hcap
  have hhz : hzOperand hz = some f := hzOperand_eq_some.mpr ⟨hf, hf0⟩
  have hvol : unitOperand volume = some v := unitOperand_eq_some.mpr ⟨hv, hv0, hv1⟩
  have hsquare : squareOperands hz duty volume = some (f, d, v) :=
    squareOperands_eq_some.mpr ⟨hhz, unitOperand_eq_some.mpr ⟨hd, hd0, hd1⟩, hvol⟩
  have hnoise : noiseOperands mode hz volume = some (f, v, mode) := noiseOperands_eq_some.mpr ⟨hhz, hvol, rfl⟩
  have hpulse (ch : Nat) (o : Pulse) (ho : s.slots.pulseAt ch = some o)
      (hfull : o.freq.pend.length = k ∨ o.duty.pend.length = k ∨ o.volume.pend.length = k) :
      exec (.squareNote ch eff hz duty volume) s = .refused .automationOverflow := by
    rw [exec_squareNote, hsquare, ho, hcap]
    refine dispatch_full _ o (Pulse.anyFull_eq_true.mpr ?_) ..
    exact hfull.imp Param.full_of_length_eq (Or.imp Param.full_of_length_eq Param.full_of_length_eq)
  refine ⟨hpulse 1, hpulse 2, fun o ho hfull => ?_, fun o ho hfull => ?_⟩
  · rw [exec_triangleNote, hhz, Slots.triangleAt_three, ho, hcap]
    exact dispatch_full f o (Param.full_of_length_eq hfull) ..
  · rw [exec_noiseNote, hnoise, Slots.noiseAt_four, ho, hcap]
    refine dispatch_full _ o (Noise.anyFull_eq_true.mpr ?_) ..
    exact hfull.imp Param.full_of_length_eq (Or.imp Param.full_of_length_eq Param.full_of_length_eq)

end Sys2Proof.Machine

/-! ### The mixer

`43_mixer.md`: the commands and the lifecycle of the slots, the routing of a DISPATCH, and the mix of a rendered block
with its bounds. -/

namespace Sys2Proof.Machine

/-! #### APPLY (rules R94, R180 and R246) -/

/-- Rule R94: a RESERVED word is removed alone. -/
theorem applyHead_of_reserved {s : State} {w : Word} {ws : List Word} {why : ReservedReason} (hq : s.cmdq = w :: ws)
    (hw : decodeHeader w = .error why) : applyHead s = .next { s with cmdq := ws } := by
  simp only [applyHead, hq, decodeCommand, hw, List.tail_cons]

/-- Rule R246: the command port holds while its command is incomplete. -/
theorem applyHead_of_incomplete {s : State} {n : Nat} (h : decodeCommand s.cmdq = .error (.incomplete n)) :
    applyHead s = .next s := by
  simp only [applyHead, h]

/-- Rule R246: the command port holds while there is no command. -/
theorem applyHead_of_empty {s : State} (h : s.cmdq = []) : applyHead s = .next s := by
  simp only [applyHead, h, decodeCommand]

/-- Settles O11: the four outcomes of APPLY, by the decoding of `CMDQ`. -/
theorem stepAppliesTheHeadCommand : Obligations.StepAppliesTheHeadCommand := by
  intro s ms hm
  rw [step_move hm, performMove_apply]
  exact ⟨fun _ _ hd => applyHead_of_decode (s := { s with moves := ms }) hd,
    fun _ _ _ hq hw => applyHead_of_reserved (s := { s with moves := ms }) hq hw,
    fun _ hd => applyHead_of_incomplete (s := { s with moves := ms }) hd,
    fun hq => applyHead_of_empty (s := { s with moves := ms }) hq⟩

/-! #### Issuing a generation (rules R181 to R184) -/

theorem exec_createChannels (s : State) : exec .createChannels s = .next s.issue := rfl

theorem exec_reset (s : State) : exec .reset s = .next s.emptySlots.issue := rfl

/-- Settles O16: the next state is the issue, whose `PENDING` has the new generation inserted. -/
theorem createChannelsIssuesAGeneration : Obligations.CreateChannelsIssuesAGeneration :=
  fun s => ⟨_, exec_createChannels s, fun _ => mem_insertGeneration ..⟩

/-- Settles O17: the next state is the issue on the emptied slots. -/
theorem resetEmptiesSlotsAndIssues : Obligations.ResetEmptiesSlotsAndIssues :=
  fun s => ⟨_, exec_reset s, fun _ => mem_insertGeneration ..⟩

/-! #### Completions (rules R188 to R192 and R201) -/

theorem exec_initDone (result : InitResult) (ready : BitVec 4) (g : Nat) (s : State) :
    exec (.initDone result ready g) s =
      if g ∈ s.pending ∧ s.reportOf g (Draw.ofMask ready) = (result, ready) then .next (s.complete g (Draw.ofMask ready))
      else .refused .responseNotSent := rfl

/-- Rule R192: a completion of a generation that is not current sends STALE and no slot. -/
theorem initDoneOf_stale {s : State} {g : Nat} (h : g ≠ s.gen) (ok : Draw) :
    s.initDoneOf g ok = .initDone .stale 0#4 g := by
  rw [State.initDoneOf, State.reportOf_stale h]

/-- Some completion of `g` sends a response exactly where the one with its READY mask's draw does. -/
theorem exists_initDoneOf_iff {s : State} {result : InitResult} {ready : BitVec 4} {g : Nat} :
    (∃ ok, s.initDoneOf g ok = .initDone result ready g) ↔ s.reportOf g (Draw.ofMask ready) = (result, ready) := by
  have hsent (ok : Draw) : s.initDoneOf g ok = .initDone result ready g ↔ s.reportOf g ok = (result, ready) := by
    simp [State.initDoneOf, Prod.ext_iff]
  simp only [hsent]
  refine ⟨fun ⟨ok, hok⟩ => ?_, fun h => ⟨_, h⟩⟩
  have hmask := s.reportOf_ofMask g ok
  rwa [hok] at hmask

/-- Settles O19: an overtaken generation's completion is that of any draw, and it leaves the slots. -/
theorem staleCompletionChangesNoSlot : Obligations.StaleCompletionChangesNoSlot := by
  intro s g hpend hlt hfits
  have hstale := initDoneOf_stale hlt.ne
  have hexec := exec_initDoneOf hpend Draw.allLoaded
  rw [hstale] at hexec
  refine ⟨hstale, _, hexec, ?_, fun x => mem_eraseGeneration ..⟩
  rw [State.complete, State.reportOf_stale hlt.ne, if_neg hlt.ne, responseWords_eq_encode _ _ hfits]
  rfl

/-- Settles O20: the condition of INIT_DONE is that the completion with its READY mask's draw sends it. -/
theorem initDoneRunsIffSomeCompletionSendsIt : Obligations.InitDoneRunsIffSomeCompletionSendsIt := by
  intro s result ready g
  rw [exists_initDoneOf_iff, exec_initDone]
  split_ifs with hsent
  · exact ⟨iff_of_true ⟨_, rfl⟩ hsent, by simp⟩
  · exact ⟨iff_of_false (by simp) hsent, fun _ => rfl⟩

/-- Once the current generation has left `PENDING`, the slots are those of a completion that loaded every slot. -/
def State.LoadedOnceSettled (s : State) : Prop := s.gen ∉ s.pending → s.slots = wireSlots Draw.allLoaded

/-- What one completion does, pending or not: it settles its generation, and keeps the slots loaded if a current one
loads them all. -/
theorem completeGeneration_settles (g : Nat) {ok : Draw} {s : State} (hok : g = s.gen → ok = Draw.allLoaded) :
    ∃ t, completeGeneration g ok s = .next t ∧ t.moves = s.moves ∧ t.gen = s.gen ∧
      (∀ x, x ∈ t.pending ↔ x ∈ s.pending ∧ x ≠ g) ∧ (s.LoadedOnceSettled → t.LoadedOnceSettled) := by
  rcases completeGeneration_cases g ok s with ⟨-, hnext⟩ | ⟨hg, hnext⟩
  · refine ⟨_, hnext, rfl, rfl, fun x => mem_eraseGeneration .., fun hs hsettled => ?_⟩
    rw [State.complete_slots]
    rw [State.complete_gen, State.complete_pending, mem_eraseGeneration] at hsettled
    split_ifs with hcur
    · rw [hok hcur]
    · exact hs fun hmem => hsettled ⟨hmem, Ne.symm hcur⟩
  · exact ⟨s, hnext, rfl, rfl, fun x => ⟨fun hx => ⟨hx, fun hxg => hg (hxg ▸ hx)⟩, And.left⟩, id⟩

/-- The same for any list of completions, in any order. -/
theorem run_completions (cs : List (Nat × Draw)) : ∀ {s : State}, s.moves = cs.map (fun x => .complete x.1 x.2) →
    (∀ x ∈ cs, x.1 = s.gen → x.2 = Draw.allLoaded) →
    ∃ t, Sys2Proof.core.run cs.length s = .next t ∧ t.gen = s.gen ∧
      (∀ g, g ∈ t.pending ↔ g ∈ s.pending ∧ ∀ x ∈ cs, x.1 ≠ g) ∧ (s.LoadedOnceSettled → t.LoadedOnceSettled) := by
  induction cs with
  | nil => exact fun {s} _ _ => ⟨s, run_zero s, rfl, by simp, id⟩
  | cons c cs ih =>
    intro s hm hloaded
    obtain ⟨hc, hcs⟩ := List.forall_mem_cons.mp hloaded
    obtain ⟨u, hu, hmoves, hgen, hpend, hkeep⟩ :=
      completeGeneration_settles c.1 (s := { s with moves := cs.map fun x => .complete x.1 x.2 }) hc
    obtain ⟨t, hrun, htgen, htpend, htkeep⟩ := ih hmoves (by rwa [hgen])
    have hstep : step s = .next u := (step_move hm).trans hu
    refine ⟨t, (run_succ_of_next _ hstep).trans hrun, htgen.trans hgen, fun g => ?_, fun hs => htkeep (hkeep hs)⟩
    rw [htpend, hpend, List.forall_mem_cons, and_assoc, ne_comm]

/-- Rules R181 to R184: both commands that issue a generation leave it pending. -/
theorem gen_mem_pending_of_issue {s0 s : State} (h : exec .createChannels s0 = .next s ∨ exec .reset s0 = .next s) :
    s.gen ∈ s.pending := by
  rcases h with h | h <;> cases h <;> exact (mem_insertGeneration ..).mpr (.inr rfl)

/-- Settles O21: the issued generation is pending at first, so the slots are loaded once it has settled. -/
theorem finalGenerationWins : Obligations.FinalGenerationWins := by
  intro s0 s cs hissue hloaded ⟨x, hx, hxgen⟩
  have hgen := gen_mem_pending_of_issue hissue
  obtain ⟨t, hrun, htgen, htpend, hkeep⟩ :=
    run_completions cs (s := { s with moves := cs.map fun x => .complete x.1 x.2 }) rfl hloaded
  have hdone : s.gen ∉ t.pending := fun hmem => ((htpend _).mp hmem).2 x hx hxgen
  exact ⟨t, hrun, htgen, hdone, hkeep (fun hn => absurd hgen hn) (htgen ▸ hdone)⟩

/-! #### Operands and their ranges (rules R185 and R186) -/

theorem exec_setMasterVolume_of_unit {v : Quad} {x : Rat} (h : unitOperand v = some x) (s : State) :
    exec (.setMasterVolume v) s = .next { s with master := x } := by
  simp only [exec, execSetMasterVolume, h]

theorem exec_setMasterVolume_of_none {v : Quad} (h : unitOperand v = none) (s : State) :
    exec (.setMasterVolume v) s = .refused .operandRange := by
  simp only [exec, execSetMasterVolume, h]

/-- Settles O23: the operand in [0, 1] is the value written. -/
theorem setMasterVolumeWritesMaster : Obligations.SetMasterVolumeWritesMaster :=
  fun s _ _ hv h0 h1 => exec_setMasterVolume_of_unit (unitOperand_eq_some.mpr ⟨hv, h0, h1⟩) s

theorem unitOperand_eq_none {b : Quad} (h : ¬∃ x, f64 b = some x ∧ 0 ≤ x ∧ x ≤ 1) : unitOperand b = none :=
  Option.eq_none_iff_forall_ne_some.mpr fun x hx => h ⟨x, unitOperand_eq_some.mp hx⟩

theorem hzOperand_eq_none {b : Quad} (h : ¬∃ x, f64 b = some x ∧ 0 < x) : hzOperand b = none :=
  Option.eq_none_iff_forall_ne_some.mpr fun x hx => h ⟨x, hzOperand_eq_some.mp hx⟩

/-- Rule R186: one operand of a SQUARE_NOTE out of range leaves it without values. -/
theorem squareOperands_eq_none {hz duty volume : Quad}
    (h : hzOperand hz = none ∨ unitOperand duty = none ∨ unitOperand volume = none) :
    squareOperands hz duty volume = none := by
  refine Option.eq_none_iff_forall_ne_some.mpr fun v hv => ?_
  obtain ⟨hf, hd, hvol⟩ := squareOperands_eq_some.mp hv
  simp [hf, hd, hvol] at h

/-- Rule R186: one operand of a NOISE_NOTE out of range leaves it without values. -/
theorem noiseOperands_eq_none {mode : NoiseMode} {hz volume : Quad}
    (h : hzOperand hz = none ∨ unitOperand volume = none) : noiseOperands mode hz volume = none := by
  refine Option.eq_none_iff_forall_ne_some.mpr fun v hv => ?_
  obtain ⟨hf, hvol, -⟩ := noiseOperands_eq_some.mp hv
  simp [hf, hvol] at h

theorem squareOperands_in_range {hz duty volume : Quad} {f d v : Rat} (hf : f64 hz = some f ∧ 0 < f)
    (hd : f64 duty = some d ∧ 0 ≤ d ∧ d ≤ 1) (hv : f64 volume = some v ∧ 0 ≤ v ∧ v ≤ 1) :
    squareOperands hz duty volume = some (f, d, v) :=
  squareOperands_eq_some.mpr ⟨hzOperand_eq_some.mpr hf, unitOperand_eq_some.mpr hd, unitOperand_eq_some.mpr hv⟩

theorem noiseOperands_in_range {mode : NoiseMode} {hz volume : Quad} {f v : Rat} (hf : f64 hz = some f ∧ 0 < f)
    (hv : f64 volume = some v ∧ 0 ≤ v ∧ v ≤ 1) : noiseOperands mode hz volume = some (f, v, mode) :=
  noiseOperands_eq_some.mpr ⟨hzOperand_eq_some.mpr hf, unitOperand_eq_some.mpr hv, rfl⟩

/-- Settles O24: a command without values is refused before its target is looked at. -/
theorem operandOutOfRangeIsRefused : Obligations.OperandOutOfRangeIsRefused := by
  intro s ch eff mode hz duty volume
  have hsquare (h : hzOperand hz = none ∨ unitOperand duty = none ∨ unitOperand volume = none) :
      exec (.squareNote ch eff hz duty volume) s = .refused .operandRange := by
    rw [exec_squareNote, squareOperands_eq_none h, dispatch_none]
  have hnoise (h : hzOperand hz = none ∨ unitOperand volume = none) :
      exec (.noiseNote ch mode eff hz volume) s = .refused .operandRange := by
    rw [exec_noiseNote, noiseOperands_eq_none h, dispatch_none]
  refine ⟨fun hv => ?_, fun hd => hsquare (.inr (.inl (unitOperand_eq_none hd))), fun hf => ?_⟩
  · have hnone := unitOperand_eq_none hv
    exact ⟨exec_setMasterVolume_of_none hnone s, hsquare (.inr (.inr hnone)), hnoise (.inr hnone)⟩
  · have hnone := hzOperand_eq_none hf
    refine ⟨hsquare (.inl hnone), ?_, hnoise (.inl hnone)⟩
    rw [exec_triangleNote, hnone, dispatch_none]

/-! #### A DISPATCH on its route, with room (rules R193 to R197) -/

/-- Rule R166: a list has room where it holds fewer entries than the capacity, if there is one. -/
theorem Param.full_eq_false {α : Type} {capacity : Option Nat} {p : Param α} :
    p.full capacity = false ↔ ∀ k, capacity = some k → p.pend.length < k := by
  cases capacity <;> simp [Param.full]

theorem Pulse.anyFull_eq_false_iff_lt {capacity : Option Nat} {o : Pulse} : o.anyFull capacity = false ↔
    ∀ k, capacity = some k → o.freq.pend.length < k ∧ o.duty.pend.length < k ∧ o.volume.pend.length < k := by
  simp only [Pulse.anyFull_eq_false, Param.full_eq_false, imp_and, forall_and]

theorem Noise.anyFull_eq_false_iff_lt {capacity : Option Nat} {o : Noise} : o.anyFull capacity = false ↔
    ∀ k, capacity = some k → o.freq.pend.length < k ∧ o.volume.pend.length < k ∧ o.mode.pend.length < k := by
  simp only [Noise.anyFull_eq_false, Param.full_eq_false, imp_and, forall_and]

/-- Settles O25: the checks pass, and scheduling appends one entry to each of the three lists. -/
theorem squareNoteSchedulesItsValues : Obligations.SquareNoteSchedulesItsValues := by
  intro s eff hz duty volume f d v o hf hf0 hd hd0 hd1 hv hv0 hv1 hcap
  have hvalues := squareOperands_in_range ⟨hf, hf0⟩ ⟨hd, hd0, hd1⟩ ⟨hv, hv0, hv1⟩
  have hexec (ch : Nat) (ho : s.slots.pulseAt ch = some o) : exec (.squareNote ch eff hz duty volume) s =
      .next { s.countDispatch with
        slots := s.slots.setPulse ch (o.scheduleNote (f, d, v) (effectiveFrame eff s.frame) s.seq) } := by
    rw [exec_squareNote, hvalues, ho]
    exact dispatch_room _ o (Pulse.anyFull_eq_false_iff_lt.mpr hcap) ..
  exact ⟨hexec 1, hexec 2⟩

/-- Settles O26: the checks pass, and scheduling appends one entry to the list of the frequency. -/
theorem triangleNoteSchedulesItsFrequency : Obligations.TriangleNoteSchedulesItsFrequency := by
  intro s eff hz f o hf hf0 ho hcap
  rw [exec_triangleNote, hzOperand_eq_some.mpr ⟨hf, hf0⟩, Slots.triangleAt_three, ho]
  exact dispatch_room f o (Param.full_eq_false.mpr hcap) ..

/-- Settles O27: the checks pass, and scheduling appends one entry to each of the three lists. -/
theorem noiseNoteSchedulesItsValues : Obligations.NoiseNoteSchedulesItsValues := by
  intro s eff mode hz volume f v o hf hf0 hv hv0 hv1 ho hcap
  rw [exec_noiseNote, noiseOperands_in_range ⟨hf, hf0⟩ ⟨hv, hv0, hv1⟩, Slots.noiseAt_four, ho]
  exact dispatch_room _ o (Noise.anyFull_eq_false_iff_lt.mpr hcap) ..

/-! #### A DISPATCH off its route (rules R193, R198, R199 and R232) -/

/-- Rule R193: the slot that routing reaches is `Ready` and of the variant's kind. -/
theorem Slots.ready_of_pulseAt {sl : Slots} {ch : Nat} {o : Pulse} (h : sl.pulseAt ch = some o) :
    sl.status ch = some .ready ∧ slotKind ch = some .pulse := by
  rcases Slots.pulseAt_eq_some h with ⟨rfl, ho⟩ | ⟨rfl, ho⟩ <;> simp [Slots.status, statusOf, ho, slotKind]

theorem Slots.ready_of_triangleAt {sl : Slots} {ch : Nat} {o : Triangle} (h : sl.triangleAt ch = some o) :
    sl.status ch = some .ready ∧ slotKind ch = some .triangle := by
  obtain ⟨rfl, ho⟩ := Slots.triangleAt_eq_some h
  simp [Slots.status, statusOf, ho, slotKind]

theorem Slots.ready_of_noiseAt {sl : Slots} {ch : Nat} {o : Noise} (h : sl.noiseAt ch = some o) :
    sl.status ch = some .ready ∧ slotKind ch = some .noise := by
  obtain ⟨rfl, ho⟩ := Slots.noiseAt_eq_some h
  simp [Slots.status, statusOf, ho, slotKind]

/-- Settles O28: routing reaches no slot, so that a DISPATCH in range is only counted. -/
theorem dispatchOffRouteIsDropped : Obligations.DispatchOffRouteIsDropped := by
  intro s ch eff mode hz duty volume f d v hf hf0 hd hd0 hd1 hv hv0 hv1
  refine ⟨fun hoff => ?_, fun hoff => ?_, fun hoff => ?_⟩
  · have hroute : s.slots.pulseAt ch = none :=
      Option.eq_none_iff_forall_ne_some.mpr fun _ ho => hoff (Slots.ready_of_pulseAt ho)
    rw [exec_squareNote, squareOperands_in_range ⟨hf, hf0⟩ ⟨hd, hd0, hd1⟩ ⟨hv, hv0, hv1⟩, hroute, dispatch_off_route,
      State.countDispatch]
  · have hroute : s.slots.triangleAt ch = none :=
      Option.eq_none_iff_forall_ne_some.mpr fun _ ho => hoff (Slots.ready_of_triangleAt ho)
    rw [exec_triangleNote, hzOperand_eq_some.mpr ⟨hf, hf0⟩, hroute, dispatch_off_route, State.countDispatch]
  · have hroute : s.slots.noiseAt ch = none :=
      Option.eq_none_iff_forall_ne_some.mpr fun _ ho => hoff (Slots.ready_of_noiseAt ho)
    rw [exec_noiseNote, noiseOperands_in_range ⟨hf, hf0⟩ ⟨hv, hv0, hv1⟩, hroute, dispatch_off_route,
      State.countDispatch]

/-! #### Rendered blocks (rules R200 and R203 to R208) -/

theorem exec_renderBlock (N : Nat) (s : State) : exec (.renderBlock N) s = .next (s.renderBlock N) := rfl

/-- Settles O47: the block's samples are read off frame by frame, and a block of no frames is empty. -/
theorem renderBlockReturnsEveryFrame : Obligations.RenderBlockReturnsEveryFrame := by
  intro s N
  refine ⟨_, _, exec_renderBlock N s, length_blockSamples .., fun k hk => blockSamples_getElem? _ _ _ _ hk, rfl, ?_⟩
  rintro rfl
  exact ⟨rfl, rfl⟩

/-- Every sample of a block is the mix at some frame of the slots as the frames before left them. -/
theorem exists_of_mem_blockSamples {c : Params} {master : Rat} {N n : Nat} {sl : Slots} {x : Rat}
    (hx : x ∈ blockSamples c master N n sl) : ∃ k, x = mixSample c master (n + k) (slotsAfterBlock c k n sl) := by
  obtain ⟨k, hk⟩ := List.mem_iff_getElem?.mp hx
  have hlt : k < N := by simpa using (List.getElem?_eq_some_iff.mp hk).1
  rw [blockSamples_getElem? c master n sl hlt] at hk
  exact ⟨k, (Option.some.inj hk).symm⟩

/-- A block whose every mix is 0 is all zeros. -/
theorem blockSamples_eq_replicate_zero {c : Params} {master : Rat} {n : Nat} {sl : Slots} (N : Nat)
    (h : ∀ k, mixSample c master (n + k) (slotsAfterBlock c k n sl) = 0) :
    blockSamples c master N n sl = List.replicate N 0 := by
  refine List.eq_replicate_iff.mpr ⟨length_blockSamples .., fun x hx => ?_⟩
  obtain ⟨k, rfl⟩ := exists_of_mem_blockSamples hx
  exact h k

theorem statusOf_eq_uninitialized {σ : Type} {x : Option σ} : statusOf x = .uninitialized ↔ x = none := by
  cases x <;> simp [statusOf]

/-- Rule R27: slots that are all `Uninitialized` hold nothing. -/
theorem Slots.eq_absent {sl : Slots} (h : ∀ i ∈ [1, 2, 3, 4], sl.status i = some .uninitialized) :
    sl = Slots.absent := by
  obtain ⟨slot1, slot2, slot3, slot4⟩ := sl
  simpa [Slots.status, statusOf_eq_uninitialized, Slots.absent] using h

@[simp] theorem slotsAfterBlock_absent (c : Params) (N n : Nat) : slotsAfterBlock c N n Slots.absent = Slots.absent := by
  rw [slotsAfterBlock_eq_renderSlot]; rfl

/-- Rule R206: absent slots add up to 0. -/
@[simp] theorem mixSample_absent (c : Params) (master : Rat) (n : Nat) : mixSample c master n Slots.absent = 0 := by
  simp [mixSample, outputSample, slotSum, Slots.absent, Numerics.add, Numerics.mul]

/-- Settles O49: absent slots stay absent and mix to 0. -/
theorem absentSlotsRenderSilence : Obligations.AbsentSlotsRenderSilence := by
  intro s N h
  have hslots : s.slots = Slots.absent := Slots.eq_absent h
  rw [exec_renderBlock, State.renderBlock, hslots, slotsAfterBlock_absent, ← hslots,
    blockSamples_eq_replicate_zero N (by simp [hslots])]
  rfl

/-- Rule R203: a `MASTER` of 0 mixes to 0. -/
@[simp] theorem mixSample_master_zero (c : Params) (n : Nat) (sl : Slots) : mixSample c 0 n sl = 0 := by
  simp [mixSample, outputSample, Numerics.mul]

/-- Settles O50: each mix is a product with 0. -/
theorem zeroMasterVolumeSilences : Obligations.ZeroMasterVolumeSilences := by
  intro s N h
  refine ⟨_, exec_renderBlock N s, ?_⟩
  rw [State.renderBlock_rendered, h, blockSamples_eq_replicate_zero N fun k => mixSample_master_zero ..]

/-! #### Bounds on a sample (rule R204) -/

/-- Rule R133 under `exact`: the level of a pulse has the magnitude of its volume. -/
theorem abs_pulseLevel_exact (p d : Rat) {v : Rat} (hv : 0 ≤ v) : |pulseLevel .exact p d v| = v := by
  rw [pulseLevel_of_round rfl]
  split_ifs
  · exact abs_of_nonneg hv
  · rw [abs_neg, abs_of_nonneg hv]

/-- Rule R136 under `exact`: the level of a triangle is at most its volume in magnitude. -/
theorem abs_triangleLevel_exact_le {p v : Rat} (hp : phaseOk p) (hv : 0 ≤ v) : |triangleLevel .exact p v| ≤ v := by
  obtain ⟨hp0, hp1⟩ := hp
  have hfar : |4 * p - 2| ≤ 2 := abs_le.mpr ⟨by linarith, by linarith⟩
  rw [triangleLevel_exact, abs_mul, abs_of_nonneg hv]
  exact mul_le_of_le_one_left hv (abs_le.mpr ⟨by linarith, by linarith [abs_nonneg (4 * p - 2)]⟩)

/-- Rules R139 and R206: a noise slot adds its volume in force or 0. -/
theorem abs_noiseFrame_le {c : Params} {n : Nat} {o : Noise} (hv : 0 ≤ o.volume.inForce n) :
    |(noiseFrame c n o).1| ≤ o.volume.inForce n := by
  rw [noiseFrame, noiseSample_fst, Param.inForce_retire_self]
  split_ifs
  · exact (abs_of_nonneg hv).le
  · rwa [abs_zero]

/-- A slot adds at most what its bound says, and an absent one nothing. -/
theorem abs_slotFrame_le_getD {σ : Type} {f : σ → Rat × σ} {bound : σ → Rat} {x : Option σ}
    (h : ∀ o ∈ x, |(f o).1| ≤ bound o) : |(slotFrame f x).1| ≤ (x.map bound).getD 0 := by
  cases x with
  | none => exact abs_zero.le
  | some o => exact h o rfl

/-- Rule R206 under `exact`: the sum of the slots' parts. -/
theorem slotSum_exact {c : Params} (h : c.numerics = .exact) (n : Nat) (sl : Slots) : slotSum c n sl =
    (slotFrame (pulseFrame c n) sl.slot1).1 + (slotFrame (pulseFrame c n) sl.slot2).1 +
      (slotFrame (triangleFrame c n) sl.slot3).1 + (slotFrame (noiseFrame c n) sl.slot4).1 := by
  simp only [slotSum, h, Numerics.add, Numerics.round, zero_add]

/-- Settles O51: `MASTER` times a sum of four parts, each within its own slot's volume. -/
theorem sampleBoundedByVolumes : Obligations.SampleBoundedByVolumes := by
  intro s n hinv hexact
  obtain ⟨⟨-, -, htri, -⟩, ⟨hmaster, -⟩, -, -, g1, g2, g3, g4⟩ := hinv
  have hpulse (o : Pulse) (ho : o.Good s.cfg s.frame s.seq) :
      |(pulseFrame s.cfg n o).1| ≤ o.volume.inForce n := by
    obtain ⟨-, -, -, hv⟩ := ho
    rw [pulseFrame_eq, hexact, abs_pulseLevel_exact _ _ (hv.inForce n).1]
  have htriangle : |(slotFrame (triangleFrame s.cfg n) s.slots.slot3).1| ≤ s.cfg.triangleVolume := by
    cases hslot : s.slots.slot3 with
    | none => rwa [slotFrame_none, abs_zero]
    | some o =>
      rw [slotFrame_some, triangleFrame_eq, hexact]
      exact abs_triangleLevel_exact_le (g3 o hslot).1 htri
  have hnoise (o : Noise) (ho : o.Good s.cfg s.frame s.seq) : |(noiseFrame s.cfg n o).1| ≤ o.volume.inForce n := by
    obtain ⟨-, -, -, hv, -⟩ := ho
    exact abs_noiseFrame_le (hv.inForce n).1
  have hmix : mixSample s.cfg s.master n s.slots = s.master * slotSum s.cfg n s.slots := by
    rw [mixSample, outputSample, hexact]; rfl
  rw [hmix, slotSum_exact hexact, abs_mul, abs_of_nonneg hmaster]
  refine mul_le_mul_of_nonneg_left ((abs_add_le _ _).trans (add_le_add ((abs_add_three _ _ _).trans
    (add_le_add (add_le_add ?_ ?_) htriangle)) ?_)) hmaster
  · exact abs_slotFrame_le_getD fun o ho => hpulse o (g1 o ho)
  · exact abs_slotFrame_le_getD fun o ho => hpulse o (g2 o ho)
  · exact abs_slotFrame_le_getD fun o ho => hnoise o (g4 o ho)

/-- Rule R11: with `TRIANGLE_VOLUME` 0 slot 3 adds 0. -/
theorem slotFrame_triangle_silent {c : Params} (hc : c.triangleVolume = 0) (n : Nat) (x : Option Triangle) :
    (slotFrame (triangleFrame c n) x).1 = 0 := by
  cases x with
  | none => rfl
  | some o => rw [slotFrame_some, triangleFrame_eq, hc, triangleLevel_volume_zero]

/-- Rule R204 on this hardware: only three slots add to the sum. -/
theorem abs_slotSum_le_three {c : Params} {frame seq n : Nat} {sl : Slots} (hc : c.triangleVolume = 0)
    (h : sl.Good c frame seq) : |slotSum c n sl| ≤ 3 := by
  obtain ⟨g1, g2, -, g4⟩ := h
  have h1 : |c.numerics.add 0 (slotFrame (pulseFrame c n) sl.slot1).1| ≤ (1 : Nat) :=
    abs_add_le_succ (z := 0) (by norm_num) (by simp) (abs_slotFrame_le_one fun o ho => abs_pulseFrame_le_one (g1 o ho))
  have h2 := abs_add_le_succ (k := c.numerics) (by norm_num) h1
    (abs_slotFrame_le_one fun o ho => abs_pulseFrame_le_one (n := n) (g2 o ho))
  have h3 : |c.numerics.add (c.numerics.add (c.numerics.add 0 (slotFrame (pulseFrame c n) sl.slot1).1)
      (slotFrame (pulseFrame c n) sl.slot2).1) (slotFrame (triangleFrame c n) sl.slot3).1| ≤ (2 : Nat) := by
    rw [slotFrame_triangle_silent hc, Numerics.add, add_zero]
    exact abs_round_le_intCast (z := 2) (by norm_num) (by exact_mod_cast h2)
  have h4 := abs_add_le_succ (k := c.numerics) (by norm_num) h3
    (abs_slotFrame_le_one fun o ho => abs_noiseFrame_le_one (n := n) (g4 o ho))
  exact_mod_cast h4

theorem abs_mixSample_le_three {c : Params} {master : Rat} {frame seq n : Nat} {sl : Slots} (hc : c.triangleVolume = 0)
    (hm : unitOk master) (h : sl.Good c frame seq) : |mixSample c master n sl| ≤ 3 := by
  refine abs_round_le_intCast (z := 3) (by norm_num) ?_
  rw [abs_mul]
  exact (mul_le_of_le_one_left (abs_nonneg _) (abs_le_one_of_unitOk hm)).trans (abs_slotSum_le_three hc h)

/-- Settles O52: good slots stay good from frame to frame, and the mix of good slots is within 3. -/
theorem blockSamplesAtMostThree : Obligations.BlockSamplesAtMostThree := by
  intro s N hinv hc
  obtain ⟨-, hmaster, -, -, hgood⟩ := hinv
  refine ⟨_, _, exec_renderBlock N s, State.renderBlock_rendered s N, fun x hx => ?_⟩
  obtain ⟨k, rfl⟩ := exists_of_mem_blockSamples hx
  exact abs_mixSample_le_three hc hmaster (slotsAfterBlock_good k hgood)

end Sys2Proof.Machine

/-! ### Error conditions

`60_exceptions.md`: which error conditions refuse a command, in the order it meets them, and that nothing else is
refused. -/

namespace Sys2Proof.Machine

/-! #### The first condition decides (rules R231, R236 and R238) -/

/-- Rule R236: the outcome is the refusal that the condition names, or a next state where it names none. -/
def Decides (c : Option ErrorCondition) (o : Host.Outcome State Fault Refusal) : Prop :=
  (∃ r, c.bind ErrorCondition.refusal = some r ∧ o = .refused r) ∨
    (c.bind ErrorCondition.refusal = none ∧ ∃ t, o = .next t)

theorem Decides.refused_iff {c : Option ErrorCondition} {o : Host.Outcome State Fault Refusal} (h : Decides c o)
    (r : Refusal) : o = .refused r ↔ c.bind ErrorCondition.refusal = some r := by
  rcases h with ⟨r', hc, rfl⟩ | ⟨hc, t, rfl⟩ <;> simp [hc]

theorem Decides.exists_next {c : Option ErrorCondition} {o : Host.Outcome State Fault Refusal} (h : Decides c o)
    (hc : c.bind ErrorCondition.refusal = none) : ∃ t, o = .next t := by
  rcases h with ⟨r, hr, -⟩ | ⟨-, hnext⟩
  · rw [hc] at hr; cases hr
  · exact hnext

/-- Rule R238: DISPATCH_COMMON checks E_RANGE, E_ROUTE and E_OVERFLOW in the order in which its condition names them. -/
theorem decides_dispatch {α σ : Type} (operands : Option α) (target : Option σ) (full : σ → Bool)
    (write : Slots → α → σ → Nat → Nat → Slots) (eff : Nat) (s : State) :
    Decides (dispatchCondition operands target full) (dispatch operands target full write eff s) := by
  rcases dispatch_cases operands target full write eff s with ⟨rfl, hout⟩ | ⟨v, rfl, rfl, hout⟩ |
    ⟨v, o, rfl, rfl, hfull, hout⟩ | ⟨v, o, rfl, rfl, hroom, hout⟩ <;> rw [hout]
  · exact .inl ⟨_, rfl, rfl⟩
  · exact .inr ⟨rfl, _, rfl⟩
  · exact .inl ⟨_, by simp [dispatchCondition, hfull, ErrorCondition.refusal], rfl⟩
  · exact .inr ⟨by simp [dispatchCondition, hroom], _, rfl⟩

/-- Rules R185 and R186: SET_MASTER_VOLUME meets E_RANGE or nothing. -/
theorem decides_setMasterVolume (v : Quad) (s : State) :
    Decides (conditionOf (.setMasterVolume v) s) (exec (.setMasterVolume v) s) := by
  cases hv : unitOperand v with
  | none =>
    rw [exec_setMasterVolume_of_none hv]
    exact .inl ⟨_, by simp [conditionOf, hv, ErrorCondition.refusal], rfl⟩
  | some x =>
    rw [exec_setMasterVolume_of_unit hv]
    exact .inr ⟨by simp [conditionOf, hv], _, rfl⟩

/-- Rules R231, R236 and R238 for every instruction that the block receives. -/
theorem decides_exec {i : Instr} (hp : i.port ≠ .response) (s : State) : Decides (conditionOf i s) (exec i s) := by
  cases i with
  | createChannels => exact .inr ⟨rfl, _, exec_createChannels s⟩
  | reset => exact .inr ⟨rfl, _, exec_reset s⟩
  | setMasterVolume v => exact decides_setMasterVolume v s
  | squareNote => rw [exec_squareNote]; exact decides_dispatch ..
  | triangleNote => rw [exec_triangleNote]; exact decides_dispatch ..
  | noiseNote => rw [exec_noiseNote]; exact decides_dispatch ..
  | renderBlock N => exact .inr ⟨rfl, _, exec_renderBlock N s⟩
  | initDone => exact absurd rfl hp

/-- Settles O29: the first condition decides between its refusal and a next state. -/
theorem refusedIffFirstConditionHasNoMeaning : Obligations.RefusedIffFirstConditionHasNoMeaning :=
  fun _ s hp => ⟨(decides_exec hp s).refused_iff, (decides_exec hp s).exists_next⟩

/-! #### Only APPLY refuses (rules R230, R235 and R236) -/

theorem exists_next_completeGeneration (g : Nat) (ok : Draw) (s : State) :
    ∃ t, completeGeneration g ok s = .next t := by
  rcases completeGeneration_cases g ok s with ⟨-, hnext⟩ | ⟨-, hnext⟩ <;> exact ⟨_, hnext⟩

/-- Rule R235: the render path never fails. -/
theorem exists_next_serveRequest (s : State) : ∃ t, serveRequest s = .next t := by
  rcases serveRequest_cases s with ⟨-, hnext⟩ | ⟨_, _, -, -, hnext⟩ | ⟨_, -, -, hnext⟩ <;> exact ⟨_, hnext⟩

theorem exists_next_performMove {m : Move} (hm : m ≠ .apply) (s : State) : ∃ t, performMove m s = .next t := by
  cases m with
  | apply => exact absurd rfl hm
  | complete g ok => exact exists_next_completeGeneration g ok s
  | render => exact exists_next_serveRequest s
  | hostWrite w => exact ⟨_, performMove_hostWrite w s⟩
  | hostRead => exact ⟨_, performMove_hostRead s⟩
  | sinkRequest w => exact ⟨_, performMove_sinkRequest w s⟩
  | sinkTake => exact ⟨_, performMove_sinkTake s⟩

/-- APPLY is refused only as the command it decodes is. -/
theorem applyHead_refused {s : State} {r : Refusal} (h : applyHead s = .refused r) :
    ∃ i rest, decodeCommand s.cmdq = .ok (i, rest) ∧ exec i { s with cmdq := rest } = .refused r := by
  rcases applyHead_cases s with ⟨i, rest, hd, hexec⟩ | ⟨_, -, hnext⟩ | ⟨-, hnext⟩
  · exact ⟨i, rest, hd, hexec.symm.trans h⟩
  · rw [hnext] at h; cases h
  · rw [hnext] at h; cases h

/-- A step is refused only as the command that it applies is. -/
theorem step_refused {s : State} {r : Refusal} (h : step s = .refused r) :
    ∃ ms i rest, s.moves = .apply :: ms ∧ decodeCommand s.cmdq = .ok (i, rest) ∧
      exec i { s with moves := ms, cmdq := rest } = .refused r := by
  cases hmoves : s.moves with
  | nil => rw [step_idle hmoves] at h; cases h
  | cons m ms =>
    rw [step_move hmoves] at h
    by_cases hm : m = .apply
    · subst hm
      obtain ⟨i, rest, hd, hexec⟩ := applyHead_refused h
      exact ⟨ms, i, rest, rfl, hd, hexec⟩
    · obtain ⟨t, hnext⟩ := exists_next_performMove hm { s with moves := ms }
      rw [hnext] at h; cases h

/-- No condition of an instruction reads the queues. -/
theorem conditionOf_queues (i : Instr) (s : State) (ms : List Move) (q : List Word) :
    conditionOf i { s with moves := ms, cmdq := q } = conditionOf i s := rfl

theorem port_ne_response_of_decodeCommand {ws rest : List Word} {i : Instr}
    (hd : decodeCommand ws = .ok (i, rest)) : i.port ≠ .response := by
  rw [decodeCommand_port hd]; decide

/-- Settles O53: there is no fault to answer, and a refused step is one that applies a command, whose first condition
decides. -/
theorem onlyACommandIsRefused : Obligations.OnlyACommandIsRefused := by
  refine fun s => ⟨nofun, fun r h => ?_⟩
  obtain ⟨ms, i, rest, hmoves, hd, hexec⟩ := step_refused h
  have hcondition := ((decides_exec (port_ne_response_of_decodeCommand hd) _).refused_iff r).mp hexec
  rw [conditionOf_queues] at hcondition
  exact ⟨ms, i, rest, hmoves, hd, hcondition⟩

end Sys2Proof.Machine
